-- ==== Sys2Proof/Word.lean ====
section
/-! DEFINITION. Sys2Proof/Word.lean: the word types of the controller (00_scope.md R5, 30_encoding.md R63, R64) and
the two-valued names that both the command words and the machine use. -/

namespace Sys2Proof

/-- One transfer unit on the bus and in the buffers: 8 bits (R5). -/
abbrev Byte := BitVec 8

/-- A 7-bit I2C device address (R5, R13, R60): every value is a legal address. -/
abbrev Addr := BitVec 7

/-- A duration, in a unit the hardware does not interpret: `DUR_W` = 16 bits (R5, R22, R23). -/
abbrev Duration := BitVec 16

/-- A command word: `CMD_W` = 32 bits (R5, R63). -/
abbrev CmdWord := BitVec 32

/-- A response word: `RESP_W` = 16 bits (R5, R64). -/
abbrev RespWord := BitVec 16

/-- Direction of a transfer, with the coding of R14 and R60: `W` = 0 (write), `R` = 1 (read). -/
inductive Mode where
  | write
  | read
deriving DecidableEq, Repr

/-- The direction bit of a mode: 0 = write, 1 = read (R60). -/
def Mode.bit : Mode → BitVec 1
  | .write => 0#1
  | .read => 1#1

end Sys2Proof
end

