-- ==== Sys2Proof/Syntax.lean ====
section
/-! DEFINITION. Sys2Proof/Syntax.lean: the 20 commands (30_encoding.md R66, spec/opcode_table.json), one constructor
per row, each with the operands of its row in the order of R68. -/

namespace Sys2Proof

/-- A command, after decoding. -/
inductive Instr where
  /-- `STOP stretch` (R94). -/
  | stop (stretch : Bool)
  /-- `START_RAW raw` (R96). -/
  | startRaw (raw : Byte)
  /-- `RSTART_RAW raw` (R98). -/
  | rstartRaw (raw : Byte)
  /-- `STARTW_RAW raw` (R100). -/
  | startwRaw (raw : Byte)
  /-- `START addr, mode` (R101). -/
  | start (addr : Addr) (mode : Mode)
  /-- `RSTART addr, mode` (R102). -/
  | rstart (addr : Addr) (mode : Mode)
  /-- `STARTW addr, mode` (R103). -/
  | startw (addr : Addr) (mode : Mode)
  /-- `WRITE data` (R121). -/
  | write (data : Byte)
  /-- `READ sendack` (R124). -/
  | read (sendAck : Bool)
  /-- `BEGIN_TX addr` (R141). -/
  | beginTx (addr : Addr)
  /-- `TX_PUT data` (R142). -/
  | txPut (data : Byte)
  /-- `END_TX sendstop` (R144). -/
  | endTx (sendStop : Bool)
  /-- `REQ_FROM addr, count, sendstop` (R146). -/
  | reqFrom (addr : Addr) (count : BitVec 8) (sendStop : Bool)
  /-- `RX_GET` (R147). -/
  | rxGet
  /-- `RX_PEEK` (R148). -/
  | rxPeek
  /-- `RX_AVAIL` (R149). -/
  | rxAvail
  /-- `CFG_PULLUPS en` (R170). -/
  | cfgPullups (en : Bool)
  /-- `CFG_DELAY dur` (R171). -/
  | cfgDelay (dur : Duration)
  /-- `CFG_TIMEOUT dur` (R172). -/
  | cfgTimeout (dur : Duration)
  /-- `INIT` (R173). -/
  | init
deriving DecidableEq, Repr

end Sys2Proof
end

