-- ==== Sys2Proof/WellFormed.lean ====
section
/-! DEFINITION. Sys2Proof/WellFormed.lean: which commands are well formed. A decoded command always is (30_encoding.md
R67: "Values of individual fields are never illegal"); what can be ill formed is a command as a host WRITES it, with
its operands as numbers (R68) and in the pseudo-command forms of R69. -/

namespace Sys2Proof

/-- Every operand lies in the range its field admits (R63). The fields' types already say so (R13: "there is no
out-of-range address in this hardware"), so this holds of every `Instr`. -/
def Instr.wellFormed : Instr → Bool
  | .stop _ => true
  | .startRaw raw => raw.toNat < 256
  | .rstartRaw raw => raw.toNat < 256
  | .startwRaw raw => raw.toNat < 256
  | .start addr _ => addr.toNat < 128
  | .rstart addr _ => addr.toNat < 128
  | .startw addr _ => addr.toNat < 128
  | .write data => data.toNat < 256
  | .read _ => true
  | .beginTx addr => addr.toNat < 128
  | .txPut data => data.toNat < 256
  | .endTx _ => true
  | .reqFrom addr count _ => addr.toNat < 128 && count.toNat < 256
  | .rxGet => true
  | .rxPeek => true
  | .rxAvail => true
  | .cfgPullups _ => true
  | .cfgDelay dur => dur.toNat < 65536
  | .cfgTimeout dur => dur.toNat < 65536
  | .init => true

/-- A command as the host writes it: the mnemonics of R68 with their operands as natural numbers, an operand that R69
lets out as `none`, and the pseudo-commands of R69. -/
inductive Asm where
  | stop (stretch : Option Nat)
  | stopNoStretch
  | startRaw (raw : Nat)
  | rstartRaw (raw : Nat)
  | startwRaw (raw : Nat)
  | start (addr mode : Nat)
  | rstart (addr mode : Nat)
  | startw (addr mode : Nat)
  | write (data : Nat)
  | read (sendAck : Nat)
  | readAck
  | readNack
  | beginTx (addr : Nat)
  | txPut (data : Nat)
  | endTx (sendStop : Option Nat)
  | reqFrom (addr count : Nat) (sendStop : Option Nat)
  | rxGet
  | rxPeek
  | rxAvail
  | cfgPullups (en : Nat)
  | cfgDelay (dur : Nat)
  | cfgTimeout (dur : Nat)
  | configure (pullups delay timeout : Nat)
  | init
deriving DecidableEq, Repr

/-- A one-bit operand is 0 or 1. -/
def Asm.flagOk (n : Nat) : Bool := n < 2
/-- A device address is 7 bits. -/
def Asm.addrOk (n : Nat) : Bool := n < 128
/-- A raw address byte, a data byte or a count is 8 bits. -/
def Asm.byteOk (n : Nat) : Bool := n < 256
/-- A duration is 16 bits. -/
def Asm.durOk (n : Nat) : Bool := n < 65536

/-- Each operand that is written fits its field of R63. -/
def Asm.wellFormed : Asm → Bool
  | .stop stretch => stretch.all flagOk
  | .stopNoStretch => true
  | .startRaw raw => byteOk raw
  | .rstartRaw raw => byteOk raw
  | .startwRaw raw => byteOk raw
  | .start addr mode => addrOk addr && flagOk mode
  | .rstart addr mode => addrOk addr && flagOk mode
  | .startw addr mode => addrOk addr && flagOk mode
  | .write data => byteOk data
  | .read sendAck => flagOk sendAck
  | .readAck => true
  | .readNack => true
  | .beginTx addr => addrOk addr
  | .txPut data => byteOk data
  | .endTx sendStop => sendStop.all flagOk
  | .reqFrom addr count sendStop => addrOk addr && byteOk count && sendStop.all flagOk
  | .rxGet => true
  | .rxPeek => true
  | .rxAvail => true
  | .cfgPullups en => flagOk en
  | .cfgDelay dur => durOk dur
  | .cfgTimeout dur => durOk dur
  | .configure pullups delay timeout => flagOk pullups && durOk delay && durOk timeout
  | .init => true

end Sys2Proof
end

