-- ==== Sys2Proof/Decode.lean ====
section
/-! DEFINITION. Sys2Proof/Decode.lean: the opcode table, the decoder, the encoder and the assembler, from
30_encoding.md R63 and R66 to R69. A command is one 32-bit word on a parallel port: it has no byte order (20_memory.md
R43), one length and one format. -/

namespace Sys2Proof

/-- Why a word is no command (R67). Either way the response is `0x8000` and nothing else happens. -/
inductive DecodeError where
  /-- `OPC` is not one of the 20 opcodes. -/
  | unknownOpcode (opc : Byte)
  /-- A reserved bit of the named command's row is 1. -/
  | reservedBitSet (mnemonic : String)
deriving DecidableEq, Repr

/-- One row of the table of R66: a word `w` is the command exactly when `w &&& mask = pattern`. -/
structure OpRow where
  mnemonic : String
  pattern : CmdWord
  mask : CmdWord
deriving DecidableEq, Repr

/-- The row of R66 a command belongs to. -/
def Instr.row : Instr → OpRow
  | .stop _ => ⟨"STOP", 0x01000000, 0xFFFFFFFE⟩
  | .startRaw _ => ⟨"START_RAW", 0x02000000, 0xFFFFFF00⟩
  | .rstartRaw _ => ⟨"RSTART_RAW", 0x03000000, 0xFFFFFF00⟩
  | .startwRaw _ => ⟨"STARTW_RAW", 0x04000000, 0xFFFFFF00⟩
  | .start _ _ => ⟨"START", 0x05000000, 0xFFFF80FE⟩
  | .rstart _ _ => ⟨"RSTART", 0x06000000, 0xFFFF80FE⟩
  | .startw _ _ => ⟨"STARTW", 0x07000000, 0xFFFF80FE⟩
  | .write _ => ⟨"WRITE", 0x08000000, 0xFFFFFF00⟩
  | .read _ => ⟨"READ", 0x09000000, 0xFFFFFFFE⟩
  | .beginTx _ => ⟨"BEGIN_TX", 0x10000000, 0xFFFF80FF⟩
  | .txPut _ => ⟨"TX_PUT", 0x11000000, 0xFFFFFF00⟩
  | .endTx _ => ⟨"END_TX", 0x12000000, 0xFFFFFFFE⟩
  | .reqFrom _ _ _ => ⟨"REQ_FROM", 0x13000000, 0xFF0080FE⟩
  | .rxGet => ⟨"RX_GET", 0x14000000, 0xFFFFFFFF⟩
  | .rxPeek => ⟨"RX_PEEK", 0x15000000, 0xFFFFFFFF⟩
  | .rxAvail => ⟨"RX_AVAIL", 0x16000000, 0xFFFFFFFF⟩
  | .cfgPullups _ => ⟨"CFG_PULLUPS", 0x20000000, 0xFFFFFFFE⟩
  | .cfgDelay _ => ⟨"CFG_DELAY", 0x21000000, 0xFFFF0000⟩
  | .cfgTimeout _ => ⟨"CFG_TIMEOUT", 0x22000000, 0xFFFF0000⟩
  | .init => ⟨"INIT", 0x23000000, 0xFFFFFFFF⟩

/-- The rows of R66, in the table's order. -/
def opcodeTable : List OpRow :=
  [Instr.row (.stop false), Instr.row (.startRaw 0), Instr.row (.rstartRaw 0), Instr.row (.startwRaw 0),
    Instr.row (.start 0 .write), Instr.row (.rstart 0 .write), Instr.row (.startw 0 .write), Instr.row (.write 0),
    Instr.row (.read false)] ++
  [Instr.row (.beginTx 0), Instr.row (.txPut 0), Instr.row (.endTx false), Instr.row (.reqFrom 0 0 false),
    Instr.row .rxGet, Instr.row .rxPeek, Instr.row .rxAvail] ++
  [Instr.row (.cfgPullups false), Instr.row (.cfgDelay 0), Instr.row (.cfgTimeout 0), Instr.row .init]

/-! ## The fields of a command word (R63) -/

/-- `OPC`, bits 31:24. -/
def fieldOpc (w : CmdWord) : Byte := w.extractLsb' 24 8
/-- `COUNT`, bits 23:16. -/
def fieldCount (w : CmdWord) : BitVec 8 := w.extractLsb' 16 8
/-- `ADDR`, bits 14:8. -/
def fieldAddr (w : CmdWord) : Addr := w.extractLsb' 8 7
/-- `RAW` or `DATA`, bits 7:0. -/
def fieldByte (w : CmdWord) : Byte := w.extractLsb' 0 8
/-- `DUR`, bits 15:0. -/
def fieldDur (w : CmdWord) : Duration := w.extractLsb' 0 16
/-- `SENDACK`, `SENDSTOP`, `STRETCH` or `EN`, bit 0. -/
def fieldFlag (w : CmdWord) : Bool := w.getLsbD 0
/-- `MODE`, bit 0: 0 = write, 1 = read. -/
def fieldMode (w : CmdWord) : Mode := if w.getLsbD 0 then .read else .write

/-! ## The decoder -/

/-- The command an opcode names, with its operand fields read; reserved bits are not looked at yet. -/
def commandOf (w : CmdWord) : Option Instr :=
  match (fieldOpc w).toNat with
  | 0x01 => some (.stop (fieldFlag w))
  | 0x02 => some (.startRaw (fieldByte w))
  | 0x03 => some (.rstartRaw (fieldByte w))
  | 0x04 => some (.startwRaw (fieldByte w))
  | 0x05 => some (.start (fieldAddr w) (fieldMode w))
  | 0x06 => some (.rstart (fieldAddr w) (fieldMode w))
  | 0x07 => some (.startw (fieldAddr w) (fieldMode w))
  | 0x08 => some (.write (fieldByte w))
  | 0x09 => some (.read (fieldFlag w))
  | 0x10 => some (.beginTx (fieldAddr w))
  | 0x11 => some (.txPut (fieldByte w))
  | 0x12 => some (.endTx (fieldFlag w))
  | 0x13 => some (.reqFrom (fieldAddr w) (fieldCount w) (fieldFlag w))
  | 0x14 => some .rxGet
  | 0x15 => some .rxPeek
  | 0x16 => some .rxAvail
  | 0x20 => some (.cfgPullups (fieldFlag w))
  | 0x21 => some (.cfgDelay (fieldDur w))
  | 0x22 => some (.cfgTimeout (fieldDur w))
  | 0x23 => some .init
  | _ => none

/-- The decoder: total on every 32-bit word, refusing by name (R66, R67). -/
def decode (w : CmdWord) : Except DecodeError Instr :=
  match commandOf w with
  | none => .error (.unknownOpcode (fieldOpc w))
  | some i => if w &&& i.row.mask = i.row.pattern then .ok i else .error (.reservedBitSet i.row.mnemonic)

/-- The decoder on a table row's word: a command is one 32-bit word, whose bits the table numbers as R63 does. -/
def decodeTableWord (nbits w : Nat) : Option Instr :=
  match decode (BitVec.ofNat 32 (w % 2 ^ nbits)) with
  | .ok i => some i
  | .error _ => none

/-! ## The encoder (R68) -/

/-- A one-bit operand in its place, bit 0. -/
def flagBits (b : Bool) : CmdWord := (BitVec.ofBool b).setWidth 32
/-- A mode operand in its place, bit 0. -/
def modeBits (m : Mode) : CmdWord := m.bit.setWidth 32
/-- An address operand in its place, bits 14:8. -/
def addrBits (a : Addr) : CmdWord := a.setWidth 32 <<< 8
/-- A raw or data byte in its place, bits 7:0. -/
def byteBits (b : Byte) : CmdWord := b.setWidth 32
/-- A count operand in its place, bits 23:16. -/
def countBits (c : BitVec 8) : CmdWord := c.setWidth 32 <<< 16
/-- A duration operand in its place, bits 15:0. -/
def durBits (d : Duration) : CmdWord := d.setWidth 32

/-- The word of a command: the column `Word` of the table of R68. -/
def encode : Instr → CmdWord
  | .stop stretch => 0x01000000#32 ||| flagBits stretch
  | .startRaw raw => 0x02000000#32 ||| byteBits raw
  | .rstartRaw raw => 0x03000000#32 ||| byteBits raw
  | .startwRaw raw => 0x04000000#32 ||| byteBits raw
  | .start addr mode => 0x05000000#32 ||| addrBits addr ||| modeBits mode
  | .rstart addr mode => 0x06000000#32 ||| addrBits addr ||| modeBits mode
  | .startw addr mode => 0x07000000#32 ||| addrBits addr ||| modeBits mode
  | .write data => 0x08000000#32 ||| byteBits data
  | .read sendAck => 0x09000000#32 ||| flagBits sendAck
  | .beginTx addr => 0x10000000#32 ||| addrBits addr
  | .txPut data => 0x11000000#32 ||| byteBits data
  | .endTx sendStop => 0x12000000#32 ||| flagBits sendStop
  | .reqFrom addr count sendStop => 0x13000000#32 ||| countBits count ||| addrBits addr ||| flagBits sendStop
  | .rxGet => 0x14000000#32
  | .rxPeek => 0x15000000#32
  | .rxAvail => 0x16000000#32
  | .cfgPullups en => 0x20000000#32 ||| flagBits en
  | .cfgDelay dur => 0x21000000#32 ||| durBits dur
  | .cfgTimeout dur => 0x22000000#32 ||| durBits dur
  | .init => 0x23000000#32

/-! ## The assembler (R68, R69) -/

/-- A one-bit operand as written: 0 or 1. -/
def Asm.flag (n : Nat) : Bool := n == 1
/-- A mode operand as written: `W` = 0, `R` = 1. -/
def Asm.mode (n : Nat) : Mode := if n = 1 then .read else .write

/-- The commands a written command stands for (R69: each pseudo-command is an alias; `CONFIGURE` is three commands). -/
def Asm.expand : Asm → List Instr
  | .stop stretch => [.stop (Asm.flag (stretch.getD 1))]
  | .stopNoStretch => [.stop false]
  | .startRaw raw => [.startRaw (.ofNat 8 raw)]
  | .rstartRaw raw => [.rstartRaw (.ofNat 8 raw)]
  | .startwRaw raw => [.startwRaw (.ofNat 8 raw)]
  | .start addr mode => [.start (.ofNat 7 addr) (Asm.mode mode)]
  | .rstart addr mode => [.rstart (.ofNat 7 addr) (Asm.mode mode)]
  | .startw addr mode => [.startw (.ofNat 7 addr) (Asm.mode mode)]
  | .write data => [.write (.ofNat 8 data)]
  | .read sendAck => [.read (Asm.flag sendAck)]
  | .readAck => [.read true]
  | .readNack => [.read false]
  | .beginTx addr => [.beginTx (.ofNat 7 addr)]
  | .txPut data => [.txPut (.ofNat 8 data)]
  | .endTx sendStop => [.endTx (Asm.flag (sendStop.getD 1))]
  | .reqFrom addr count sendStop => [.reqFrom (.ofNat 7 addr) (.ofNat 8 count) (Asm.flag (sendStop.getD 1))]
  | .rxGet => [.rxGet]
  | .rxPeek => [.rxPeek]
  | .rxAvail => [.rxAvail]
  | .cfgPullups en => [.cfgPullups (Asm.flag en)]
  | .cfgDelay dur => [.cfgDelay (.ofNat 16 dur)]
  | .cfgTimeout dur => [.cfgTimeout (.ofNat 16 dur)]
  | .configure pullups delay timeout =>
    [.cfgPullups (Asm.flag pullups), .cfgDelay (.ofNat 16 delay), .cfgTimeout (.ofNat 16 timeout)]
  | .init => [.init]

/-- The words a written command assembles to, computed on the written numbers as the table of R68 writes them. -/
def Asm.words : Asm → List Nat
  | .stop stretch => [0x01000000 ||| stretch.getD 1]
  | .stopNoStretch => [0x01000000]
  | .startRaw raw => [0x02000000 ||| raw]
  | .rstartRaw raw => [0x03000000 ||| raw]
  | .startwRaw raw => [0x04000000 ||| raw]
  | .start addr mode => [0x05000000 ||| addr <<< 8 ||| mode]
  | .rstart addr mode => [0x06000000 ||| addr <<< 8 ||| mode]
  | .startw addr mode => [0x07000000 ||| addr <<< 8 ||| mode]
  | .write data => [0x08000000 ||| data]
  | .read sendAck => [0x09000000 ||| sendAck]
  | .readAck => [0x09000001]
  | .readNack => [0x09000000]
  | .beginTx addr => [0x10000000 ||| addr <<< 8]
  | .txPut data => [0x11000000 ||| data]
  | .endTx sendStop => [0x12000000 ||| sendStop.getD 1]
  | .reqFrom addr count sendStop => [0x13000000 ||| count <<< 16 ||| addr <<< 8 ||| sendStop.getD 1]
  | .rxGet => [0x14000000]
  | .rxPeek => [0x15000000]
  | .rxAvail => [0x16000000]
  | .cfgPullups en => [0x20000000 ||| en]
  | .cfgDelay dur => [0x21000000 ||| dur]
  | .cfgTimeout dur => [0x22000000 ||| dur]
  | .configure pullups delay timeout => [0x20000000 ||| pullups, 0x21000000 ||| delay, 0x22000000 ||| timeout]
  | .init => [0x23000000]

end Sys2Proof
end

