-- ==== Sys2Proof/Config.lean ====
section
/-! DEFINITION. Sys2Proof/Config.lean: what an implementation fixes (the four open parameters of 00_scope.md R5 and
92_eei_decisions.md D8, D20), and the values the spec leaves free, as constants without a body. -/

namespace Sys2Proof

/-- The open parameters of the hardware (R5, R35). They are carried in the state, where no step changes them, so that
every statement about every state holds for every choice of them (assumption 3). -/
structure Params where
  /-- `TX_CAP`, capacity in bytes of the outgoing buffer. -/
  txCap : Nat
  /-- `RX_CAP`, capacity in bytes of the incoming buffer. -/
  rxCap : Nat
  /-- `DELAY_RESET`, the reset value of DELAY. -/
  delayReset : Duration
  /-- `TIMEOUT_RESET`, the reset value of TIMEOUT. -/
  timeoutReset : Duration
deriving DecidableEq, Repr

/-- The constraint of R5 on the capacities: `1 ≤ TX_CAP ≤ 255` and `1 ≤ RX_CAP ≤ 255`. -/
abbrev Params.Valid (p : Params) : Prop :=
  1 ≤ p.txCap ∧ p.txCap ≤ 255 ∧ 1 ≤ p.rxCap ∧ p.rxCap ≤ 255

/-- The parameters `State.reset` is written with: capacities 32 (95_test_vectors.md, Part 3), both reset durations 0.
DESIGN CHOICE (assumption 3): the spec leaves all four open. -/
def Params.nominal : Params :=
  { txCap := 32, rxCap := 32, delayReset := 0, timeoutReset := 0 }

/-- The `n`-th free byte: `SR` after a timeout abort (93_implementation_defined.md U3) and `TXPOS` after END_TX
(10_state.md R25). No body: nothing can be proved about its value (assumption 5). -/
opaque Config.freeByte : Nat → Byte

/-- The `n`-th free 4-bit value: `BITCNT` after a timeout abort (93_implementation_defined.md U2; assumption 5). -/
opaque Config.freeNibble : Nat → BitVec 4

/-- What element `i` of the outgoing buffer holds while nothing has written it since reset
(93_implementation_defined.md U1; assumption 4). -/
opaque Config.unwrittenTx : Nat → Byte

/-- What element `i` of the incoming buffer holds while nothing has written it since reset
(93_implementation_defined.md U1; assumption 4). -/
opaque Config.unwrittenRx : Nat → Byte

end Sys2Proof
end

