-- ==== Sys2Proof/Machine/State.lean ====
section
/-! DEFINITION. Sys2Proof/Machine/State.lean: the state, as plain data: the 18 registers of 10_state.md R10, the ports the
host and the environment see (R31 to R33), and the inputs the controller does not choose (R35). -/

namespace Sys2Proof.Machine

/-- An output latch: the line is actively driven low, or released to float (R17). -/
inductive Latch where
  | low
  | rel
deriving DecidableEq, Repr

/-- The phase of the transaction sequencer (R16): three values, so that the encoding 3 cannot be written (U6). -/
inductive Phase where
  | idle
  | transmitting
  | receiving
deriving DecidableEq, Repr

/-- The two Timeout Guard units the controller uses (R206): `gp` bounds one primitive, `go` bounds START-with-wait. -/
inductive Guard where
  | gp
  | go
deriving DecidableEq, Repr

/-- One token of the action trace (00_scope.md section 5): a primitive action, with the value it presents on a port
(R205) or the environment's answer to it. -/
inductive Token where
  /-- `d`: drive SDA low. -/
  | sdaLow
  /-- `D`: release SDA. -/
  | sdaRelease
  /-- `c`: drive SCL low. -/
  | sclLow
  /-- `C`: release SCL. -/
  | sclRelease
  /-- `rd0`, `rd1`: SDA was sampled. -/
  | readSda (level : Bool)
  /-- `rc0`, `rc1`: SCL was sampled. -/
  | readScl (level : Bool)
  /-- `_`: one bit-delay was requested, with this value on `delay_duration`. -/
  | delay (duration : Duration)
  /-- `gsP`, `gsO`: a guard was started, with this value on `tg_duration`. -/
  | tgStart (guard : Guard) (duration : Duration)
  /-- `gqP0` to `gqO1`: a guard was asked whether it has expired. -/
  | tgQuery (guard : Guard) (expired : Bool)
deriving DecidableEq, Repr

/-- The environment's answers to the successive calls of one input primitive: `pending` in call order, then `rest` for
ever ("all 1" and "all 0" of 95_test_vectors.md are a list without pending answers). A command that ends asks for
finitely many answers, so every behaviour of the environment during it is one of these (R49; assumption 1). -/
structure Answers where
  pending : List Bool
  rest : Bool
deriving DecidableEq, Repr

/-- The inputs of the Line Interface and the timing port (R32, R33), each as the answers to its successive calls. -/
structure Env where
  /-- `scl_in`: answers to `read_scl()`, true = high. -/
  scl : Answers
  /-- `sda_in`: answers to `read_sda()`, true = high. -/
  sda : Answers
  /-- `tg_expired_p`: answers to `tg_expired(GP)`. -/
  gp : Answers
  /-- `tg_expired_o`: answers to `tg_expired(GO)`. -/
  go : Answers
  /-- `delay_done`: for each `delay()`, whether the environment ever reports it done. -/
  delayDone : Answers
deriving DecidableEq, Repr

/-- What the host does at the command port next (R31). -/
inductive HostEvent where
  /-- It presents a command word (`cmd_valid` with `cmd`). -/
  | command (word : CmdWord)
  /-- It asserts `rst` between two commands. -/
  | reset
  /-- It presents a command word and asserts `rst` after the command's first `actions` primitive actions, before any
  response (R221). -/
  | resetDuring (word : CmdWord) (actions : Nat)
deriving DecidableEq, Repr

/-- A byte buffer: the elements written since reset, as (index, byte) pairs with strictly rising indices. An index that
is not listed has no value of its own: a read of it gives a free value (assumption 4). -/
abbrev Memory := List Host.Cell

/-- The whole machine. The first eighteen fields are the registers of R10 under their own names; `resp` is the response
port; the last six are the model's: what is fixed (`params`), what comes from outside (`env`, `host`), what goes outside
(`trace`) and the counter that free values are drawn with (`draws`). -/
structure State where
  /-- `SR`, the byte shift register (R11). -/
  sr : Byte
  /-- `BITCNT`, bits of the current byte still to be transferred (R12). -/
  bitcnt : BitVec 4
  /-- `TADDR`, the target device address (R13). -/
  taddr : Addr
  /-- `DIR`, direction of the current or last transaction (R14). -/
  dir : Mode
  /-- `BUSY`, a command is executing (R15). -/
  busy : Bool
  /-- `PHASE` (R16). -/
  phase : Phase
  /-- `SDA_OUT`, the data line's output latch (R17). -/
  sdaOut : Latch
  /-- `SCL_OUT`, the clock line's output latch (R17). -/
  sclOut : Latch
  /-- `STOP_DEFERRED`, the last transaction ended without a STOP (R18). -/
  stopDeferred : Bool
  /-- `PULLUPS` (R21). -/
  pullups : Bool
  /-- `DELAY` (R22). -/
  delay : Duration
  /-- `TIMEOUT` (R23). -/
  timeout : Duration
  /-- `TXBUF` (R25). -/
  txbuf : Memory
  /-- `TXLEN`, outgoing write cursor (R25). -/
  txlen : BitVec 8
  /-- `TXPOS`, outgoing read cursor (R25). -/
  txpos : BitVec 8
  /-- `RXBUF` (R26). -/
  rxbuf : Memory
  /-- `RXLEN`, incoming write cursor (R26). -/
  rxlen : BitVec 8
  /-- `RXPOS`, incoming read cursor (R26). -/
  rxpos : BitVec 8
  /-- `resp_valid` and `resp`: the response of the last command, none before the first and while one runs (R31). -/
  resp : Option RespWord
  /-- The open parameters; no step changes them (R5, R35). -/
  params : Params
  /-- The environment's answers still to come (R35). -/
  env : Env
  /-- What the host does from here on (R35). -/
  host : List HostEvent
  /-- The action trace so far, oldest first (R47). -/
  trace : List Token
  /-- How many free values have been drawn (assumption 5). -/
  draws : Nat
deriving DecidableEq, Repr

/-- Why the machine is stuck (60_exceptions.md R208; 93_implementation_defined.md U9: the command never completes, no
response, no further command accepted; assumption 12). All three are SAFE: the hardware does not go on either. NACK and TIMEDOUT are
no faults (R190). -/
inductive Fault where
  /-- Raised by `waitSclHigh`: the clock never reads high and the guard never answers "expired". Safe. -/
  | clockNeverRises
  /-- Raised by `bitDelay`: the environment never reports the delay done. Safe. -/
  | delayNeverDone
  /-- Raised by `startWaitLoop`: every attempt is not acknowledged and guard GO never answers "expired". Safe. -/
  | retryNeverEnds
deriving DecidableEq, Repr

/-- Why an instruction has no meaning. No instruction of this model answers with one. -/
inductive Refusal where
  /-- Raised by an arm of `exec` for an instruction without a meaning; no arm is one. Safe. -/
  | notModelled (mnemonic : String)
deriving DecidableEq, Repr

/-- The reset table of R34, for any parameters and any inputs. `SR`, `BITCNT`: the spec gives no value, the model names
0 (DESIGN CHOICE, assumption 6); the buffers list nothing, so every element is free (R25, U1). -/
def State.powerUp (p : Params) (e : Env) (h : List HostEvent) : State where
  sr := 0
  bitcnt := 0
  taddr := 0
  dir := .write
  busy := false
  phase := .idle
  sdaOut := .rel
  sclOut := .rel
  stopDeferred := false
  pullups := false
  delay := p.delayReset
  timeout := p.timeoutReset
  txbuf := []
  txlen := 0
  txpos := 0
  rxbuf := []
  rxlen := 0
  rxpos := 0
  resp := none
  params := p
  env := e
  host := h
  trace := []
  draws := 0

/-- The environment `State.reset` is written with: a bus without slaves and with pull-ups (both lines read high), delays
that end, a guard GP that does not expire, a guard GO that allows one attempt. DESIGN CHOICE (assumption 2): the spec
leaves every answer free (U8), and no statement rests on these. -/
def Env.idleBus : Env where
  scl := ⟨[], true⟩
  sda := ⟨[], true⟩
  gp := ⟨[], false⟩
  go := ⟨[false], true⟩
  delayDone := ⟨[], true⟩

/-- The machine right after reset (R34, R220), before the host has presented anything. -/
def State.reset : State := State.powerUp Params.nominal Env.idleBus []

end Sys2Proof.Machine
end

