-- ==== Sys2Proof/Machine/Flags.lean ====
section
/-! DEFINITION. Sys2Proof/Machine/Flags.lean: the result codes and the response word (10_state.md R19, R20; 30_encoding.md
R64; 42_transaction.md R145). The controller has no arithmetic flags (10_state.md, section 4): these codes are what a
command reports. -/

namespace Sys2Proof.Machine

/-- The result status of a bus primitive (R19): three values, so that the encoding 3 cannot be written (U6). -/
inductive Status where
  | ack
  | nack
  | timedOut
deriving DecidableEq, Repr

/-- The encoding of the result status (R19). -/
def Status.code : Status → BitVec 3
  | .ack => 0
  | .nack => 1
  | .timedOut => 2

/-- The transaction status END_TX returns (R20). -/
inductive TxStatus where
  | ok
  | addrNack
  | dataNack
  | other
deriving DecidableEq, Repr

/-- The encoding of the transaction status (R20). -/
def TxStatus.code : TxStatus → BitVec 3
  | .ok => 0
  | .addrNack => 2
  | .dataNack => 3
  | .other => 4

/-- What the address phase's result makes of the transaction (R145). -/
def TxStatus.ofAddress : Status → TxStatus
  | .ack => .ok
  | .nack => .addrNack
  | .timedOut => .other

/-- What a data byte's result makes of the transaction (R145). -/
def TxStatus.ofData : Status → TxStatus
  | .ack => .ok
  | .nack => .dataNack
  | .timedOut => .other

/-- The response word of R64: `ILL`, three zeros, `FLAG`, `CODE`, `DATA`. -/
def respWord (ill flag : Bool) (code : BitVec 3) (data : Byte) : RespWord :=
  BitVec.ofBool ill ++ 0#3 ++ BitVec.ofBool flag ++ code ++ data

/-- The response of a bus-primitive command that reports only its status. -/
def respStatus (r : Status) : RespWord := respWord false false r.code 0

/-- The response of END_TX. -/
def respTx (c : TxStatus) : RespWord := respWord false false c.code 0

/-- The response that carries a one-bit buffer outcome and a byte (TX_PUT, RX_GET, RX_PEEK). -/
def respFlag (flag : Bool) (data : Byte) : RespWord := respWord false flag 0 data

/-- The response that carries only a byte or a count. -/
def respData (data : Byte) : RespWord := respWord false false 0 data

/-- The response of a command that reports nothing: `0x0000`. -/
def respDone : RespWord := respWord false false 0 0

/-- The response to an illegal command: `0x8000` (R67). -/
def respIllegal : RespWord := respWord true false 0 0

end Sys2Proof.Machine
end

