-- ==== Sys2Proof/Machine/Operands.lean ====
section
/-! DEFINITION. Sys2Proof/Machine/Operands.lean: operand assembly (30_encoding.md R60, R65; 42_transaction.md R146) and
the shift register's arithmetic (41_byte_transfer.md R126). -/

namespace Sys2Proof.Machine

/-- The raw address byte, `{ADDR, MODE}` (R60). -/
def rawByte (addr : Addr) (mode : Mode) : Byte := addr ++ mode.bit

/-- The address part of a raw address byte (R60, the inverse). -/
def rawAddr (raw : Byte) : Addr := raw.extractLsb' 1 7

/-- The direction part of a raw address byte (R60, the inverse). -/
def rawMode (raw : Byte) : Mode := if raw.getLsbD 0 then .read else .write

/-- `SR <- {SR[6:0], b}`: bit 7 is discarded, `b` enters at bit 0 (R126). -/
def shiftIn (sr : Byte) (b : Bool) : Byte := sr.extractLsb' 0 7 ++ BitVec.ofBool b

/-- How many bytes REQ_FROM reads: `min(COUNT, RX_CAP)` (R146). -/
def readCount (count : BitVec 8) (rxCap : Nat) : Nat := min count.toNat rxCap

end Sys2Proof.Machine
end

