-- ==== Sys2Proof/Machine/Ops.lean ====
section
/-! DEFINITION. Sys2Proof/Machine/Ops.lean: the shared operations: the environment's answers, the two byte buffers, the
primitive actions (00_scope.md section 5; 40_bus_conditions.md R90, R91), the clock-stretch detector (R92), STOP (R93),
the timeout abort (60_exceptions.md R199), accepting and answering a command (10_state.md R31) and reset (R34). -/

namespace Sys2Proof.Machine

/-! ## The environment's answers -/

/-- The answer to the next call. -/
def Answers.head (a : Answers) : Bool :=
  match a.pending with
  | [] => a.rest
  | b :: _ => b

/-- The answers to the calls after the next one. -/
def Answers.tail (a : Answers) : Answers := { a with pending := a.pending.tail }

/-- The answers after the first `n` calls. -/
def Answers.drop (a : Answers) (n : Nat) : Answers := { a with pending := a.pending.drop n }

/-- The answers to the first `n` calls. -/
def Answers.take (a : Answers) : Nat → List Bool
  | 0 => []
  | n + 1 => a.head :: a.tail.take n

/-- The answers of a guard. -/
def Env.guard (e : Env) : Guard → Answers
  | .gp => e.gp
  | .go => e.go

/-- The environment after one more query of a guard. -/
def Env.afterQuery (e : Env) : Guard → Env
  | .gp => { e with gp := e.gp.tail }
  | .go => { e with go := e.go.tail }

/-! ## The byte buffers (20_memory.md R40, R44 to R46) -/

/-- What element `i` holds, none where nothing has written it since reset. -/
def Memory.lookup : Memory → Nat → Option Byte
  | [], _ => none
  | (j, b) :: m, i => if i = j then some b else Memory.lookup m i

/-- Element `i` becomes `b`; every other element is as before. -/
def Memory.write : Memory → Nat → Byte → Memory
  | [], i, b => [(i, b)]
  | (j, c) :: m, i, b =>
    if i < j then (i, b) :: (j, c) :: m
    else if i = j then (i, b) :: m
    else (j, c) :: Memory.write m i b

/-- Every index of the list is above `i`. -/
def Memory.above (i : Nat) : Memory → Bool
  | [] => true
  | (j, _) :: m => i < j && Memory.above i m

/-- The canonical form: strictly rising indices. No index is listed twice, so equal buffers are equal lists. (An index
that is not listed has no value, so no entry equals what an unlisted index reads as.) -/
def Memory.wf : Memory → Bool
  | [] => true
  | (i, _) :: m => Memory.above i m && Memory.wf m

/-- `TXBUF[i]`: the byte last written there, or a free value (R25, U1). -/
def State.txByte (s : State) (i : Nat) : Byte := (Memory.lookup s.txbuf i).getD (Config.unwrittenTx i)

/-- `RXBUF[i]`: the byte last written there, or a free value (R26, U1). -/
def State.rxByte (s : State) (i : Nat) : Byte := (Memory.lookup s.rxbuf i).getD (Config.unwrittenRx i)

/-- `MemWrite(TX, TXLEN, 1, b); TXLEN <- TXLEN + 1` (R142). -/
def enqueueTx (b : Byte) (s : State) : State :=
  { s with txbuf := Memory.write s.txbuf s.txlen.toNat b, txlen := s.txlen + 1 }

/-- `MemWrite(RX, RXLEN, 1, b); RXLEN <- RXLEN + 1` (R146). -/
def enqueueRx (b : Byte) (s : State) : State :=
  { s with rxbuf := Memory.write s.rxbuf s.rxlen.toNat b, rxlen := s.rxlen + 1 }

/-! ## The primitive actions (R90, R91, R205) -/

/-- One more token at the end of the action trace (R47, assumption 9). -/
def emit (t : Token) (s : State) : State := { s with trace := s.trace ++ [t] }

/-- `sda_low()`. -/
def sdaLow (s : State) : State := emit .sdaLow { s with sdaOut := .low }

/-- `sda_release()`. -/
def sdaRelease (s : State) : State := emit .sdaRelease { s with sdaOut := .rel }

/-- `scl_low()`. -/
def sclLow (s : State) : State := emit .sclLow { s with sclOut := .low }

/-- `scl_release()`. -/
def sclRelease (s : State) : State := emit .sclRelease { s with sclOut := .rel }

/-- `sda_release()` for a 1, `sda_low()` for a 0: how the master puts a bit on the open-drain data line (R61). -/
def sdaBit (b : Bool) (s : State) : State := if b then sdaRelease s else sdaLow s

/-- `delay()`: DELAY is presented and one delay requested; the next action waits until it is reported done (R91, R33).
A delay that is never reported done leaves the machine stuck (U9). -/
def bitDelay (s : State) : Except Fault State :=
  if s.env.delayDone.head then
    .ok (emit (.delay s.delay) { s with env := { s.env with delayDone := s.env.delayDone.tail } })
  else .error .delayNeverDone

/-- `read_sda()`: the level on `sda_in` now, 1 = high (R90). -/
def readSda (s : State) : Bool × State :=
  (s.env.sda.head, emit (.readSda s.env.sda.head) { s with env := { s.env with sda := s.env.sda.tail } })

/-- `read_scl()`: the level on `scl_in` now, 1 = high (R90). -/
def readScl (s : State) : Bool × State :=
  (s.env.scl.head, emit (.readScl s.env.scl.head) { s with env := { s.env with scl := s.env.scl.tail } })

/-- `tg_start(g)`: the guard is started with the current TIMEOUT (R205, R206). -/
def tgStart (g : Guard) (s : State) : State := emit (.tgStart g s.timeout) s

/-- `tg_expired(g)` (R203). -/
def tgExpired (g : Guard) (s : State) : Bool × State :=
  ((s.env.guard g).head, emit (.tgQuery g (s.env.guard g).head) { s with env := s.env.afterQuery g })

/-! ## STOP without the wait, the timeout abort, the clock-stretch detector, STOP -/

/-- The first five actions of a stop, up to the release of the clock (R93). -/
def stopOpen (s : State) : Except Fault State := do
  let s ← bitDelay (sclLow s)
  let s ← bitDelay (sdaLow s)
  .ok (sclRelease s)

/-- The last three actions of a stop (R93). -/
def stopClose (s : State) : Except Fault State := do
  let s ← bitDelay s
  bitDelay (sdaRelease s)

/-- `op_stop(0)`: no guard, no wait (R93). -/
def opStopForced (s : State) : Except Fault State := do
  let s ← stopOpen s
  stopClose s

/-- The timeout abort (R198, R199): the operation in progress does nothing more of its own, `op_stop(0)` is performed in
full, and nothing is saved; `SR` and `BITCNT` are left unspecified (U2, U3), so each takes a free value (assumption 13). The caller
returns TIMEDOUT and goes on by its own rule (R200): nothing is restored. -/
def abort (s : State) : Except Fault State := do
  let s ← opStopForced s
  .ok { s with sr := Config.freeByte s.draws, bitcnt := Config.freeNibble s.draws, draws := s.draws + 1 }

/-- The loop of `wait_scl_high(g)` (R92): sample, and ask the guard only after a low sample (R196). True = OK, false =
EXPIRED, after the abort. -/
def waitLoop (g : Guard) : Nat → State → Except Fault (Bool × State)
  | 0, _ => .error .clockNeverRises
  | n + 1, s =>
    let (high, s) := readScl s
    if high then .ok (true, s)
    else
      let (expired, s) := tgExpired g s
      if expired then do
        let s ← abort s
        .ok (false, s)
      else waitLoop g n s

/-- How many iterations settle a wait: after the pending answers every further iteration is like the last, so a wait
that has not ended by then never does (assumption 1). -/
def waitFuel (g : Guard) (s : State) : Nat := s.env.scl.pending.length + (s.env.guard g).pending.length + 1

/-- `wait_scl_high(g)`, the clock-stretch detector (R92). -/
def waitSclHigh (g : Guard) (s : State) : Except Fault (Bool × State) := waitLoop g (waitFuel g s) s

/-- `op_stop(stretch)` (R93). -/
def opStop (stretch : Bool) (s : State) : Except Fault (Status × State) :=
  if stretch then do
    let s ← stopOpen (tgStart .gp s)
    let (risen, s) ← waitSclHigh .gp s
    if risen then do
      let s ← stopClose s
      .ok (.ack, s)
    else .ok (.timedOut, s)
  else do
    let s ← opStopForced s
    .ok (.ack, s)

/-! ## Accepting and answering a command (R15, R31), reset (R34) -/

/-- A command is accepted from the port: BUSY is 1 until its response (assumption 10). -/
def acceptCommand (rest : List HostEvent) (s : State) : State := { s with host := rest, busy := true, resp := none }

/-- The response is presented and the command ends. -/
def respond (w : RespWord) (s : State) : State := { s with resp := some w, busy := false }

/-- A command's outcome: its next state, or the machine is stuck (R208). -/
def finish (r : Except Fault State) : Host.Outcome State Fault Refusal :=
  match r with
  | .ok s => .next s
  | .error f => .fault f

/-- The registers after `rst` (R34): the reset table, with no action in the trace (R220). What is outside the controller
goes on: the parameters, the environment, the host, the trace seen so far. -/
def resetRegisters (s : State) : State :=
  { State.powerUp s.params s.env s.host with trace := s.trace, draws := s.draws }

/-! ## The output ports (R31 to R33) -/

/-- The levels the controller holds on its output ports between actions. The pulses `tg_start_p`, `tg_start_o` and
`delay_req` are the tokens of the trace. -/
structure Ports where
  cmdReady : Bool
  respValid : Bool
  resp : Option RespWord
  sdaDriveLow : Bool
  sclDriveLow : Bool
  pullupEn : Bool
  tgDuration : Duration
  delayDuration : Duration
deriving DecidableEq, Repr

/-- The port levels of a state. -/
def State.ports (s : State) : Ports where
  cmdReady := !s.busy
  respValid := s.resp.isSome
  resp := s.resp
  sdaDriveLow := s.sdaOut == .low
  sclDriveLow := s.sclOut == .low
  pullupEn := s.pullups
  tgDuration := s.timeout
  delayDuration := s.delay

end Sys2Proof.Machine
end

