-- ==== Sys2Proof/Machine/Configure.lean ====
section
/-! DEFINITION. Sys2Proof/Machine/Configure.lean: configuration and initialisation (43_config.md): CFG_PULLUPS, CFG_DELAY,
CFG_TIMEOUT, INIT. -/

namespace Sys2Proof.Machine

/-- CFG_PULLUPS (R170). -/
def execCfgPullups (en : Bool) (s : State) : Host.Outcome State Fault Refusal :=
  .next (respond respDone { s with pullups := en })

/-- CFG_DELAY (R171). -/
def execCfgDelay (dur : Duration) (s : State) : Host.Outcome State Fault Refusal :=
  .next (respond respDone { s with delay := dur })

/-- CFG_TIMEOUT (R172). -/
def execCfgTimeout (dur : Duration) (s : State) : Host.Outcome State Fault Refusal :=
  .next (respond respDone { s with timeout := dur })

/-- INIT (R173): the clock is released first, then the data line. -/
def execInit (s : State) : Host.Outcome State Fault Refusal :=
  let s := sdaRelease (sclRelease s)
  .next (respond respDone { s with phase := .idle, stopDeferred := false, txlen := 0, rxlen := 0, rxpos := 0 })

end Sys2Proof.Machine
end

