-- ==== Sys2Proof/Machine/ByteTransfer.lean ====
section
/-! DEFINITION. Sys2Proof/Machine/ByteTransfer.lean: the byte shift register with acknowledge (41_byte_transfer.md):
`op_write`, `op_read`, and the commands WRITE and READ. -/

namespace Sys2Proof.Machine

/-- The data pulses of a byte write that are still to come, `BITCNT` = `n` of them (R120): the guard is asked once after
each, whatever the clock does. True = all sent, `BITCNT` = 0 (R12, assumption 8); false = the guard expired, after the
abort. -/
def writeBits : Nat → State → Except Fault (Bool × State)
  | 0, s => .ok (true, { s with bitcnt := 0 })
  | n + 1, s => do
    let s := sclLow { s with bitcnt := BitVec.ofNat 4 (n + 1) }
    let s ← bitDelay (sdaBit (s.sr.getLsbD n) s)
    let s ← bitDelay (sclRelease s)
    let (expired, s) := tgExpired .gp s
    if expired then do
      let s ← abort s
      .ok (false, s)
    else writeBits n s

/-- The acknowledge pulse of a byte write (R120): SDA is sampled once, after the clock has been seen high. -/
def writeAck (s : State) : Except Fault (Status × State) := do
  let s ← bitDelay (sdaRelease (sclLow s))
  let (risen, s) ← waitSclHigh .gp (sclRelease s)
  if risen then
    let (level, s) := readSda s
    .ok (if level then .nack else .ack, sclLow s)
  else .ok (.timedOut, s)

/-- `op_write(data)` (R120). -/
def opWrite (data : Byte) (s : State) : Except Fault (Status × State) := do
  let s := tgStart .gp s
  let (sent, s) ← writeBits 8 { s with sr := data }
  if sent then writeAck s else .ok (.timedOut, s)

/-- The data pulses of a byte read that are still to come, `BITCNT` = `n` of them (R123). True = all received,
`BITCNT` = 0 (R12, assumption 8); false = a clock wait expired, after the abort. -/
def readBits : Nat → State → Except Fault (Bool × State)
  | 0, s => .ok (true, { s with bitcnt := 0 })
  | n + 1, s => do
    let s ← bitDelay (sdaRelease (sclLow { s with bitcnt := BitVec.ofNat 4 (n + 1) }))
    let s ← bitDelay (sclRelease s)
    let (risen, s) ← waitSclHigh .gp s
    if risen then
      let (level, s) := readSda s
      readBits n { s with sr := shiftIn s.sr level }
    else .ok (false, s)

/-- The acknowledge pulse of a byte read (R123): the master drives it, nothing is sampled. -/
def readAck (sendAck : Bool) (s : State) : Except Fault (Status × State) := do
  let s ← bitDelay (sdaBit (!sendAck) (sclLow s))
  let (risen, s) ← waitSclHigh .gp (sclRelease s)
  if risen then .ok (.ack, sclLow s) else .ok (.timedOut, s)

/-- `op_read(sendAck)` (R123). The byte it returns is `SR`: on TIMEDOUT that is the free value of the abort (U3). -/
def opRead (sendAck : Bool) (s : State) : Except Fault (Status × Byte × State) := do
  let s := tgStart .gp s
  let (received, s) ← readBits 8 { s with sr := 0 }
  if received then do
    let (r, s) ← readAck sendAck s
    .ok (r, s.sr, s)
  else .ok (.timedOut, s.sr, s)

/-- WRITE (R121). -/
def execWrite (data : Byte) (s : State) : Host.Outcome State Fault Refusal :=
  finish do
    let (r, s) ← opWrite data s
    .ok (respond (respStatus r) s)

/-- READ (R124): on TIMEDOUT the byte is not exposed. -/
def execRead (sendAck : Bool) (s : State) : Host.Outcome State Fault Refusal :=
  finish do
    let (r, b, s) ← opRead sendAck s
    .ok (respond (if r = .ack then respData b else respStatus .timedOut) s)

end Sys2Proof.Machine
end

