-- ==== Sys2Proof/Machine/BusConditions.lean ====
section
/-! DEFINITION. Sys2Proof/Machine/BusConditions.lean: the bus condition generator (40_bus_conditions.md): `op_start`,
`op_rstart`, `op_startwait`, and the commands STOP, START_RAW, RSTART_RAW, STARTW_RAW, START, RSTART, STARTW. -/

namespace Sys2Proof.Machine

/-- `op_start(raw)` (R95). -/
def opStart (raw : Byte) (s : State) : Except Fault (Status × State) := do
  let s ← bitDelay (sdaLow s)
  let s ← bitDelay (sclLow s)
  opWrite raw s

/-- `op_rstart(raw)` (R97). -/
def opRstart (raw : Byte) (s : State) : Except Fault (Status × State) := do
  let s ← bitDelay (sdaRelease s)
  let s ← bitDelay (sclRelease s)
  let s ← bitDelay (sdaLow s)
  opWrite raw s

/-- The loop of `op_startwait(raw)` (R99): the result of either STOP is discarded. -/
def startWaitLoop (raw : Byte) : Nat → State → Except Fault (Status × State)
  | 0, _ => .error .retryNeverEnds
  | n + 1, s =>
    let (expired, s) := tgExpired .go s
    if expired then .ok (.timedOut, s)
    else do
      let (r, s) ← opStart raw s
      match r with
      | .ack => .ok (.ack, s)
      | .nack => do
        let (_, s) ← opStop true s
        startWaitLoop raw n s
      | .timedOut => do
        let (_, s) ← opStop true s
        .ok (.timedOut, s)

/-- How many attempts settle a START-with-wait: every attempt takes a pending answer from each list that still has one,
and after the last pending answer every further attempt is like the one before (assumption 1). -/
def retryFuel (e : Env) : Nat :=
  e.scl.pending.length + e.sda.pending.length + e.gp.pending.length + e.go.pending.length +
    e.delayDone.pending.length + 1

/-- `op_startwait(raw)` (R99). -/
def opStartWait (raw : Byte) (s : State) : Except Fault (Status × State) :=
  startWaitLoop raw (retryFuel s.env) (tgStart .go s)

/-- STOP (R94). -/
def execStop (stretch : Bool) (s : State) : Host.Outcome State Fault Refusal :=
  finish do
    let (r, s) ← opStop stretch s
    .ok (respond (respStatus r) s)

/-- START_RAW (R96). -/
def execStartRaw (raw : Byte) (s : State) : Host.Outcome State Fault Refusal :=
  finish do
    let (r, s) ← opStart raw s
    .ok (respond (respStatus r) s)

/-- RSTART_RAW (R98). -/
def execRstartRaw (raw : Byte) (s : State) : Host.Outcome State Fault Refusal :=
  finish do
    let (r, s) ← opRstart raw s
    .ok (respond (respStatus r) s)

/-- STARTW_RAW (R100). -/
def execStartwRaw (raw : Byte) (s : State) : Host.Outcome State Fault Refusal :=
  finish do
    let (r, s) ← opStartWait raw s
    .ok (respond (respStatus r) s)

/-- START (R101). -/
def execStart (addr : Addr) (mode : Mode) (s : State) : Host.Outcome State Fault Refusal :=
  finish do
    let (r, s) ← opStart (rawByte addr mode) s
    .ok (respond (respStatus r) s)

/-- RSTART (R102). -/
def execRstart (addr : Addr) (mode : Mode) (s : State) : Host.Outcome State Fault Refusal :=
  finish do
    let (r, s) ← opRstart (rawByte addr mode) s
    .ok (respond (respStatus r) s)

/-- STARTW (R103). -/
def execStartw (addr : Addr) (mode : Mode) (s : State) : Host.Outcome State Fault Refusal :=
  finish do
    let (r, s) ← opStartWait (rawByte addr mode) s
    .ok (respond (respStatus r) s)

end Sys2Proof.Machine
end

