-- ==== Sys2Proof/Machine/Transaction.lean ====
section
/-! DEFINITION. Sys2Proof/Machine/Transaction.lean: the transaction sequencer (42_transaction.md): BEGIN_TX, TX_PUT,
END_TX, REQ_FROM, RX_GET, RX_PEEK, RX_AVAIL. -/

namespace Sys2Proof.Machine

/-- BEGIN_TX (R141). -/
def execBeginTx (addr : Addr) (s : State) : Host.Outcome State Fault Refusal :=
  .next (respond respDone { s with taddr := addr, dir := .write, txlen := 0, phase := .transmitting })

/-- TX_PUT (R142): refused, with nothing written, when the buffer is full. -/
def execTxPut (data : Byte) (s : State) : Host.Outcome State Fault Refusal :=
  if s.txlen.toNat < s.params.txCap then .next (respond (respFlag true 0) (enqueueTx data s))
  else .next (respond (respFlag false 0) s)

/-- `op_tstart(raw)`, the address phase of a transaction (R143). -/
def opTstart (raw : Byte) (s : State) : Except Fault (Status × State) :=
  if s.stopDeferred then opRstart raw s else opStart raw s

/-- The data bytes of END_TX still to be sent: `n` of them, from index `k` on (R144). -/
def sendBytes : (n k : Nat) → State → Except Fault (TxStatus × State)
  | 0, _, s => .ok (.ok, s)
  | n + 1, k, s => do
    let s := { s with txpos := BitVec.ofNat 8 k }
    let (r, s) ← opWrite (s.txByte k) s
    if r = .ack then sendBytes n (k + 1) s else .ok (TxStatus.ofData r, s)

/-- The end of END_TX and of REQ_FROM: `op_stop(1)`, its result discarded, or the STOP deferred; PHASE is IDLE (R144,
R146). -/
def endTransaction (sendStop : Bool) (s : State) : Except Fault State := do
  let s ← (if sendStop then do
      let (_, s) ← opStop true s
      .ok s
    else .ok s)
  .ok { s with stopDeferred := !sendStop, phase := .idle }

/-- The address phase and the data bytes of END_TX (R144). -/
def transmit (s : State) : Except Fault (TxStatus × State) := do
  let (r, s) ← opTstart (rawByte s.taddr .write) s
  if r = .ack then sendBytes s.txlen.toNat 0 s else .ok (TxStatus.ofAddress r, s)

/-- `TXPOS` after END_TX, which the spec does not state ("not meaningful between commands", R25): a free value
(assumption 5). -/
def releaseTxpos (s : State) : State := { s with txpos := Config.freeByte s.draws, draws := s.draws + 1 }

/-- END_TX (R144). -/
def execEndTx (sendStop : Bool) (s : State) : Host.Outcome State Fault Refusal :=
  finish do
    let (code, s) ← transmit s
    let s ← endTransaction sendStop s
    .ok (respond (respTx code) (releaseTxpos s))

/-- The bytes of REQ_FROM still to be read: `n` of them; every byte but the last is acknowledged. A byte that times out
is not stored and ends the loop (R146). -/
def receiveBytes : Nat → State → Except Fault State
  | 0, s => .ok s
  | n + 1, s => do
    let (r, b, s) ← opRead (decide (n ≠ 0)) s
    if r = .ack then receiveBytes n (enqueueRx b s) else .ok s

/-- The address phase and the bytes of REQ_FROM (R146). -/
def receive (addr : Addr) (count : BitVec 8) (s : State) : Except Fault State := do
  let n := readCount count s.params.rxCap
  let (r, s) ← opTstart (rawByte addr .read) s
  if r = .ack then receiveBytes n s else .ok s

/-- REQ_FROM (R146). -/
def execReqFrom (addr : Addr) (count : BitVec 8) (sendStop : Bool) (s : State) :
    Host.Outcome State Fault Refusal :=
  finish do
    let s ← receive addr count
      { s with taddr := addr, dir := .read, phase := .receiving, rxlen := 0, rxpos := 0 }
    let s ← endTransaction sendStop s
    .ok (respond (respData s.rxlen) s)

/-- RX_GET (R147). -/
def execRxGet (s : State) : Host.Outcome State Fault Refusal :=
  if s.rxpos.toNat < s.rxlen.toNat then
    .next (respond (respFlag true (s.rxByte s.rxpos.toNat)) { s with rxpos := s.rxpos + 1 })
  else .next (respond (respFlag false 0) s)

/-- RX_PEEK (R148). -/
def execRxPeek (s : State) : Host.Outcome State Fault Refusal :=
  if s.rxpos.toNat < s.rxlen.toNat then .next (respond (respFlag true (s.rxByte s.rxpos.toNat)) s)
  else .next (respond (respFlag false 0) s)

/-- RX_AVAIL (R149). -/
def execRxAvail (s : State) : Host.Outcome State Fault Refusal :=
  .next (respond (respData (s.rxlen - s.rxpos)) s)

end Sys2Proof.Machine
end

