-- ==== Sys2Proof/Machine/Dispatch.lean ====
section
/-! DEFINITION. Sys2Proof/Machine/Dispatch.lean: one arm per command. -/

namespace Sys2Proof.Machine

def exec (i : Instr) (s : State) : Host.Outcome State Fault Refusal :=
  match i with
  -- 40_bus_conditions.md and 41_byte_transfer.md: the nine bus primitives
  | .stop stretch => Sys2Proof.Machine.execStop stretch s
  | .startRaw raw => Sys2Proof.Machine.execStartRaw raw s
  | .rstartRaw raw => Sys2Proof.Machine.execRstartRaw raw s
  | .startwRaw raw => Sys2Proof.Machine.execStartwRaw raw s
  | .start addr mode => Sys2Proof.Machine.execStart addr mode s
  | .rstart addr mode => Sys2Proof.Machine.execRstart addr mode s
  | .startw addr mode => Sys2Proof.Machine.execStartw addr mode s
  | .write data => Sys2Proof.Machine.execWrite data s
  | .read sendAck => Sys2Proof.Machine.execRead sendAck s
  -- 42_transaction.md: the transaction sequencer
  | .beginTx addr => Sys2Proof.Machine.execBeginTx addr s
  | .txPut data => Sys2Proof.Machine.execTxPut data s
  | .endTx sendStop => Sys2Proof.Machine.execEndTx sendStop s
  | .reqFrom addr count sendStop => Sys2Proof.Machine.execReqFrom addr count sendStop s
  | .rxGet => Sys2Proof.Machine.execRxGet s
  | .rxPeek => Sys2Proof.Machine.execRxPeek s
  | .rxAvail => Sys2Proof.Machine.execRxAvail s
  -- 43_config.md: configuration and initialisation
  | .cfgPullups en => Sys2Proof.Machine.execCfgPullups en s
  | .cfgDelay dur => Sys2Proof.Machine.execCfgDelay dur s
  | .cfgTimeout dur => Sys2Proof.Machine.execCfgTimeout dur s
  | .init => Sys2Proof.Machine.execInit s

end Sys2Proof.Machine
end

