-- ==== Sys2Proof/Machine/CommandPort.lean ====
section
/-! DEFINITION. Sys2Proof/Machine/CommandPort.lean: what happens at the host's command port (10_state.md R31;
30_encoding.md R67; 70_reset_and_hazards.md R220, R221, R232). -/

namespace Sys2Proof.Machine

/-- An accepted command word is executed to its response; an illegal word is answered `0x8000` and does nothing else
(R67, R194, assumption 14). -/
def runCommand (w : CmdWord) (s : State) : Host.Outcome State Fault Refusal :=
  match decode w with
  | .ok i => exec i s
  | .error _ => .next (respond respIllegal s)

/-! ## Reset during a command (R221) -/

/-- The first `n` answers as they are, then "high", "expired" or "done" for ever. -/
def Answers.cut (n : Nat) (a : Answers) : Answers := { pending := a.take n, rest := true }

/-- An environment that agrees with `e` for the first `n` primitive actions and in which every command ends. Delays are
all done in it: `performed` looks at them again. -/
def Env.cut (n : Nat) (e : Env) : Env where
  scl := e.scl.cut n
  sda := e.sda.cut n
  gp := e.gp.cut n
  go := e.go.cut n
  delayDone := ⟨[], true⟩

/-- The environment after it has answered one action. -/
def Env.consume (e : Env) : Token → Env
  | .readSda _ => { e with sda := e.sda.tail }
  | .readScl _ => { e with scl := e.scl.tail }
  | .delay _ => { e with delayDone := e.delayDone.tail }
  | .tgQuery g _ => e.afterQuery g
  | .sdaLow => e
  | .sdaRelease => e
  | .sclLow => e
  | .sclRelease => e
  | .tgStart _ _ => e

/-- The actions of a list up to and including the first delay that is never reported done. -/
def upToStall (done : Answers) : List Token → List Token
  | [] => []
  | .delay d :: ts => if done.head then .delay d :: upToStall done.tail ts else [.delay d]
  | .sdaLow :: ts => .sdaLow :: upToStall done ts
  | .sdaRelease :: ts => .sdaRelease :: upToStall done ts
  | .sclLow :: ts => .sclLow :: upToStall done ts
  | .sclRelease :: ts => .sclRelease :: upToStall done ts
  | .readSda b :: ts => .readSda b :: upToStall done ts
  | .readScl b :: ts => .readScl b :: upToStall done ts
  | .tgStart g d :: ts => .tgStart g d :: upToStall done ts
  | .tgQuery g b :: ts => .tgQuery g b :: upToStall done ts

/-- The first `n` actions the accepted word `w` performs from `s`, fewer if it performs fewer: none for an illegal word,
and none after a delay that never ends. -/
def performed (w : CmdWord) (n : Nat) (s : State) : List Token :=
  match runCommand w { s with env := s.env.cut n } with
  | .next t => upToStall s.env.delayDone ((t.trace.drop s.trace.length).take n)
  | .fault _ => []
  | .refused _ => []

/-- `rst` is asserted after the first `n` actions of the accepted word `w`: the command is abandoned there, no STOP is
forced, no response is delivered, and the registers become the reset state (R221, assumption 11). -/
def abandonCommand (w : CmdWord) (n : Nat) (s : State) : State :=
  resetRegisters { s with
    trace := s.trace ++ performed w n s
    env := (performed w n s).foldl Env.consume s.env }

/-! ## One event at the port -/

/-- A command word presented at the port: accepted and executed when the controller is not busy, else it waits
(R31, R232). -/
def presentCommand (w : CmdWord) (rest : List HostEvent) (s : State) : Host.Outcome State Fault Refusal :=
  if s.busy then .next s else runCommand w (acceptCommand rest s)

/-- `rst` between two commands (R34, R220). -/
def presentReset (rest : List HostEvent) (s : State) : State := resetRegisters { s with host := rest }

/-- A command word, and `rst` after its first `n` actions (R221). A busy controller does not accept the word: it is only
reset. -/
def presentResetDuring (w : CmdWord) (n : Nat) (rest : List HostEvent) (s : State) : State :=
  if s.busy then presentReset rest s else abandonCommand w n (acceptCommand rest s)

/-- The word a table row's bits stand for, at the front of what the host does next, with the controller ready. -/
def placeCommand (nbits w : Nat) (s : State) : State :=
  { s with busy := false, host := .command (BitVec.ofNat 32 (w % 2 ^ nbits)) :: s.host }

end Sys2Proof.Machine
end

