-- ==== Sys2Proof/Machine/Step.lean ====
section
/-! DEFINITION. Sys2Proof/Machine/Step.lean: one step of the machine: one event at the host's command port. There is no
program counter and no fetch (10_state.md R15): the host's commands are the program. -/

namespace Sys2Proof.Machine

/-- One step. With nothing presented the controller waits (R34). -/
def step (s : State) : Host.Outcome State Fault Refusal :=
  match s.host with
  | [] => .next s
  | .command w :: rest => presentCommand w rest s
  | .reset :: rest => .next (presentReset rest s)
  | .resetDuring w n :: rest => .next (presentResetDuring w n rest s)

/-- The state in which the host presents the command word `w` next (assumption 7). -/
def State.withFetchWord (s : State) (nbits w : Nat) : State := placeCommand nbits w s

end Sys2Proof.Machine
end

