-- ==== Sys2Proof/Machine/Pec.lean ====
section
/-! DEFINITION. Sys2Proof/Machine/Pec.lean: the PEC utility (44_pec_utility.md): a pure function that no command of the
controller calls (R182). -/

namespace Sys2Proof.Machine

/-- One of the eight iterations: shift left, and exclusive-or with `0x107` when the bit shifted out is 1 (R180). On 8
bits the constant is `0x07`. -/
def crc8Step (a : Byte) : Byte := if a.getLsbD 7 then (a <<< 1) ^^^ 0x07#8 else a <<< 1

/-- `n` iterations. -/
def crc8Steps : Nat → Byte → Byte
  | 0, a => a
  | n + 1, a => crc8Steps n (crc8Step a)

/-- `crc8_update(acc, data)` (R180). -/
def crc8Update (acc data : Byte) : Byte := crc8Steps 8 (acc ^^^ data)

/-- The CRC of a byte sequence (R181). -/
def crc8 (init : Byte) (bytes : List Byte) : Byte := bytes.foldl crc8Update init

end Sys2Proof.Machine
end

