-- ==== Sys2Proof/Safety.lean ====
section
/-! DEFINITION. Sys2Proof/Safety.lean: what counts as a good state and a good run, in the terms the statements use: the
invariant between commands (10_state.md R27), frames, the premises about the environment (60_exceptions.md R207 to
R209), the expected action sequences written from the spec's traces, and what a trace looks like on the two wires
(30_encoding.md R62; 40_bus_conditions.md R105). -/

namespace Sys2Proof

/-! ## What the rules say of the commands by name -/

/-- The nine bus-primitive commands (R104). -/
def Instr.isBusPrimitive : Instr → Bool
  | .stop _ => true
  | .startRaw _ => true
  | .rstartRaw _ => true
  | .startwRaw _ => true
  | .start _ _ => true
  | .rstart _ _ => true
  | .startw _ _ => true
  | .write _ => true
  | .read _ => true
  | .beginTx _ => false
  | .txPut _ => false
  | .endTx _ => false
  | .reqFrom _ _ _ => false
  | .rxGet => false
  | .rxPeek => false
  | .rxAvail => false
  | .cfgPullups _ => false
  | .cfgDelay _ => false
  | .cfgTimeout _ => false
  | .init => false

/-- The commands that wait for the clock: all bus primitives but `STOP 0`, and the two transactions (R92; R192 sites 2
to 5). -/
def Instr.waitsForClock : Instr → Bool
  | .stop stretch => stretch
  | .startRaw _ => true
  | .rstartRaw _ => true
  | .startwRaw _ => true
  | .start _ _ => true
  | .rstart _ _ => true
  | .startw _ _ => true
  | .write _ => true
  | .read _ => true
  | .beginTx _ => false
  | .txPut _ => false
  | .endTx _ => true
  | .reqFrom _ _ _ => true
  | .rxGet => false
  | .rxPeek => false
  | .rxAvail => false
  | .cfgPullups _ => false
  | .cfgDelay _ => false
  | .cfgTimeout _ => false
  | .init => false

/-- The two commands that ask guard GO before anything else (R99, R192 site 6). -/
def Instr.asksOuterGuard : Instr → Bool
  | .startwRaw _ => true
  | .startw _ _ => true
  | .stop _ => false
  | .startRaw _ => false
  | .rstartRaw _ => false
  | .start _ _ => false
  | .rstart _ _ => false
  | .write _ => false
  | .read _ => false
  | .beginTx _ => false
  | .txPut _ => false
  | .endTx _ => false
  | .reqFrom _ _ _ => false
  | .rxGet => false
  | .rxPeek => false
  | .rxAvail => false
  | .cfgPullups _ => false
  | .cfgDelay _ => false
  | .cfgTimeout _ => false
  | .init => false

/-- How a command reports that its first byte, or its STOP, timed out (R192): `TX_OTHER` for END_TX, a count of 0 for
REQ_FROM, TIMEDOUT for the bus primitives. The other commands wait for nothing. -/
def Instr.timeoutReport : Instr → RespWord
  | .endTx _ => 0x0400
  | .reqFrom _ _ _ => 0x0000
  | .stop _ => 0x0200
  | .startRaw _ => 0x0200
  | .rstartRaw _ => 0x0200
  | .startwRaw _ => 0x0200
  | .start _ _ => 0x0200
  | .rstart _ _ => 0x0200
  | .startw _ _ => 0x0200
  | .write _ => 0x0200
  | .read _ => 0x0200
  | .beginTx _ => 0x0000
  | .txPut _ => 0x0000
  | .rxGet => 0x0000
  | .rxPeek => 0x0000
  | .rxAvail => 0x0000
  | .cfgPullups _ => 0x0000
  | .cfgDelay _ => 0x0000
  | .cfgTimeout _ => 0x0000
  | .init => 0x0000

/-- The responses a command can give (R64, and the summary table of 60_exceptions.md section 1). -/
def Instr.mayAnswer (p : Params) : Instr → RespWord → Prop
  | .stop stretch, w => w = 0x0000 ∨ stretch = true ∧ w = 0x0200
  | .startRaw _, w => w = 0x0000 ∨ w = 0x0100 ∨ w = 0x0200
  | .rstartRaw _, w => w = 0x0000 ∨ w = 0x0100 ∨ w = 0x0200
  | .startwRaw _, w => w = 0x0000 ∨ w = 0x0200
  | .start _ _, w => w = 0x0000 ∨ w = 0x0100 ∨ w = 0x0200
  | .rstart _ _, w => w = 0x0000 ∨ w = 0x0100 ∨ w = 0x0200
  | .startw _ _, w => w = 0x0000 ∨ w = 0x0200
  | .write _, w => w = 0x0000 ∨ w = 0x0100 ∨ w = 0x0200
  | .read _, w => w.toNat < 256 ∨ w = 0x0200
  | .beginTx _, w => w = 0x0000
  | .txPut _, w => w = 0x0000 ∨ w = 0x0800
  | .endTx _, w => w = 0x0000 ∨ w = 0x0200 ∨ w = 0x0300 ∨ w = 0x0400
  | .reqFrom _ count _, w => w.toNat ≤ min count.toNat p.rxCap
  | .rxGet, w => w = 0x0000 ∨ 0x0800 ≤ w.toNat ∧ w.toNat < 0x0900
  | .rxPeek, w => w = 0x0000 ∨ 0x0800 ≤ w.toNat ∧ w.toNat < 0x0900
  | .rxAvail, w => w.toNat < 256
  | .cfgPullups _, w => w = 0x0000
  | .cfgDelay _, w => w = 0x0000
  | .cfgTimeout _, w => w = 0x0000
  | .init, w => w = 0x0000

end Sys2Proof

namespace Sys2Proof.Machine

/-! ## The invariant between commands -/

/-- Every index of a buffer lies inside its capacity (R27). -/
def Memory.within (cap : Nat) (m : Memory) : Prop := ∀ c ∈ m, c.1 < cap

/-- Every element below the write cursor has been written (R25, R26: "No rule can read an unspecified element"). -/
def Memory.filled (len : Nat) (m : Memory) : Prop := ∀ i, i < len → (Memory.lookup m i).isSome = true

/-- The invariant between commands: the cursor invariant of R27, the canonical form of both buffers, no command in
flight (R15), and PHASE never RECEIVING (R16). -/
structure State.Inv (s : State) : Prop where
  params : s.params.Valid
  txCursor : s.txlen.toNat ≤ s.params.txCap
  rxCursor : s.rxlen.toNat ≤ s.params.rxCap
  rxRead : s.rxpos.toNat ≤ s.rxlen.toNat
  txWf : Memory.wf s.txbuf = true
  rxWf : Memory.wf s.rxbuf = true
  txWithin : Memory.within s.params.txCap s.txbuf
  rxWithin : Memory.within s.params.rxCap s.rxbuf
  txFilled : Memory.filled s.txlen.toNat s.txbuf
  rxFilled : Memory.filled s.rxlen.toNat s.rxbuf
  ready : s.busy = false
  phase : s.phase ≠ .receiving

/-! ## Frames -/

/-- The registers no bus primitive writes (R104), with the configuration, the parameters and the host's side. -/
structure SameOffBus (s t : State) : Prop where
  taddr : t.taddr = s.taddr
  dir : t.dir = s.dir
  phase : t.phase = s.phase
  stopDeferred : t.stopDeferred = s.stopDeferred
  pullups : t.pullups = s.pullups
  delay : t.delay = s.delay
  timeout : t.timeout = s.timeout
  txbuf : t.txbuf = s.txbuf
  txlen : t.txlen = s.txlen
  txpos : t.txpos = s.txpos
  rxbuf : t.rxbuf = s.rxbuf
  rxlen : t.rxlen = s.rxlen
  rxpos : t.rxpos = s.rxpos
  params : t.params = s.params
  host : t.host = s.host

/-- The configuration, the parameters and the host's side: what no transaction command writes. -/
structure SameConfiguration (s t : State) : Prop where
  pullups : t.pullups = s.pullups
  delay : t.delay = s.delay
  timeout : t.timeout = s.timeout
  params : t.params = s.params
  host : t.host = s.host

/-- What a run says when `f` is applied to the state it ends in. -/
def mapNext (f : State → State) : Host.Outcome State Fault Refusal → Host.Outcome State Fault Refusal
  | .next s => .next (f s)
  | .fault r => .fault r
  | .refused r => .refused r

/-! ## Premises about the environment (R207 to R209): used as hypotheses, never built into a step (D23) -/

/-- Every answer, from here on, is `b`. -/
def Answers.AllAre (a : Answers) (b : Bool) : Prop := (∀ x ∈ a.pending, x = b) ∧ a.rest = b

/-- Guard and delay liveness (R208): a guard that is asked often enough answers "expired", and every delay is done. -/
structure Env.Live (e : Env) : Prop where
  gp : e.gp.rest = true
  go : e.go.rest = true
  delays : e.delayDone.AllAre true

/-- Two environments give the same first `n` answers at the four inputs that decide what a command does next. -/
structure Env.SameAnswers (n : Nat) (e f : Env) : Prop where
  scl : e.scl.take n = f.scl.take n
  sda : e.sda.take n = f.sda.take n
  gp : e.gp.take n = f.gp.take n
  go : e.go.take n = f.go.take n

/-- No slave stretches the clock, guard GP never expires, every delay is done: the setting of the trace lengths of R234. -/
structure Env.Quiet (e : Env) : Prop where
  scl : e.scl.AllAre true
  gp : e.gp.AllAre false
  delays : e.delayDone.AllAre true

/-- The next answers are `bs`, in this order. -/
def Answers.Begins (a : Answers) (bs : List Bool) : Prop := a.take bs.length = bs

/-! ## Expected action sequences, written from the spec's listed traces -/

/-- The bits of a byte in the order they cross the wire, bit 7 first (R42). -/
def bitsMsb (b : Byte) : List Bool :=
  [b.getLsbD 7, b.getLsbD 6, b.getLsbD 5, b.getLsbD 4, b.getLsbD 3, b.getLsbD 2, b.getLsbD 1, b.getLsbD 0]

/-- `D` for a 1, `d` for a 0. -/
def dataToken (b : Bool) : Token := if b then .sdaRelease else .sdaLow

/-- `c _ d _ C _ D _`, the trace of `op_stop(0)` (R93). -/
def stopTokens (d : Duration) : List Token :=
  [.sclLow, .delay d, .sdaLow, .delay d, .sclRelease, .delay d, .sdaRelease, .delay d]

/-- `rc0 gqP0`, `k` times: low clock samples that are not the last (R92). -/
def stretchTokens : Nat → List Token
  | 0 => []
  | k + 1 => .readScl false :: .tgQuery .gp false :: stretchTokens k

/-- `gsP c _ d _ C`, then `k` low samples, then `rc1 _ D _`: `op_stop(1)` (R93). -/
def stopWaitTokens (d t : Duration) (k : Nat) : List Token :=
  [.tgStart .gp t, .sclLow, .delay d, .sdaLow, .delay d, .sclRelease] ++ stretchTokens k ++
    [.readScl true, .delay d, .sdaRelease, .delay d]

/-- `gsP c _ d _ C`, then `k` low samples, `rc0 gqP1` and the abort: `op_stop(1)` that expires (R93, R199). -/
def stopExpiredTokens (d t : Duration) (k : Nat) : List Token :=
  [.tgStart .gp t, .sclLow, .delay d, .sdaLow, .delay d, .sclRelease] ++ stretchTokens k ++
    [.readScl false, .tgQuery .gp true] ++ stopTokens d

/-- `c D _ C _ gqP0` or `c d _ C _ gqP0`: one data pulse of a byte write (R120). -/
def writePulse (d : Duration) (expired bit : Bool) : List Token :=
  [.sclLow, dataToken bit, .delay d, .sclRelease, .delay d, .tgQuery .gp expired]

/-- `op_write` that ends with an acknowledge sample, after `k` low clock samples in the acknowledge pulse: 56 tokens when
`k` = 0 (R120); `nack` is the level sampled on SDA. -/
def writeTokens (d t : Duration) (data : Byte) (nack : Bool) (k : Nat) : List Token :=
  .tgStart .gp t :: (bitsMsb data).flatMap (writePulse d false) ++
    [.sclLow, .sdaRelease, .delay d, .sclRelease] ++ stretchTokens k ++ [.readScl true, .readSda nack, .sclLow]

/-- `op_write` whose guard answers "expired" after `i` full pulses and one more (R121, R199). -/
def writeExpiredTokens (d t : Duration) (data : Byte) (i : Nat) : List Token :=
  .tgStart .gp t :: ((bitsMsb data).take i).flatMap (writePulse d false) ++
    ((bitsMsb data).drop i).head?.toList.flatMap (writePulse d true) ++ stopTokens d

/-- `op_write` whose guard answers "expired" in the acknowledge pulse, after `k + 1` low clock samples (R121, R199). -/
def writeAckExpiredTokens (d t : Duration) (data : Byte) (k : Nat) : List Token :=
  .tgStart .gp t :: (bitsMsb data).flatMap (writePulse d false) ++
    [.sclLow, .sdaRelease, .delay d, .sclRelease] ++ stretchTokens k ++
    [.readScl false, .tgQuery .gp true] ++ stopTokens d

/-- The answers of GP that make an `op_write` time out in pulse `i` (0 to 7 the data pulses, 8 the acknowledge pulse after
`k + 1` low clock samples): R192 sites 1 and 2. `k` matters in the acknowledge pulse only. -/
def writeTimeoutGp (i k : Nat) : List Bool := List.replicate (if i < 8 then i else 8 + k) false ++ [true]

/-- The clock samples of that `op_write`: none in a data pulse (R120). -/
def writeTimeoutScl (i k : Nat) : List Bool := if i < 8 then [] else List.replicate (k + 1) false

/-- The actions of that `op_write` (R121, R199). -/
def writeTimeoutTokens (d t : Duration) (data : Byte) (i k : Nat) : List Token :=
  if i < 8 then writeExpiredTokens d t data i else writeAckExpiredTokens d t data k

/-- `c D _ C _ rc1 rd…`: one data pulse of a byte read (R123). -/
def readPulse (d : Duration) (bit : Bool) : List Token :=
  [.sclLow, .sdaRelease, .delay d, .sclRelease, .delay d, .readScl true, .readSda bit]

/-- The 63 tokens of `op_read` without stretching (R123). -/
def readTokens (d t : Duration) (data : Byte) (sendAck : Bool) : List Token :=
  .tgStart .gp t :: (bitsMsb data).flatMap (readPulse d) ++
    [.sclLow, dataToken (!sendAck), .delay d, .sclRelease, .readScl true, .sclLow]

/-- `op_read` whose clock wait in pulse `i` (0 to 7 the data pulses, 8 the acknowledge pulse) expires after `k + 1` low
samples, `data` giving the `i` bits sampled before (R124, R199). -/
def readExpiredTokens (d t : Duration) (data : Byte) (sendAck : Bool) (i k : Nat) : List Token :=
  .tgStart .gp t :: ((bitsMsb data).take i).flatMap (readPulse d) ++
    (if i < 8 then [.sclLow, .sdaRelease, .delay d, .sclRelease, .delay d]
      else [.sclLow, dataToken (!sendAck), .delay d, .sclRelease]) ++
    stretchTokens k ++ [.readScl false, .tgQuery .gp true] ++ stopTokens d

/-- `d _ c _`: the opening of `op_start` (R95). -/
def startTokens (d : Duration) : List Token := [.sdaLow, .delay d, .sclLow, .delay d]

/-- `D _ C _ d _`: the opening of `op_rstart` (R97). -/
def rstartTokens (d : Duration) : List Token :=
  [.sdaRelease, .delay d, .sclRelease, .delay d, .sdaLow, .delay d]

/-- The opening of a transaction's address phase (R143). -/
def openTokens (deferred : Bool) (d : Duration) : List Token :=
  if deferred then rstartTokens d else startTokens d

/-- The end of a transaction without stretching (R144, R146). -/
def closeTokens (sendStop : Bool) (d t : Duration) : List Token :=
  if sendStop then stopWaitTokens d t 0 else []

/-- `k` attempts of START-with-wait that are not acknowledged, each with its STOP (R99). -/
def nackAttempts (d t : Duration) (raw : Byte) : Nat → List Token
  | 0 => []
  | k + 1 =>
    .tgQuery .go false :: startTokens d ++ writeTokens d t raw true 0 ++ stopWaitTokens d t 0 ++
      nackAttempts d t raw k

/-- The reads of REQ_FROM: every byte acknowledged but the last (R146). -/
def receiveTokens (d t : Duration) : List Byte → List Token
  | [] => []
  | b :: bs => readTokens d t b (!bs.isEmpty) ++ receiveTokens d t bs

/-- The payload of END_TX: the first `n` bytes of the outgoing buffer, in the order they are sent (R43). -/
def State.payload (s : State) (n : Nat) : List Byte := (List.range n).map s.txByte

/-- A run of data bytes that are all acknowledged at once (R144). -/
def ackedTokens (d t : Duration) (bytes : List Byte) : List Token :=
  bytes.flatMap (fun b => writeTokens d t b false 0)

/-- The data samples of a list of actions, in order. -/
def sampledBits : List Token → List Bool
  | [] => []
  | .readSda b :: ts => b :: sampledBits ts
  | .sdaLow :: ts => sampledBits ts
  | .sdaRelease :: ts => sampledBits ts
  | .sclLow :: ts => sampledBits ts
  | .sclRelease :: ts => sampledBits ts
  | .readScl _ :: ts => sampledBits ts
  | .delay _ :: ts => sampledBits ts
  | .tgStart _ _ :: ts => sampledBits ts
  | .tgQuery _ _ :: ts => sampledBits ts

/-! ## What a trace looks like on the wires -/

/-- The two output latches, as the environment sees them. -/
structure Wires where
  sda : Latch
  scl : Latch
deriving DecidableEq, Repr

/-- The latches of a state. -/
def State.wires (s : State) : Wires := ⟨s.sdaOut, s.sclOut⟩

/-- The latches after one action: only the four drive primitives write them (R17, R90). -/
def Wires.after (w : Wires) : Token → Wires
  | .sdaLow => { w with sda := .low }
  | .sdaRelease => { w with sda := .rel }
  | .sclLow => { w with scl := .low }
  | .sclRelease => { w with scl := .rel }
  | .readSda _ => w
  | .readScl _ => w
  | .delay _ => w
  | .tgStart _ _ => w
  | .tgQuery _ _ => w

/-- The latches after a list of actions. -/
def Wires.run (w : Wires) (ts : List Token) : Wires := ts.foldl Wires.after w

/-- A bus condition: SDA changes while SCL is released (R62; 90_conflicts.md C2). -/
inductive Condition where
  | start
  | stop
deriving DecidableEq, Repr

/-- The condition one action makes: a START when SDA falls, a STOP when SDA rises, while SCL is released. -/
def Wires.condition (w : Wires) : Token → List Condition
  | .sdaLow => if w.sda = .rel ∧ w.scl = .rel then [.start] else []
  | .sdaRelease => if w.sda = .low ∧ w.scl = .rel then [.stop] else []
  | .sclLow => []
  | .sclRelease => []
  | .readSda _ => []
  | .readScl _ => []
  | .delay _ => []
  | .tgStart _ _ => []
  | .tgQuery _ _ => []

/-- The bus conditions a list of actions makes, in order. -/
def Wires.conditions (w : Wires) : List Token → List Condition
  | [] => []
  | t :: ts => w.condition t ++ (w.after t).conditions ts

/-- The bus conditions of a START-with-wait from an idle bus, for its actions `ts` and its response (R99): a START and a
STOP for each attempt that is not acknowledged; then the START of the acknowledged attempt, or nothing when GO expires,
or the START and the two STOPs of an attempt that times out. -/
def startWaitConditions (ts : List Token) (acked : Bool) : List Condition :=
  let attempts := ts.count (.tgQuery .go false)
  if acked then (List.replicate (attempts - 1) [.start, .stop]).flatten ++ [.start]
  else if .tgQuery .go true ∈ ts then (List.replicate attempts [.start, .stop]).flatten
  else (List.replicate (attempts - 1) [.start, .stop]).flatten ++ [.start, .stop, .stop]

/-- The data latch at each release of the clock: the bits the master puts on the wire, in order (R61). -/
def Wires.clocked (w : Wires) : List Token → List Latch
  | [] => []
  | t :: ts => (if t = .sclRelease then [w.sda] else []) ++ (w.after t).clocked ts

/-- A released latch for a 1, a driven one for a 0 (R61). -/
def latchOf (b : Bool) : Latch := if b then .rel else .low

/-- What a test double at the ports can check action by action (R211): the latches, and for each guard whether it has
been started since the command began and has not answered "expired" since. -/
structure Monitor where
  wires : Wires
  gpRuns : Bool
  goRuns : Bool
deriving DecidableEq, Repr

/-- The monitor at the acceptance of a command: no guard has been started in it. -/
def Monitor.begin (s : State) : Monitor := ⟨s.wires, false, false⟩

/-- The controller may do this now: it samples only a line it has released (R209), and asks only a guard that it has
started in this command and that has not answered "expired" since (R206, R207). -/
def Monitor.allows (m : Monitor) : Token → Bool
  | .readSda _ => m.wires.sda == .rel
  | .readScl _ => m.wires.scl == .rel
  | .tgQuery .gp _ => m.gpRuns
  | .tgQuery .go _ => m.goRuns
  | .tgStart _ _ => true
  | .delay _ => true
  | .sdaLow => true
  | .sdaRelease => true
  | .sclLow => true
  | .sclRelease => true

/-- The monitor after one action. -/
def Monitor.after (m : Monitor) (t : Token) : Monitor where
  wires := m.wires.after t
  gpRuns := match t with
    | .tgStart .gp _ => true
    | .tgQuery .gp expired => m.gpRuns && !expired
    | _ => m.gpRuns
  goRuns := match t with
    | .tgStart .go _ => true
    | .tgQuery .go expired => m.goRuns && !expired
    | _ => m.goRuns

/-- Every action of the list is allowed when it happens. -/
def Monitor.accepts (m : Monitor) : List Token → Bool
  | [] => true
  | t :: ts => m.allows t && (m.after t).accepts ts

/-- How a command that performs the actions `ts` and answers `w` has ended: the trace is longer by exactly them (R47),
the latches are the ones they leave (R17), the environment has answered exactly those that ask, and the controller is
ready with the response (R31). -/
structure Ends (s t : State) (ts : List Token) (w : RespWord) : Prop where
  trace : t.trace = s.trace ++ ts
  wires : t.wires = s.wires.run ts
  env : t.env = ts.foldl Env.consume s.env
  resp : t.resp = some w
  ready : t.busy = false

/-- What END_TX leaves of the registers, whatever happened on the bus (R144): the flag and the phase it sets; the address,
both buffers and their cursors as before (`TXPOS` is the loop's own, R25). -/
structure AfterEndTx (sendStop : Bool) (s t : State) : Prop where
  config : SameConfiguration s t
  taddr : t.taddr = s.taddr
  dir : t.dir = s.dir
  txbuf : t.txbuf = s.txbuf
  txlen : t.txlen = s.txlen
  rxbuf : t.rxbuf = s.rxbuf
  rxlen : t.rxlen = s.rxlen
  rxpos : t.rxpos = s.rxpos
  stopDeferred : t.stopDeferred = !sendStop
  phase : t.phase = .idle

/-- What REQ_FROM leaves of the registers, whatever happened on the bus (R146, R28): the outgoing buffer untouched, the
incoming buffer changed below the new write cursor only. -/
structure AfterReqFrom (addr : Addr) (sendStop : Bool) (s t : State) : Prop where
  config : SameConfiguration s t
  taddr : t.taddr = addr
  dir : t.dir = .read
  txbuf : t.txbuf = s.txbuf
  txlen : t.txlen = s.txlen
  txpos : t.txpos = s.txpos
  rxpos : t.rxpos = 0
  rxStale : ∀ i, t.rxlen.toNat ≤ i → t.rxByte i = s.rxByte i
  stopDeferred : t.stopDeferred = !sendStop
  phase : t.phase = .idle

/-- A token without the duration it presents (U4). -/
def Token.bare : Token → Token
  | .delay _ => .delay 0
  | .tgStart g _ => .tgStart g 0
  | .sdaLow => .sdaLow
  | .sdaRelease => .sdaRelease
  | .sclLow => .sclLow
  | .sclRelease => .sclRelease
  | .readSda b => .readSda b
  | .readScl b => .readScl b
  | .tgQuery g b => .tgQuery g b

/-- A state without its durations: DELAY, TIMEOUT and what the trace presented of them. -/
def State.withoutDurations (s : State) : State :=
  { s with delay := 0, timeout := 0, trace := s.trace.map Token.bare }

/-- A safe run of `k` steps: the machine is not stuck in any of them. -/
def SafeRun : Nat → State → Prop
  | 0, _ => True
  | k + 1, s => ∃ t, step s = .next t ∧ SafeRun k t

end Sys2Proof.Machine
end

