-- ==== Sys2Proof/Certificates/Slice0/Obligations.lean ====
section
/-! DEFINITION. Sys2Proof/Certificates/Slice0/Obligations.lean: the statements for the provers, from the numbered rules of
spec/. Every hypothesis about the environment names the answers a command asks for, in call order; `Ends` says how the
command has ended; nothing rests on a value the model chose unless the docstring says so. -/

open Sys2Proof Sys2Proof.Machine

/-! ## Encoding (30_encoding.md) -/

/-- R66, R68: the decoder reads back every well-formed command from the word the encoder writes, with every operand at
every value. -/
def Obligations.DecodeReadsBackEveryEncodedCommand : Prop :=
  ∀ i : Instr, i.wellFormed = true → decode (encode i) = .ok i

/-- R66, R67: a word that decodes is the encoding of its command: the decoder drops no bit. -/
def Obligations.EveryDecodedWordIsItsEncoding : Prop :=
  ∀ (w : CmdWord) (i : Instr), decode w = .ok i → encode i = w ∧ i.wellFormed = true

/-- R66: a word is a row's command exactly when `w & mask = match`. -/
def Obligations.DecodeFollowsMatchAndMask : Prop :=
  ∀ (w : CmdWord) (r : OpRow),
    (∃ i : Instr, decode w = .ok i ∧ i.row = r) ↔ (r ∈ opcodeTable ∧ w &&& r.mask = r.pattern)

/-- R67: a word that no row matches is answered `0x8000`; nothing else changes: no state, no line action, no delay, no
guard. Such a word is illegal, and only such a word is. -/
def Obligations.IllegalWordIsAnsweredAndDoesNothing : Prop :=
  ∀ (w : CmdWord),
    ((∃ e, decode w = .error e) ↔ ∀ r ∈ opcodeTable, w &&& r.mask ≠ r.pattern) ∧
    ((∀ r ∈ opcodeTable, w &&& r.mask ≠ r.pattern) → ∀ (s : State) (rest : List HostEvent),
      s.busy = false → s.host = .command w :: rest → step s = .next { s with host := rest, resp := some 0x8000 })

/-- R68, R69: a written command whose operands fit assembles to the words the table of R68 gives, pseudo-commands
included. -/
def Obligations.WrittenCommandsAssembleToTheirWords : Prop :=
  ∀ a : Asm, a.wellFormed = true → a.expand.map (fun i => (encode i).toNat) = a.words

/-- R66: words written out from the table, one per family, decode to the command they stand for. -/
def Obligations.KnownWordsDecode : Prop :=
  decode 0x01000001 = .ok (.stop true) ∧ decode 0x02000AA0 = .error (.reservedBitSet "START_RAW") ∧
    decode 0x020000A0 = .ok (.startRaw 0xA0) ∧ decode 0x06005001 = .ok (.rstart 0x50 .read) ∧
    decode 0x0800003C = .ok (.write 0x3C) ∧ decode 0x09000000 = .ok (.read false) ∧
    decode 0x10005000 = .ok (.beginTx 0x50) ∧ decode 0x13025001 = .ok (.reqFrom 0x50 2 true) ∧
    decode 0x14000000 = .ok .rxGet ∧ decode 0x22000064 = .ok (.cfgTimeout 100) ∧
    decode 0x23000000 = .ok .init ∧ decode 0x00000000 = .error (.unknownOpcode 0)

/-- R60: the raw byte is `(address << 1) | direction`, and taking it apart gives both back. -/
def Obligations.RawByteIsAddressThenDirection : Prop :=
  (∀ (addr : Addr) (mode : Mode),
    (rawByte addr mode).toNat = (addr.toNat <<< 1) ||| mode.bit.toNat ∧
      rawAddr (rawByte addr mode) = addr ∧ rawMode (rawByte addr mode) = mode) ∧
  (∀ raw : Byte, rawByte (rawAddr raw) (rawMode raw) = raw)

/-! ## The port and reset (10_state.md R31, R34; 70_reset_and_hazards.md R220, R221, R232) -/

/-- The bytes the host presents run as the command they decode to: with the controller ready, a step is `exec` of the
decoded command at the state with the command accepted (R31), and `withFetchWord` presents exactly its word. -/
def Obligations.StepRunsTheDecodedCommand : Prop :=
  (∀ (s : State) (w : CmdWord) (rest : List HostEvent) (i : Instr), s.busy = false → s.host = .command w :: rest →
    decode w = .ok i → step s = exec i (acceptCommand rest s)) ∧
  (∀ (s : State) (w : CmdWord) (i : Instr), decode w = .ok i →
    step (s.withFetchWord 32 w.toNat) = exec i (acceptCommand s.host { s with busy := false }))

/-- R31, R232: with nothing presented the controller waits, and a command presented while it is busy waits, with no
effect. After a reset the port shows no response: that is the model's choice, assumption 10. -/
def Obligations.NothingIsAcceptedWhileBusy : Prop :=
  (∀ s : State, s.host = [] → step s = .next s) ∧
  (∀ (s : State) (w : CmdWord) (rest : List HostEvent), s.busy = true → s.host = .command w :: rest →
    step s = .next s) ∧
  (∀ (s : State) (rest : List HostEvent), s.host = .reset :: rest → ∃ t, step s = .next t ∧ t.resp = none)

/-- R220: reset sets every register the table of R34 gives a value to that value, and produces no action. -/
def Obligations.ResetSetsTheTable : Prop :=
  ∀ (s : State) (rest : List HostEvent), s.host = .reset :: rest →
    ∃ t, step s = .next t ∧ t.sdaOut = .rel ∧ t.sclOut = .rel ∧ t.phase = .idle ∧ t.stopDeferred = false ∧
      t.txlen = 0 ∧ t.txpos = 0 ∧ t.rxlen = 0 ∧ t.rxpos = 0 ∧ t.pullups = false ∧
      t.delay = s.params.delayReset ∧ t.timeout = s.params.timeoutReset ∧ t.taddr = 0 ∧ t.dir = .write ∧
      t.busy = false ∧ t.trace = s.trace ∧ t.host = rest ∧ t.params = s.params ∧ t.env = s.env

/-- R221: reset during a command, after `n` of its actions: no response is delivered, every register the table of R34
gives a value takes it, and both lines are released. What was performed is the first `n` actions of the command and
nothing after them, so no STOP is forced: whatever the environment would have answered from there on, of a command that
would have ended (with the answers `e`, alike up to there) the trace is cut after `n` actions. -/
def Obligations.ResetDuringCommandGivesResetState : Prop :=
  ∀ (s : State) (w : CmdWord) (n : Nat) (rest : List HostEvent), s.busy = false → s.host = .resetDuring w n :: rest →
    ∃ t, step s = .next t ∧ t.resp = none ∧ t.sdaOut = .rel ∧ t.sclOut = .rel ∧ t.phase = .idle ∧
      t.stopDeferred = false ∧ t.txlen = 0 ∧ t.txpos = 0 ∧ t.rxlen = 0 ∧ t.rxpos = 0 ∧ t.pullups = false ∧
      t.delay = s.params.delayReset ∧ t.timeout = s.params.timeoutReset ∧ t.taddr = 0 ∧ t.dir = .write ∧
      t.busy = false ∧ t.host = rest ∧ t.params = s.params ∧
      ∀ (e : Env) (u : State), e.SameAnswers n s.env → e.delayDone.take n = s.env.delayDone.take n →
        runCommand w { acceptCommand rest s with env := e } = .next u →
        ∃ ts, u.trace = s.trace ++ ts ∧ t.trace = s.trace ++ ts.take n ∧
          t.env = (ts.take n).foldl Env.consume s.env

/-- U10, R221: the trace of the abandoned command is cut after a prefix, also of a command that would be stuck: some
environment that answers alike for `n` answers lets the command end, and for every such one what was performed is the
first `n` of its actions there, up to and including a delay that is never reported done (that such a delay counts is the
model's choice, assumption 11). Of a command that would have ended it is the first `n` of its own actions. -/
def Obligations.ResetDuringCommandCutsItsTrace : Prop :=
  ∀ (s : State) (w : CmdWord) (n : Nat) (rest : List HostEvent), s.busy = false → s.host = .resetDuring w n :: rest →
    (∃ (e : Env) (u : State), e.SameAnswers n s.env ∧
      runCommand w { acceptCommand rest s with env := e } = .next u) ∧
    (∀ (e : Env) (u : State), e.SameAnswers n s.env → runCommand w { acceptCommand rest s with env := e } = .next u →
      ∃ t ts, step s = .next t ∧ u.trace = s.trace ++ ts ∧
        t.trace = s.trace ++ upToStall s.env.delayDone (ts.take n)) ∧
    (∀ u : State, runCommand w (acceptCommand rest s) = .next u →
      ∃ t ts, step s = .next t ∧ u.trace = s.trace ++ ts ∧ t.trace = s.trace ++ ts.take n)

/-- R31, R64: a command that ends has presented exactly one response, one of those the command can give, and the
controller is ready. In particular no command but a byte write or a single START reports NACK (R191), no code is one
that is never produced (R19, R20), and bits 15 to 12 are 0. -/
def Obligations.EveryResponseIsOneTheCommandCanGive : Prop :=
  ∀ (i : Instr) (s t : State), exec i s = .next t → t.busy = false ∧ ∃ w, t.resp = some w ∧ i.mayAnswer s.params w

/-! ## The invariant between commands (10_state.md R27) -/

/-- The invariant holds after power-up, for every parameter, environment and host (R27, R34). -/
def Obligations.InvariantHoldsAtReset : Prop :=
  (∀ (p : Params) (e : Env) (h : List HostEvent), p.Valid → (State.powerUp p e h).Inv) ∧ State.reset.Inv

/-- Every step of the machine keeps the invariant: the cursor bounds of R27, canonical buffers inside their capacities,
every readable element written (R25, R26), no command in flight and PHASE not RECEIVING (R15, R16). -/
def Obligations.EveryStepKeepsTheInvariant : Prop :=
  ∀ s t : State, s.Inv → step s = .next t → t.Inv

/-- R27: the cursor bounds hold after reset and every command preserves them; no command writes an element at or beyond
a buffer's capacity; a rejected enqueue changes nothing but the response it reports itself with. -/
def Obligations.CursorsStayInsideTheBuffers : Prop :=
  (∀ (p : Params) (e : Env) (h : List HostEvent), (State.powerUp p e h).txlen.toNat ≤ p.txCap ∧
    (State.powerUp p e h).rxpos.toNat ≤ (State.powerUp p e h).rxlen.toNat ∧
    (State.powerUp p e h).rxlen.toNat ≤ p.rxCap) ∧
  (∀ (i : Instr) (s t : State), s.params.Valid → s.txlen.toNat ≤ s.params.txCap → s.rxpos.toNat ≤ s.rxlen.toNat →
    s.rxlen.toNat ≤ s.params.rxCap → exec i s = .next t →
    t.txlen.toNat ≤ t.params.txCap ∧ t.rxpos.toNat ≤ t.rxlen.toNat ∧ t.rxlen.toNat ≤ t.params.rxCap) ∧
  (∀ (i : Instr) (s t : State), exec i s = .next t →
    (∀ k, s.params.txCap ≤ k → Memory.lookup t.txbuf k = Memory.lookup s.txbuf k) ∧
    (∀ k, s.params.rxCap ≤ k → Memory.lookup t.rxbuf k = Memory.lookup s.rxbuf k)) ∧
  (∀ (s : State) (data : Byte), s.params.txCap ≤ s.txlen.toNat →
    exec (.txPut data) s = .next { s with resp := some 0x0000, busy := false })

/-! ## What holds of every command -/

/-- R47, R17: a command's actions are appended to the trace, in order and none merged or dropped; the two latches are
what those actions leave; the environment has answered exactly the actions that ask. -/
def Obligations.CommandsOnlyAppendActions : Prop :=
  ∀ (i : Instr) (s t : State), exec i s = .next t →
    ∃ ts, t.trace = s.trace ++ ts ∧ t.wires = s.wires.run ts ∧ t.env = ts.foldl Env.consume s.env

/-- R206, R207, R209: the controller samples a line only while it is released, asks a guard only after starting it in
the same command, and never asks it again after "expired" without starting it again. -/
def Obligations.SamplesAndQueriesAreDisciplined : Prop :=
  ∀ (i : Instr) (s t : State), exec i s = .next t →
    ∃ ts, t.trace = s.trace ++ ts ∧ (Monitor.begin s).accepts ts = true

/-- R104: the nine bus primitives neither write nor read the transaction state. The registers the rule lists are
unchanged (and so are the configuration and TXPOS), and other values in them change nothing else. -/
def Obligations.BusPrimitivesIgnoreTheTransactionState : Prop :=
  ∀ (i : Instr) (s : State), i.isBusPrimitive = true →
    (∀ t, exec i s = .next t → SameOffBus s t) ∧
    (∀ (ph : Phase) (ta : Addr) (di : Mode) (sd : Bool) (tb : Memory) (tl : BitVec 8) (rb : Memory) (rl rp : BitVec 8),
      exec i { s with phase := ph, taddr := ta, dir := di, stopDeferred := sd, txbuf := tb, txlen := tl, rxbuf := rb,
                      rxlen := rl, rxpos := rp } =
        mapNext (fun u => { u with phase := ph, taddr := ta, dir := di, stopDeferred := sd, txbuf := tb, txlen := tl,
                                   rxbuf := rb, rxlen := rl, rxpos := rp }) (exec i s))

/-- R21, R14, R16, R140: no command's behaviour depends on PULLUPS, DIR or PHASE: with other values in them a command
does the same in everything else. -/
def Obligations.NothingReadsPullupsDirOrPhase : Prop :=
  ∀ (i : Instr) (s : State) (en : Bool) (di : Mode) (ph : Phase),
    mapNext (fun u => { u with pullups := false, dir := .write, phase := .idle })
        (exec i { s with pullups := en, dir := di, phase := ph }) =
      mapNext (fun u => { u with pullups := false, dir := .write, phase := .idle }) (exec i s)

/-- R205, U4: DELAY and TIMEOUT are only presented: with other durations a command performs the same actions, gives the
same response and leaves the same state, but for the durations it presents. -/
def Obligations.DurationsAreOnlyPresented : Prop :=
  ∀ (i : Instr) (s : State) (d t : Duration),
    mapNext State.withoutDurations (exec i { s with delay := d, timeout := t }) =
      mapNext State.withoutDurations (exec i s)

/-- R208: where every guard that is asked often enough answers "expired" and every delay is done, every command
terminates. -/
def Obligations.EveryCommandEndsWhenGuardsExpire : Prop :=
  ∀ (i : Instr) (s : State), s.env.Live → ∃ t, exec i s = .next t ∧ t.env.Live

/-- R208: under the liveness premise no run of any length, whatever the host presents, is ever stuck. -/
def Obligations.RunsAreSafeWhenGuardsExpire : Prop :=
  ∀ (k : Nat) (s : State), s.env.Live → SafeRun k s

/-- R92: the clock wait has no iteration limit of its own: a wait that ends after any number of iterations ends the same
way in the model (assumption 1). -/
def Obligations.ClockWaitHasNoLimitOfItsOwn : Prop :=
  ∀ (g : Guard) (n : Nat) (s : State) (r : Bool × State), waitLoop g n s = .ok r → waitSclHigh g s = .ok r

/-- R99: the number of attempts has no bound other than the guard: a START-with-wait that ends after any number of
attempts ends the same way in the model (assumption 1). -/
def Obligations.StartWaitHasNoLimitOfItsOwn : Prop :=
  ∀ (raw : Byte) (n : Nat) (s : State) (r : Status × State), startWaitLoop raw n (tgStart .go s) = .ok r →
    opStartWait raw s = .ok r

/-- U9: the three ways a command is stuck, each for every command that can meet it: the clock never rises and the guard
never expires; a delay is never done; every attempt of a START-with-wait is refused and GO never expires. (START-with-wait
meets the first two when GO allows an attempt.) -/
def Obligations.StuckWithoutLiveness : Prop :=
  (∀ (s : State) (i : Instr), s.env.scl.AllAre false → s.env.gp.AllAre false → s.env.delayDone.AllAre true →
    i.waitsForClock = true → (i.asksOuterGuard = true → s.env.go.head = false) →
    exec i s = .fault .clockNeverRises) ∧
  (∀ (s : State) (i : Instr), s.env.delayDone.head = false → i.waitsForClock = true ∨ i = .stop false →
    (i.asksOuterGuard = true → s.env.go.head = false) → exec i s = .fault .delayNeverDone) ∧
  (∀ (s : State) (i : Instr), s.env.Quiet → s.env.sda.AllAre true → s.env.go.AllAre false → i.asksOuterGuard = true →
    exec i s = .fault .retryNeverEnds)

/-! ## STOP (40_bus_conditions.md R93, R94) -/

/-- STOP completes: without the wait in 8 actions whatever the lines are, and with it after `k` low clock samples; both
lines end released and nothing else is written. -/
def Obligations.StopCompletes : Prop :=
  (∀ s : State, s.env.delayDone.Begins (List.replicate 4 true) →
    ∃ t, exec (.stop false) s = .next t ∧ Ends s t (stopTokens s.delay) 0x0000 ∧ SameOffBus s t ∧
      t.wires = ⟨.rel, .rel⟩ ∧ t.sr = s.sr ∧ t.bitcnt = s.bitcnt) ∧
  (∀ (s : State) (k : Nat), s.env.delayDone.Begins (List.replicate 4 true) →
    s.env.scl.Begins (List.replicate k false ++ [true]) → s.env.gp.Begins (List.replicate k false) →
    ∃ t, exec (.stop true) s = .next t ∧ Ends s t (stopWaitTokens s.delay s.timeout k) 0x0000 ∧ SameOffBus s t ∧
      t.wires = ⟨.rel, .rel⟩ ∧ t.sr = s.sr ∧ t.bitcnt = s.bitcnt)

/-- STOP times out when the guard expires after `k + 1` low clock samples: the abort's STOP follows, both lines end
released, and the result is TIMEDOUT (R94, R199). -/
def Obligations.StopTimesOut : Prop :=
  ∀ (s : State) (k : Nat), s.env.delayDone.Begins (List.replicate 6 true) →
    s.env.scl.Begins (List.replicate (k + 1) false) → s.env.gp.Begins (List.replicate k false ++ [true]) →
    ∃ t, exec (.stop true) s = .next t ∧ Ends s t (stopExpiredTokens s.delay s.timeout k) 0x0200 ∧ SameOffBus s t ∧
      t.wires = ⟨.rel, .rel⟩

/-! ## Byte write (41_byte_transfer.md R120 to R122) -/

/-- WRITE completes after `k` low clock samples in the acknowledge pulse: the actions of R120 bit for bit, `SR` = DATA,
BITCNT = 0 (the model's reading of R12, assumption 8), and ACK or NACK as SDA was sampled. -/
def Obligations.WriteCompletes : Prop :=
  ∀ (s : State) (data : Byte) (nack : Bool) (k : Nat), s.env.delayDone.Begins (List.replicate 17 true) →
    s.env.gp.Begins (List.replicate (8 + k) false) → s.env.scl.Begins (List.replicate k false ++ [true]) →
    s.env.sda.Begins [nack] →
    ∃ t, exec (.write data) s = .next t ∧
      Ends s t (writeTokens s.delay s.timeout data nack k) (if nack then 0x0100 else 0x0000) ∧
      SameOffBus s t ∧ t.sr = data ∧ t.bitcnt = 0 ∧ t.wires = ⟨.rel, .low⟩

/-- WRITE times out when the guard answers "expired" at the query after pulse `i`, or in the acknowledge pulse after
`k + 1` low clock samples: the trace up to the query, then the forced STOP, and TIMEDOUT (R121, R199). -/
def Obligations.WriteTimesOut : Prop :=
  (∀ (s : State) (data : Byte) (i : Nat), i < 8 → s.env.delayDone.Begins (List.replicate (2 * i + 6) true) →
    s.env.gp.Begins (List.replicate i false ++ [true]) →
    ∃ t, exec (.write data) s = .next t ∧
      Ends s t (writeExpiredTokens s.delay s.timeout data i) 0x0200 ∧ SameOffBus s t ∧ t.wires = ⟨.rel, .rel⟩) ∧
  (∀ (s : State) (data : Byte) (k : Nat), s.env.delayDone.Begins (List.replicate 21 true) →
    s.env.gp.Begins (List.replicate (8 + k) false ++ [true]) → s.env.scl.Begins (List.replicate (k + 1) false) →
    ∃ t, exec (.write data) s = .next t ∧
      Ends s t (writeAckExpiredTokens s.delay s.timeout data k) 0x0200 ∧ SameOffBus s t ∧ t.wires = ⟨.rel, .rel⟩)

/-- R122: a byte write that is not timed out leaves SCL low and SDA released after 9 clock releases and one data sample;
one that timed out ended with the eight actions of the forced STOP and both lines released. -/
def Obligations.ByteWritePostcondition : Prop :=
  ∀ (data : Byte) (s t : State) (r : Status), opWrite data s = .ok (r, t) →
    ∃ ts, t.trace = s.trace ++ ts ∧
      (r = .ack ∨ r = .nack → t.sclOut = .low ∧ t.sdaOut = .rel ∧ ts.count .sclRelease = 9 ∧
        (sampledBits ts).length = 1) ∧
      (r = .timedOut → stopTokens s.delay <:+ ts ∧ t.sclOut = .rel ∧ t.sdaOut = .rel)

/-! ## Byte read (41_byte_transfer.md R123 to R126) -/

/-- READ completes with no stretching: the actions of R123, the byte of the eight samples (first in bit 7) in the
response and in `SR`, ACK whatever was sent, SDA held as the acknowledge bit was, and BITCNT = 0 (the model's reading of
R12, assumption 8). -/
def Obligations.ReadCompletes : Prop :=
  ∀ (s : State) (data : Byte) (sendAck : Bool), s.env.delayDone.Begins (List.replicate 17 true) →
    s.env.scl.Begins (List.replicate 9 true) → s.env.sda.Begins (bitsMsb data) →
    ∃ t, exec (.read sendAck) s = .next t ∧
      Ends s t (readTokens s.delay s.timeout data sendAck) (0x00#8 ++ data) ∧ SameOffBus s t ∧
      t.sr = data ∧ t.bitcnt = 0 ∧ t.wires = ⟨latchOf (!sendAck), .low⟩

/-- READ times out when the clock wait of pulse `i` (8: the acknowledge pulse) expires after `k + 1` low samples:
TIMEDOUT with DATA = 0, after the forced STOP (R124, R199). -/
def Obligations.ReadTimesOut : Prop :=
  ∀ (s : State) (data : Byte) (sendAck : Bool) (i k : Nat), i ≤ 8 →
    s.env.delayDone.Begins (List.replicate (if i < 8 then 2 * i + 6 else 21) true) →
    s.env.scl.Begins (List.replicate i true ++ List.replicate (k + 1) false) →
    s.env.gp.Begins (List.replicate k false ++ [true]) → s.env.sda.Begins ((bitsMsb data).take i) →
    ∃ t, exec (.read sendAck) s = .next t ∧
      Ends s t (readExpiredTokens s.delay s.timeout data sendAck i k) 0x0200 ∧ SameOffBus s t ∧
      t.wires = ⟨.rel, .rel⟩

/-- R125: a byte read with status ACK leaves SCL low and SDA as the master's acknowledge bit, after 9 clock releases and
8 data samples, and its byte is those samples, the first in bit 7; the next operation's first actions then make no bus
condition. One that timed out ended with the forced STOP and both lines released. -/
def Obligations.ByteReadPostcondition : Prop :=
  ∀ (sendAck : Bool) (s t : State) (r : Status) (byte : Byte), opRead sendAck s = .ok (r, byte, t) →
    ∃ ts, t.trace = s.trace ++ ts ∧
      (r = .ack → t.sclOut = .low ∧ t.sdaOut = (if sendAck then .low else .rel) ∧ ts.count .sclRelease = 9 ∧
        sampledBits ts = bitsMsb byte ∧ s.env.sda.Begins (bitsMsb byte) ∧
        t.wires.conditions [.sclLow, .sdaRelease] = [] ∧
        t.wires.conditions [.sclLow, .delay t.delay, .sdaLow] = [] ∧ t.wires.conditions [.sdaRelease] = []) ∧
      (r = .timedOut → stopTokens s.delay <:+ ts ∧ t.sclOut = .rel ∧ t.sdaOut = .rel)

/-- R126: the shift discards bit 7, moves the others up and puts the new bit into bit 0; eight shifts from any value give
the eight bits in order of arrival, first in bit 7; the write path puts `SR[7]` down to `SR[0]` on the wire and does not
modify `SR`. -/
def Obligations.ShiftRegisterArithmetic : Prop :=
  (∀ (sr : Byte) (b : Bool), (shiftIn sr b).getLsbD 0 = b ∧
    ∀ k, k < 7 → (shiftIn sr b).getLsbD (k + 1) = sr.getLsbD k) ∧
  (∀ (sr : Byte) (bits : List Bool), bits.length = 8 → bitsMsb (bits.foldl shiftIn sr) = bits) ∧
  (∀ s t : State, writeBits 8 s = .ok (true, t) → t.sr = s.sr ∧
    ∃ ts, t.trace = s.trace ++ ts ∧ s.wires.clocked ts = (bitsMsb s.sr).map latchOf)

/-- R42, R61: what is on the data line at the nine releases of the clock: in a byte write the eight bits, bit 7 first,
then a released line for the slave's acknowledge; in a byte read eight times a released line, then the master's
acknowledge bit. However long the clock is stretched. -/
def Obligations.NineBitsOnTheWire : Prop :=
  (∀ (data : Byte) (s t : State), exec (.write data) s = .next t → t.resp ≠ some 0x0200 →
    ∃ ts, t.trace = s.trace ++ ts ∧ s.wires.clocked ts = (bitsMsb data).map latchOf ++ [.rel]) ∧
  (∀ (sendAck : Bool) (s t : State), exec (.read sendAck) s = .next t → t.resp ≠ some 0x0200 →
    ∃ ts, t.trace = s.trace ++ ts ∧ s.wires.clocked ts = List.replicate 8 .rel ++ [latchOf (!sendAck)])

/-! ## START, REPEATED-START, START with wait (40_bus_conditions.md R95 to R103) -/

/-- START_RAW completes: SDA falls, SCL falls, then the byte write of the raw byte, `k` low clock samples in its
acknowledge pulse; START does the same with its address and mode. (`BITCNT` = 0: assumption 8.) -/
def Obligations.StartCompletes : Prop :=
  ∀ (s : State) (raw : Byte) (nack : Bool) (k : Nat), s.env.delayDone.Begins (List.replicate 19 true) →
    s.env.gp.Begins (List.replicate (8 + k) false) → s.env.scl.Begins (List.replicate k false ++ [true]) →
    s.env.sda.Begins [nack] → ∀ i : Instr, (i = .startRaw raw ∨ i = .start (rawAddr raw) (rawMode raw)) →
    ∃ t, exec i s = .next t ∧
      Ends s t (startTokens s.delay ++ writeTokens s.delay s.timeout raw nack k) (if nack then 0x0100 else 0x0000) ∧
      SameOffBus s t ∧ t.sr = raw ∧ t.bitcnt = 0 ∧ t.wires = ⟨.rel, .low⟩

/-- RSTART_RAW completes: SDA and SCL are released, SDA falls, then the byte write of the raw byte; RSTART does the same
with its address and mode. (`BITCNT` = 0: assumption 8.) -/
def Obligations.RepeatedStartCompletes : Prop :=
  ∀ (s : State) (raw : Byte) (nack : Bool) (k : Nat), s.env.delayDone.Begins (List.replicate 20 true) →
    s.env.gp.Begins (List.replicate (8 + k) false) → s.env.scl.Begins (List.replicate k false ++ [true]) →
    s.env.sda.Begins [nack] → ∀ i : Instr, (i = .rstartRaw raw ∨ i = .rstart (rawAddr raw) (rawMode raw)) →
    ∃ t, exec i s = .next t ∧
      Ends s t (rstartTokens s.delay ++ writeTokens s.delay s.timeout raw nack k)
        (if nack then 0x0100 else 0x0000) ∧
      SameOffBus s t ∧ t.sr = raw ∧ t.bitcnt = 0 ∧ t.wires = ⟨.rel, .low⟩

/-- R65, R101 to R103: the address forms behave exactly as the raw forms with `RAW = {ADDR, MODE}`. -/
def Obligations.AddressFormsAreTheRawForms : Prop :=
  ∀ (addr : Addr) (mode : Mode) (s : State),
    exec (.start addr mode) s = exec (.startRaw (rawByte addr mode)) s ∧
    exec (.rstart addr mode) s = exec (.rstartRaw (rawByte addr mode)) s ∧
    exec (.startw addr mode) s = exec (.startwRaw (rawByte addr mode)) s

/-- STARTW_RAW and STARTW complete: `n` attempts that are not acknowledged, each closed by a STOP, then one that is: GO is
started once and asked before every attempt, and the result is ACK with the clock left low (R99, R100). -/
def Obligations.StartWaitRetriesUntilAcknowledged : Prop :=
  ∀ (s : State) (raw : Byte) (n : Nat), s.env.Quiet → s.env.go.Begins (List.replicate (n + 1) false) →
    s.env.sda.Begins (List.replicate n true ++ [false]) →
    ∀ i : Instr, (i = .startwRaw raw ∨ i = .startw (rawAddr raw) (rawMode raw)) →
    ∃ t, exec i s = .next t ∧
      Ends s t (.tgStart .go s.timeout :: nackAttempts s.delay s.timeout raw n ++ .tgQuery .go false ::
        startTokens s.delay ++ writeTokens s.delay s.timeout raw false 0) 0x0000 ∧
      SameOffBus s t ∧ t.sr = raw ∧ t.wires = ⟨.rel, .low⟩

/-- STARTW_RAW and STARTW give up when GO expires after `n` attempts that were not acknowledged: TIMEDOUT, with no further
STOP; the latches are as on entry when no attempt was made, else released (R99, R100). -/
def Obligations.StartWaitGivesUpWhenGuardExpires : Prop :=
  ∀ (s : State) (raw : Byte) (n : Nat), s.env.Quiet → s.env.go.Begins (List.replicate n false ++ [true]) →
    s.env.sda.Begins (List.replicate n true) →
    ∀ i : Instr, (i = .startwRaw raw ∨ i = .startw (rawAddr raw) (rawMode raw)) →
    ∃ t, exec i s = .next t ∧
      Ends s t (.tgStart .go s.timeout :: nackAttempts s.delay s.timeout raw n ++ [.tgQuery .go true]) 0x0200 ∧
      SameOffBus s t ∧ t.wires = if n = 0 then s.wires else ⟨.rel, .rel⟩

/-- STARTW_RAW and STARTW end at the first attempt whose byte write times out, after `n` attempts that were not
acknowledged: in data pulse `i`, or (`i` = 8) in the acknowledge pulse after `k + 1` low clock samples. The forced STOP,
then a second, ordinary STOP, and TIMEDOUT (R99, R201). -/
def Obligations.StartWaitTreatsTimeoutAsFatal : Prop :=
  ∀ (s : State) (raw : Byte) (n i k : Nat), i ≤ 8 → s.env.go.Begins (List.replicate (n + 1) false) →
    s.env.sda.Begins (List.replicate n true) → s.env.delayDone.AllAre true →
    s.env.gp.Begins (List.replicate (8 * n) false ++ writeTimeoutGp i k) →
    s.env.scl.Begins (List.replicate (2 * n) true ++ writeTimeoutScl i k ++ [true]) →
    ∀ j : Instr, (j = .startwRaw raw ∨ j = .startw (rawAddr raw) (rawMode raw)) →
    ∃ t, exec j s = .next t ∧
      Ends s t (.tgStart .go s.timeout :: nackAttempts s.delay s.timeout raw n ++ .tgQuery .go false ::
        startTokens s.delay ++ writeTimeoutTokens s.delay s.timeout raw i k ++
        stopWaitTokens s.delay s.timeout 0) 0x0200 ∧
      SameOffBus s t ∧ t.wires = ⟨.rel, .rel⟩

/-- R105, R62, R226, R227: the conditions each bus primitive makes on the wires, as the latches show them, from any state
of the latches. STOP makes one STOP. START makes one START from an idle bus and none otherwise; RSTART makes one START,
after a STOP when SDA was low with the clock released; a byte transfer makes none; each is followed by a STOP when it
timed out. START-with-wait makes those of its attempts, without the first START when the bus was not idle. -/
def Obligations.CommandsMakeTheirBusConditions : Prop :=
  ∀ (i : Instr) (s t : State), exec i s = .next t →
    ∃ ts, t.trace = s.trace ++ ts ∧
      ((∃ stretch, i = .stop stretch) → s.wires.conditions ts = [.stop]) ∧
      ((∃ raw, i = .startRaw raw) ∨ (∃ addr mode, i = .start addr mode) →
        s.wires.conditions ts = (if s.wires = ⟨.rel, .rel⟩ then [.start] else []) ++
          (if t.resp = some 0x0200 then [.stop] else [])) ∧
      ((∃ raw, i = .rstartRaw raw) ∨ (∃ addr mode, i = .rstart addr mode) →
        s.wires.conditions ts = (if s.wires = ⟨.low, .rel⟩ then [.stop] else []) ++
          .start :: (if t.resp = some 0x0200 then [.stop] else [])) ∧
      ((∃ data, i = .write data) ∨ (∃ sendAck, i = .read sendAck) →
        s.wires.conditions ts = if t.resp = some 0x0200 then [.stop] else []) ∧
      ((∃ raw, i = .startwRaw raw) ∨ (∃ addr mode, i = .startw addr mode) →
        s.wires.conditions ts =
          if s.wires = ⟨.rel, .rel⟩ then startWaitConditions ts (t.resp == some 0x0000)
          else (startWaitConditions ts (t.resp == some 0x0000)).tail)

/-- R208's testable property, R192, R199: with the clock stuck low and a guard that expires, every command that crosses a
clock wait reports the timeout in its own way (TIMEDOUT for a bus primitive, TX_OTHER for END_TX, a count of 0 for
REQ_FROM), and a STOP ends its trace. (START-with-wait makes an attempt only when GO allows one.) -/
def Obligations.StuckClockTimesOutWithStop : Prop :=
  ∀ (i : Instr) (s : State), s.env.Live → s.env.scl.AllAre false → i.waitsForClock = true →
    (i.asksOuterGuard = true → s.env.go.head = false) →
    ∃ t ts, exec i s = .next t ∧ t.trace = s.trace ++ ts ∧ t.resp = some i.timeoutReport ∧
      stopTokens s.delay <:+ ts ∧ t.wires = ⟨.rel, .rel⟩

/-! ## The transaction sequencer (42_transaction.md) -/

/-- BEGIN_TX completes (R141): it records the address, empties the outgoing buffer by its cursor alone, and performs no
action. -/
def Obligations.BeginTxCompletes : Prop :=
  ∀ (s : State) (addr : Addr), exec (.beginTx addr) s =
    .next { s with taddr := addr, dir := .write, txlen := 0, phase := .transmitting, resp := some 0x0000,
                   busy := false }

/-- TX_PUT completes (R142): below capacity it stores the byte at the cursor, advances it and answers 1 in FLAG, every
other byte of both buffers as before; at capacity it answers 0 and writes nothing. -/
def Obligations.TxPutCompletes : Prop :=
  (∀ (s : State) (data : Byte), s.params.Valid → s.txlen.toNat < s.params.txCap →
    ∃ t, exec (.txPut data) s = .next t ∧ t.resp = some 0x0800 ∧ t.txlen.toNat = s.txlen.toNat + 1 ∧
      t.txByte s.txlen.toNat = data ∧ (∀ i, i ≠ s.txlen.toNat → t.txByte i = s.txByte i) ∧
      t = { s with txbuf := t.txbuf, txlen := t.txlen, resp := t.resp, busy := false }) ∧
  (∀ (s : State) (data : Byte), s.params.txCap ≤ s.txlen.toNat →
    exec (.txPut data) s = .next { s with resp := some 0x0000, busy := false })

/-- END_TX completes with everything acknowledged (R144): the address phase, exactly the TXLEN enqueued bytes in order,
and the STOP unless it is deferred; TX_OK. -/
def Obligations.EndTxSendsEveryByte : Prop :=
  ∀ (s : State) (sendStop : Bool), s.env.Quiet →
    s.env.sda.Begins (List.replicate (s.txlen.toNat + 1) false) →
    ∃ t, exec (.endTx sendStop) s = .next t ∧
      Ends s t (openTokens s.stopDeferred s.delay ++ writeTokens s.delay s.timeout (rawByte s.taddr .write) false 0 ++
        ackedTokens s.delay s.timeout (s.payload s.txlen.toNat) ++ closeTokens sendStop s.delay s.timeout) 0x0000 ∧
      AfterEndTx sendStop s t

/-- END_TX stops at the first byte that is not acknowledged and still issues its STOP: TX_ADDR_NACK for the address,
TX_DATA_NACK for data byte `j`; later bytes are not sent (R144, R145). -/
def Obligations.EndTxStopsAtTheFirstNack : Prop :=
  (∀ (s : State) (sendStop : Bool), s.env.Quiet → s.env.sda.Begins [true] →
    ∃ t, exec (.endTx sendStop) s = .next t ∧
      Ends s t (openTokens s.stopDeferred s.delay ++ writeTokens s.delay s.timeout (rawByte s.taddr .write) true 0 ++
        closeTokens sendStop s.delay s.timeout) 0x0200 ∧ AfterEndTx sendStop s t) ∧
  (∀ (s : State) (sendStop : Bool) (j : Nat), s.env.Quiet → j < s.txlen.toNat →
    s.env.sda.Begins (List.replicate (j + 1) false ++ [true]) →
    ∃ t, exec (.endTx sendStop) s = .next t ∧
      Ends s t (openTokens s.stopDeferred s.delay ++ writeTokens s.delay s.timeout (rawByte s.taddr .write) false 0 ++
        ackedTokens s.delay s.timeout (s.payload j) ++ writeTokens s.delay s.timeout (s.txByte j) true 0 ++
        closeTokens sendStop s.delay s.timeout) 0x0300 ∧ AfterEndTx sendStop s t)

/-- END_TX stops at the first byte that times out, in data pulse `i` or (`i` = 8) in the acknowledge pulse after `k + 1`
low clock samples: TX_OTHER for the address and for data byte `j`, the forced STOP and then its own (R144, R145,
R200). -/
def Obligations.EndTxStopsAtTheFirstTimeout : Prop :=
  (∀ (s : State) (sendStop : Bool) (i k : Nat), i ≤ 8 → s.env.delayDone.AllAre true →
    s.env.gp.Begins (writeTimeoutGp i k) →
    s.env.scl.Begins (writeTimeoutScl i k ++ if sendStop then [true] else []) →
    ∃ t, exec (.endTx sendStop) s = .next t ∧
      Ends s t (openTokens s.stopDeferred s.delay ++
        writeTimeoutTokens s.delay s.timeout (rawByte s.taddr .write) i k ++
        closeTokens sendStop s.delay s.timeout) 0x0400 ∧ AfterEndTx sendStop s t) ∧
  (∀ (s : State) (sendStop : Bool) (j i k : Nat), i ≤ 8 → j < s.txlen.toNat → s.env.delayDone.AllAre true →
    s.env.gp.Begins (List.replicate (8 * (j + 1)) false ++ writeTimeoutGp i k) →
    s.env.scl.Begins (List.replicate (j + 1) true ++ writeTimeoutScl i k ++ if sendStop then [true] else []) →
    s.env.sda.Begins (List.replicate (j + 1) false) →
    ∃ t, exec (.endTx sendStop) s = .next t ∧
      Ends s t (openTokens s.stopDeferred s.delay ++ writeTokens s.delay s.timeout (rawByte s.taddr .write) false 0 ++
        ackedTokens s.delay s.timeout (s.payload j) ++ writeTimeoutTokens s.delay s.timeout (s.txByte j) i k ++
        closeTokens sendStop s.delay s.timeout) 0x0400 ∧ AfterEndTx sendStop s t)

/-- The frame of END_TX, whatever happened on the bus (R144). -/
def Obligations.EndTxFrame : Prop :=
  ∀ (s t : State) (sendStop : Bool), exec (.endTx sendStop) s = .next t → AfterEndTx sendStop s t

/-- R143, R18: a transaction after a deferred STOP opens with a REPEATED-START, any other with a START, and its address
byte follows, bit for bit: TADDR in write mode for END_TX, ADDR in read mode for REQ_FROM; all eight data pulses, or those
up to the one after which the guard expires, and the forced STOP. -/
def Obligations.DeferredStopOpensWithRepeatedStart : Prop :=
  ∀ (i : Instr) (s t : State) (raw : Byte), exec i s = .next t →
    ((∃ sendStop, i = .endTx sendStop ∧ raw = rawByte s.taddr .write) ∨
      (∃ addr count sendStop, i = .reqFrom addr count sendStop ∧ raw = rawByte addr .read)) →
    ∃ ts, t.trace = s.trace ++ openTokens s.stopDeferred s.delay ++
        .tgStart .gp s.timeout :: (bitsMsb raw).flatMap (writePulse s.delay false) ++ ts ∨
      ∃ p, p < 8 ∧ t.trace = s.trace ++ openTokens s.stopDeferred s.delay ++
        writeExpiredTokens s.delay s.timeout raw p ++ ts

/-- REQ_FROM completes with everything acknowledged (R146): it reads `min(COUNT, RX_CAP)` bytes, acknowledging all but
the last, stores them from index 0, and answers how many. -/
def Obligations.ReqFromStoresEveryByte : Prop :=
  ∀ (s : State) (addr : Addr) (count : BitVec 8) (sendStop : Bool) (bytes : List Byte), s.env.Quiet →
    bytes.length = min count.toNat s.params.rxCap → s.env.sda.Begins (false :: bytes.flatMap bitsMsb) →
    ∃ t, exec (.reqFrom addr count sendStop) s = .next t ∧
      Ends s t (openTokens s.stopDeferred s.delay ++ writeTokens s.delay s.timeout (rawByte addr .read) false 0 ++
        receiveTokens s.delay s.timeout bytes ++ closeTokens sendStop s.delay s.timeout)
        (BitVec.ofNat 16 bytes.length) ∧
      AfterReqFrom addr sendStop s t ∧ t.rxlen.toNat = bytes.length ∧
      ∀ (i : Nat) (h : i < bytes.length), t.rxByte i = bytes[i]

/-- REQ_FROM reads nothing when the address is not acknowledged: count 0, and the previous contents are lost (R146,
R191). -/
def Obligations.ReqFromReadsNothingWithoutAcknowledge : Prop :=
  ∀ (s : State) (addr : Addr) (count : BitVec 8) (sendStop : Bool), s.env.Quiet → s.env.sda.Begins [true] →
    ∃ t, exec (.reqFrom addr count sendStop) s = .next t ∧
      Ends s t (openTokens s.stopDeferred s.delay ++ writeTokens s.delay s.timeout (rawByte addr .read) true 0 ++
        closeTokens sendStop s.delay s.timeout) 0x0000 ∧
      AfterReqFrom addr sendStop s t ∧ t.rxlen = 0

/-- REQ_FROM stops at the first byte that times out, in data pulse `i` or (`i` = 8) in the acknowledge pulse, after
`k + 1` low clock samples where the pulse waits for the clock. The address byte: nothing is read, count 0. A byte after
the bytes `bytes`: it is not stored, and the count is the number stored before it, all of them acknowledged; its own
acknowledge bit, if it gets that far, is the one its place calls for. Then its own STOP (R146, R200). -/
def Obligations.ReqFromStopsAtTheFirstTimeout : Prop :=
  (∀ (s : State) (addr : Addr) (count : BitVec 8) (sendStop : Bool) (i k : Nat), i ≤ 8 →
    s.env.delayDone.AllAre true → s.env.gp.Begins (writeTimeoutGp i k) →
    s.env.scl.Begins (writeTimeoutScl i k ++ if sendStop then [true] else []) →
    ∃ t, exec (.reqFrom addr count sendStop) s = .next t ∧
      Ends s t (openTokens s.stopDeferred s.delay ++
        writeTimeoutTokens s.delay s.timeout (rawByte addr .read) i k ++
        closeTokens sendStop s.delay s.timeout) 0x0000 ∧
      AfterReqFrom addr sendStop s t ∧ t.rxlen = 0) ∧
  (∀ (s : State) (addr : Addr) (count : BitVec 8) (sendStop : Bool) (bytes : List Byte) (data : Byte) (i k : Nat),
    i ≤ 8 → bytes.length < min count.toNat s.params.rxCap → s.env.delayDone.AllAre true →
    s.env.scl.Begins (List.replicate (1 + 9 * bytes.length + i) true ++ List.replicate (k + 1) false ++
      if sendStop then [true] else []) →
    s.env.gp.Begins (List.replicate (8 + k) false ++ [true]) →
    s.env.sda.Begins (false :: bytes.flatMap bitsMsb ++ (bitsMsb data).take i) →
    ∃ t, exec (.reqFrom addr count sendStop) s = .next t ∧
      Ends s t (openTokens s.stopDeferred s.delay ++ writeTokens s.delay s.timeout (rawByte addr .read) false 0 ++
        bytes.flatMap (fun b => readTokens s.delay s.timeout b true) ++
        readExpiredTokens s.delay s.timeout data (decide (bytes.length + 1 ≠ min count.toNat s.params.rxCap)) i k ++
        closeTokens sendStop s.delay s.timeout)
        (BitVec.ofNat 16 bytes.length) ∧
      AfterReqFrom addr sendStop s t ∧ t.rxlen.toNat = bytes.length ∧
      ∀ (b : Nat) (h : b < bytes.length), t.rxByte b = bytes[b])

/-- The frame of REQ_FROM, whatever happened on the bus (R146, R28): TXBUF and TXLEN are untouched, the incoming buffer
changes below the new write cursor only, which is at most `min(COUNT, RX_CAP)` and is what the command answers. -/
def Obligations.ReqFromFrame : Prop :=
  ∀ (s t : State) (addr : Addr) (count : BitVec 8) (sendStop : Bool), exec (.reqFrom addr count sendStop) s = .next t →
    AfterReqFrom addr sendStop s t ∧ t.rxlen.toNat ≤ min count.toNat s.params.rxCap ∧
      t.resp = some (0x00#8 ++ t.rxlen)

/-- RX_GET, RX_PEEK and RX_AVAIL complete (R147 to R149): RX_GET answers the byte at the read cursor and advances it,
RX_PEEK answers the same byte and changes nothing, both answer empty when the cursors meet; RX_AVAIL answers how many
bytes are left. -/
def Obligations.ReceivedBytesAccessors : Prop :=
  (∀ s : State, s.rxpos.toNat < s.rxlen.toNat →
    ∃ t, exec .rxGet s = .next t ∧ t.rxpos.toNat = s.rxpos.toNat + 1 ∧
      t = { s with rxpos := t.rxpos, resp := some (0x08#8 ++ s.rxByte s.rxpos.toNat), busy := false } ∧
      exec .rxPeek s = .next { s with resp := t.resp, busy := false }) ∧
  (∀ s : State, s.rxlen.toNat ≤ s.rxpos.toNat →
    exec .rxGet s = .next { s with resp := some 0x0000, busy := false } ∧
      exec .rxPeek s = .next { s with resp := some 0x0000, busy := false }) ∧
  (∀ s : State, s.rxpos.toNat ≤ s.rxlen.toNat →
    exec .rxAvail s =
      .next { s with resp := some (BitVec.ofNat 16 (s.rxlen.toNat - s.rxpos.toNat)), busy := false })

/-! ## Configuration and initialisation (43_config.md R170 to R173) -/

/-- CFG_PULLUPS, CFG_DELAY and CFG_TIMEOUT write their register and nothing else; INIT releases the clock and then the
data line, clears the transaction state, and keeps the configuration, the address and the buffers. -/
def Obligations.ConfigurationAndInitComplete : Prop :=
  ∀ s : State,
    (∀ en, exec (.cfgPullups en) s = .next { s with pullups := en, resp := some 0x0000, busy := false }) ∧
    (∀ d, exec (.cfgDelay d) s = .next { s with delay := d, resp := some 0x0000, busy := false }) ∧
    (∀ d, exec (.cfgTimeout d) s = .next { s with timeout := d, resp := some 0x0000, busy := false }) ∧
    exec .init s = .next { s with
      sclOut := .rel, sdaOut := .rel, phase := .idle, stopDeferred := false, txlen := 0, rxlen := 0, rxpos := 0,
      trace := s.trace ++ [.sclRelease, .sdaRelease], resp := some 0x0000, busy := false }

/-! ## The PEC utility (44_pec_utility.md R180, R181) -/

/-- R180, R181: the worked values; and appending its CRC to a sequence gives remainder 0. -/
def Obligations.PecUtilityValues : Prop :=
  crc8Update 0x00 0x01 = 0x07 ∧ crc8Update 0x00 0x80 = 0x89 ∧ crc8Update 0xFF 0x00 = 0xF3 ∧
    crc8 0 [0x31, 0x32, 0x33, 0x34, 0x35, 0x36, 0x37, 0x38, 0x39] = 0xF4 ∧
    ∀ (init : Byte) (bytes : List Byte), crc8 init (bytes ++ [crc8 init bytes]) = 0
end

