-- ==== Sys2Proof/Laws/State.lean ====
section
/-! SUPPORT. Sys2Proof/Laws/State.lean: one lemma per field per update, each true by rfl, so that no proof unfolds a
record update. -/

namespace Sys2Proof.Machine

/-! ## emit -/

@[simp] theorem emit_sr (k : Token) (s : State) : (emit k s).sr = s.sr := rfl
@[simp] theorem emit_bitcnt (k : Token) (s : State) : (emit k s).bitcnt = s.bitcnt := rfl
@[simp] theorem emit_taddr (k : Token) (s : State) : (emit k s).taddr = s.taddr := rfl
@[simp] theorem emit_dir (k : Token) (s : State) : (emit k s).dir = s.dir := rfl
@[simp] theorem emit_busy (k : Token) (s : State) : (emit k s).busy = s.busy := rfl
@[simp] theorem emit_phase (k : Token) (s : State) : (emit k s).phase = s.phase := rfl
@[simp] theorem emit_sdaOut (k : Token) (s : State) : (emit k s).sdaOut = s.sdaOut := rfl
@[simp] theorem emit_sclOut (k : Token) (s : State) : (emit k s).sclOut = s.sclOut := rfl
@[simp] theorem emit_stopDeferred (k : Token) (s : State) : (emit k s).stopDeferred = s.stopDeferred := rfl
@[simp] theorem emit_pullups (k : Token) (s : State) : (emit k s).pullups = s.pullups := rfl
@[simp] theorem emit_delay (k : Token) (s : State) : (emit k s).delay = s.delay := rfl
@[simp] theorem emit_timeout (k : Token) (s : State) : (emit k s).timeout = s.timeout := rfl
@[simp] theorem emit_txbuf (k : Token) (s : State) : (emit k s).txbuf = s.txbuf := rfl
@[simp] theorem emit_txlen (k : Token) (s : State) : (emit k s).txlen = s.txlen := rfl
@[simp] theorem emit_txpos (k : Token) (s : State) : (emit k s).txpos = s.txpos := rfl
@[simp] theorem emit_rxbuf (k : Token) (s : State) : (emit k s).rxbuf = s.rxbuf := rfl
@[simp] theorem emit_rxlen (k : Token) (s : State) : (emit k s).rxlen = s.rxlen := rfl
@[simp] theorem emit_rxpos (k : Token) (s : State) : (emit k s).rxpos = s.rxpos := rfl
@[simp] theorem emit_resp (k : Token) (s : State) : (emit k s).resp = s.resp := rfl
@[simp] theorem emit_params (k : Token) (s : State) : (emit k s).params = s.params := rfl
@[simp] theorem emit_env (k : Token) (s : State) : (emit k s).env = s.env := rfl
@[simp] theorem emit_host (k : Token) (s : State) : (emit k s).host = s.host := rfl
@[simp] theorem emit_trace (k : Token) (s : State) : (emit k s).trace = s.trace ++ [k] := rfl
@[simp] theorem emit_draws (k : Token) (s : State) : (emit k s).draws = s.draws := rfl

/-! ## sdaLow -/

@[simp] theorem sdaLow_sr (s : State) : (sdaLow s).sr = s.sr := rfl
@[simp] theorem sdaLow_bitcnt (s : State) : (sdaLow s).bitcnt = s.bitcnt := rfl
@[simp] theorem sdaLow_taddr (s : State) : (sdaLow s).taddr = s.taddr := rfl
@[simp] theorem sdaLow_dir (s : State) : (sdaLow s).dir = s.dir := rfl
@[simp] theorem sdaLow_busy (s : State) : (sdaLow s).busy = s.busy := rfl
@[simp] theorem sdaLow_phase (s : State) : (sdaLow s).phase = s.phase := rfl
@[simp] theorem sdaLow_sdaOut (s : State) : (sdaLow s).sdaOut = .low := rfl
@[simp] theorem sdaLow_sclOut (s : State) : (sdaLow s).sclOut = s.sclOut := rfl
@[simp] theorem sdaLow_stopDeferred (s : State) : (sdaLow s).stopDeferred = s.stopDeferred := rfl
@[simp] theorem sdaLow_pullups (s : State) : (sdaLow s).pullups = s.pullups := rfl
@[simp] theorem sdaLow_delay (s : State) : (sdaLow s).delay = s.delay := rfl
@[simp] theorem sdaLow_timeout (s : State) : (sdaLow s).timeout = s.timeout := rfl
@[simp] theorem sdaLow_txbuf (s : State) : (sdaLow s).txbuf = s.txbuf := rfl
@[simp] theorem sdaLow_txlen (s : State) : (sdaLow s).txlen = s.txlen := rfl
@[simp] theorem sdaLow_txpos (s : State) : (sdaLow s).txpos = s.txpos := rfl
@[simp] theorem sdaLow_rxbuf (s : State) : (sdaLow s).rxbuf = s.rxbuf := rfl
@[simp] theorem sdaLow_rxlen (s : State) : (sdaLow s).rxlen = s.rxlen := rfl
@[simp] theorem sdaLow_rxpos (s : State) : (sdaLow s).rxpos = s.rxpos := rfl
@[simp] theorem sdaLow_resp (s : State) : (sdaLow s).resp = s.resp := rfl
@[simp] theorem sdaLow_params (s : State) : (sdaLow s).params = s.params := rfl
@[simp] theorem sdaLow_env (s : State) : (sdaLow s).env = s.env := rfl
@[simp] theorem sdaLow_host (s : State) : (sdaLow s).host = s.host := rfl
@[simp] theorem sdaLow_trace (s : State) : (sdaLow s).trace = s.trace ++ [.sdaLow] := rfl
@[simp] theorem sdaLow_draws (s : State) : (sdaLow s).draws = s.draws := rfl

/-! ## sdaRelease -/

@[simp] theorem sdaRelease_sr (s : State) : (sdaRelease s).sr = s.sr := rfl
@[simp] theorem sdaRelease_bitcnt (s : State) : (sdaRelease s).bitcnt = s.bitcnt := rfl
@[simp] theorem sdaRelease_taddr (s : State) : (sdaRelease s).taddr = s.taddr := rfl
@[simp] theorem sdaRelease_dir (s : State) : (sdaRelease s).dir = s.dir := rfl
@[simp] theorem sdaRelease_busy (s : State) : (sdaRelease s).busy = s.busy := rfl
@[simp] theorem sdaRelease_phase (s : State) : (sdaRelease s).phase = s.phase := rfl
@[simp] theorem sdaRelease_sdaOut (s : State) : (sdaRelease s).sdaOut = .rel := rfl
@[simp] theorem sdaRelease_sclOut (s : State) : (sdaRelease s).sclOut = s.sclOut := rfl
@[simp] theorem sdaRelease_stopDeferred (s : State) : (sdaRelease s).stopDeferred = s.stopDeferred := rfl
@[simp] theorem sdaRelease_pullups (s : State) : (sdaRelease s).pullups = s.pullups := rfl
@[simp] theorem sdaRelease_delay (s : State) : (sdaRelease s).delay = s.delay := rfl
@[simp] theorem sdaRelease_timeout (s : State) : (sdaRelease s).timeout = s.timeout := rfl
@[simp] theorem sdaRelease_txbuf (s : State) : (sdaRelease s).txbuf = s.txbuf := rfl
@[simp] theorem sdaRelease_txlen (s : State) : (sdaRelease s).txlen = s.txlen := rfl
@[simp] theorem sdaRelease_txpos (s : State) : (sdaRelease s).txpos = s.txpos := rfl
@[simp] theorem sdaRelease_rxbuf (s : State) : (sdaRelease s).rxbuf = s.rxbuf := rfl
@[simp] theorem sdaRelease_rxlen (s : State) : (sdaRelease s).rxlen = s.rxlen := rfl
@[simp] theorem sdaRelease_rxpos (s : State) : (sdaRelease s).rxpos = s.rxpos := rfl
@[simp] theorem sdaRelease_resp (s : State) : (sdaRelease s).resp = s.resp := rfl
@[simp] theorem sdaRelease_params (s : State) : (sdaRelease s).params = s.params := rfl
@[simp] theorem sdaRelease_env (s : State) : (sdaRelease s).env = s.env := rfl
@[simp] theorem sdaRelease_host (s : State) : (sdaRelease s).host = s.host := rfl
@[simp] theorem sdaRelease_trace (s : State) : (sdaRelease s).trace = s.trace ++ [.sdaRelease] := rfl
@[simp] theorem sdaRelease_draws (s : State) : (sdaRelease s).draws = s.draws := rfl

/-! ## sclLow -/

@[simp] theorem sclLow_sr (s : State) : (sclLow s).sr = s.sr := rfl
@[simp] theorem sclLow_bitcnt (s : State) : (sclLow s).bitcnt = s.bitcnt := rfl
@[simp] theorem sclLow_taddr (s : State) : (sclLow s).taddr = s.taddr := rfl
@[simp] theorem sclLow_dir (s : State) : (sclLow s).dir = s.dir := rfl
@[simp] theorem sclLow_busy (s : State) : (sclLow s).busy = s.busy := rfl
@[simp] theorem sclLow_phase (s : State) : (sclLow s).phase = s.phase := rfl
@[simp] theorem sclLow_sdaOut (s : State) : (sclLow s).sdaOut = s.sdaOut := rfl
@[simp] theorem sclLow_sclOut (s : State) : (sclLow s).sclOut = .low := rfl
@[simp] theorem sclLow_stopDeferred (s : State) : (sclLow s).stopDeferred = s.stopDeferred := rfl
@[simp] theorem sclLow_pullups (s : State) : (sclLow s).pullups = s.pullups := rfl
@[simp] theorem sclLow_delay (s : State) : (sclLow s).delay = s.delay := rfl
@[simp] theorem sclLow_timeout (s : State) : (sclLow s).timeout = s.timeout := rfl
@[simp] theorem sclLow_txbuf (s : State) : (sclLow s).txbuf = s.txbuf := rfl
@[simp] theorem sclLow_txlen (s : State) : (sclLow s).txlen = s.txlen := rfl
@[simp] theorem sclLow_txpos (s : State) : (sclLow s).txpos = s.txpos := rfl
@[simp] theorem sclLow_rxbuf (s : State) : (sclLow s).rxbuf = s.rxbuf := rfl
@[simp] theorem sclLow_rxlen (s : State) : (sclLow s).rxlen = s.rxlen := rfl
@[simp] theorem sclLow_rxpos (s : State) : (sclLow s).rxpos = s.rxpos := rfl
@[simp] theorem sclLow_resp (s : State) : (sclLow s).resp = s.resp := rfl
@[simp] theorem sclLow_params (s : State) : (sclLow s).params = s.params := rfl
@[simp] theorem sclLow_env (s : State) : (sclLow s).env = s.env := rfl
@[simp] theorem sclLow_host (s : State) : (sclLow s).host = s.host := rfl
@[simp] theorem sclLow_trace (s : State) : (sclLow s).trace = s.trace ++ [.sclLow] := rfl
@[simp] theorem sclLow_draws (s : State) : (sclLow s).draws = s.draws := rfl

/-! ## sclRelease -/

@[simp] theorem sclRelease_sr (s : State) : (sclRelease s).sr = s.sr := rfl
@[simp] theorem sclRelease_bitcnt (s : State) : (sclRelease s).bitcnt = s.bitcnt := rfl
@[simp] theorem sclRelease_taddr (s : State) : (sclRelease s).taddr = s.taddr := rfl
@[simp] theorem sclRelease_dir (s : State) : (sclRelease s).dir = s.dir := rfl
@[simp] theorem sclRelease_busy (s : State) : (sclRelease s).busy = s.busy := rfl
@[simp] theorem sclRelease_phase (s : State) : (sclRelease s).phase = s.phase := rfl
@[simp] theorem sclRelease_sdaOut (s : State) : (sclRelease s).sdaOut = s.sdaOut := rfl
@[simp] theorem sclRelease_sclOut (s : State) : (sclRelease s).sclOut = .rel := rfl
@[simp] theorem sclRelease_stopDeferred (s : State) : (sclRelease s).stopDeferred = s.stopDeferred := rfl
@[simp] theorem sclRelease_pullups (s : State) : (sclRelease s).pullups = s.pullups := rfl
@[simp] theorem sclRelease_delay (s : State) : (sclRelease s).delay = s.delay := rfl
@[simp] theorem sclRelease_timeout (s : State) : (sclRelease s).timeout = s.timeout := rfl
@[simp] theorem sclRelease_txbuf (s : State) : (sclRelease s).txbuf = s.txbuf := rfl
@[simp] theorem sclRelease_txlen (s : State) : (sclRelease s).txlen = s.txlen := rfl
@[simp] theorem sclRelease_txpos (s : State) : (sclRelease s).txpos = s.txpos := rfl
@[simp] theorem sclRelease_rxbuf (s : State) : (sclRelease s).rxbuf = s.rxbuf := rfl
@[simp] theorem sclRelease_rxlen (s : State) : (sclRelease s).rxlen = s.rxlen := rfl
@[simp] theorem sclRelease_rxpos (s : State) : (sclRelease s).rxpos = s.rxpos := rfl
@[simp] theorem sclRelease_resp (s : State) : (sclRelease s).resp = s.resp := rfl
@[simp] theorem sclRelease_params (s : State) : (sclRelease s).params = s.params := rfl
@[simp] theorem sclRelease_env (s : State) : (sclRelease s).env = s.env := rfl
@[simp] theorem sclRelease_host (s : State) : (sclRelease s).host = s.host := rfl
@[simp] theorem sclRelease_trace (s : State) : (sclRelease s).trace = s.trace ++ [.sclRelease] := rfl
@[simp] theorem sclRelease_draws (s : State) : (sclRelease s).draws = s.draws := rfl

/-! ## tgStart -/

@[simp] theorem tgStart_sr (g : Guard) (s : State) : (tgStart g s).sr = s.sr := rfl
@[simp] theorem tgStart_bitcnt (g : Guard) (s : State) : (tgStart g s).bitcnt = s.bitcnt := rfl
@[simp] theorem tgStart_taddr (g : Guard) (s : State) : (tgStart g s).taddr = s.taddr := rfl
@[simp] theorem tgStart_dir (g : Guard) (s : State) : (tgStart g s).dir = s.dir := rfl
@[simp] theorem tgStart_busy (g : Guard) (s : State) : (tgStart g s).busy = s.busy := rfl
@[simp] theorem tgStart_phase (g : Guard) (s : State) : (tgStart g s).phase = s.phase := rfl
@[simp] theorem tgStart_sdaOut (g : Guard) (s : State) : (tgStart g s).sdaOut = s.sdaOut := rfl
@[simp] theorem tgStart_sclOut (g : Guard) (s : State) : (tgStart g s).sclOut = s.sclOut := rfl
@[simp] theorem tgStart_stopDeferred (g : Guard) (s : State) : (tgStart g s).stopDeferred = s.stopDeferred := rfl
@[simp] theorem tgStart_pullups (g : Guard) (s : State) : (tgStart g s).pullups = s.pullups := rfl
@[simp] theorem tgStart_delay (g : Guard) (s : State) : (tgStart g s).delay = s.delay := rfl
@[simp] theorem tgStart_timeout (g : Guard) (s : State) : (tgStart g s).timeout = s.timeout := rfl
@[simp] theorem tgStart_txbuf (g : Guard) (s : State) : (tgStart g s).txbuf = s.txbuf := rfl
@[simp] theorem tgStart_txlen (g : Guard) (s : State) : (tgStart g s).txlen = s.txlen := rfl
@[simp] theorem tgStart_txpos (g : Guard) (s : State) : (tgStart g s).txpos = s.txpos := rfl
@[simp] theorem tgStart_rxbuf (g : Guard) (s : State) : (tgStart g s).rxbuf = s.rxbuf := rfl
@[simp] theorem tgStart_rxlen (g : Guard) (s : State) : (tgStart g s).rxlen = s.rxlen := rfl
@[simp] theorem tgStart_rxpos (g : Guard) (s : State) : (tgStart g s).rxpos = s.rxpos := rfl
@[simp] theorem tgStart_resp (g : Guard) (s : State) : (tgStart g s).resp = s.resp := rfl
@[simp] theorem tgStart_params (g : Guard) (s : State) : (tgStart g s).params = s.params := rfl
@[simp] theorem tgStart_env (g : Guard) (s : State) : (tgStart g s).env = s.env := rfl
@[simp] theorem tgStart_host (g : Guard) (s : State) : (tgStart g s).host = s.host := rfl
@[simp] theorem tgStart_trace (g : Guard) (s : State) : (tgStart g s).trace = s.trace ++ [.tgStart g s.timeout] := rfl
@[simp] theorem tgStart_draws (g : Guard) (s : State) : (tgStart g s).draws = s.draws := rfl

/-! ## readSda -/

@[simp] theorem readSda_sr (s : State) : (readSda s).2.sr = s.sr := rfl
@[simp] theorem readSda_bitcnt (s : State) : (readSda s).2.bitcnt = s.bitcnt := rfl
@[simp] theorem readSda_taddr (s : State) : (readSda s).2.taddr = s.taddr := rfl
@[simp] theorem readSda_dir (s : State) : (readSda s).2.dir = s.dir := rfl
@[simp] theorem readSda_busy (s : State) : (readSda s).2.busy = s.busy := rfl
@[simp] theorem readSda_phase (s : State) : (readSda s).2.phase = s.phase := rfl
@[simp] theorem readSda_sdaOut (s : State) : (readSda s).2.sdaOut = s.sdaOut := rfl
@[simp] theorem readSda_sclOut (s : State) : (readSda s).2.sclOut = s.sclOut := rfl
@[simp] theorem readSda_stopDeferred (s : State) : (readSda s).2.stopDeferred = s.stopDeferred := rfl
@[simp] theorem readSda_pullups (s : State) : (readSda s).2.pullups = s.pullups := rfl
@[simp] theorem readSda_delay (s : State) : (readSda s).2.delay = s.delay := rfl
@[simp] theorem readSda_timeout (s : State) : (readSda s).2.timeout = s.timeout := rfl
@[simp] theorem readSda_txbuf (s : State) : (readSda s).2.txbuf = s.txbuf := rfl
@[simp] theorem readSda_txlen (s : State) : (readSda s).2.txlen = s.txlen := rfl
@[simp] theorem readSda_txpos (s : State) : (readSda s).2.txpos = s.txpos := rfl
@[simp] theorem readSda_rxbuf (s : State) : (readSda s).2.rxbuf = s.rxbuf := rfl
@[simp] theorem readSda_rxlen (s : State) : (readSda s).2.rxlen = s.rxlen := rfl
@[simp] theorem readSda_rxpos (s : State) : (readSda s).2.rxpos = s.rxpos := rfl
@[simp] theorem readSda_resp (s : State) : (readSda s).2.resp = s.resp := rfl
@[simp] theorem readSda_params (s : State) : (readSda s).2.params = s.params := rfl
@[simp] theorem readSda_env (s : State) : (readSda s).2.env = { s.env with sda := s.env.sda.tail } := rfl
@[simp] theorem readSda_host (s : State) : (readSda s).2.host = s.host := rfl
@[simp] theorem readSda_trace (s : State) : (readSda s).2.trace = s.trace ++ [.readSda s.env.sda.head] := rfl
@[simp] theorem readSda_draws (s : State) : (readSda s).2.draws = s.draws := rfl

/-! ## readScl -/

@[simp] theorem readScl_sr (s : State) : (readScl s).2.sr = s.sr := rfl
@[simp] theorem readScl_bitcnt (s : State) : (readScl s).2.bitcnt = s.bitcnt := rfl
@[simp] theorem readScl_taddr (s : State) : (readScl s).2.taddr = s.taddr := rfl
@[simp] theorem readScl_dir (s : State) : (readScl s).2.dir = s.dir := rfl
@[simp] theorem readScl_busy (s : State) : (readScl s).2.busy = s.busy := rfl
@[simp] theorem readScl_phase (s : State) : (readScl s).2.phase = s.phase := rfl
@[simp] theorem readScl_sdaOut (s : State) : (readScl s).2.sdaOut = s.sdaOut := rfl
@[simp] theorem readScl_sclOut (s : State) : (readScl s).2.sclOut = s.sclOut := rfl
@[simp] theorem readScl_stopDeferred (s : State) : (readScl s).2.stopDeferred = s.stopDeferred := rfl
@[simp] theorem readScl_pullups (s : State) : (readScl s).2.pullups = s.pullups := rfl
@[simp] theorem readScl_delay (s : State) : (readScl s).2.delay = s.delay := rfl
@[simp] theorem readScl_timeout (s : State) : (readScl s).2.timeout = s.timeout := rfl
@[simp] theorem readScl_txbuf (s : State) : (readScl s).2.txbuf = s.txbuf := rfl
@[simp] theorem readScl_txlen (s : State) : (readScl s).2.txlen = s.txlen := rfl
@[simp] theorem readScl_txpos (s : State) : (readScl s).2.txpos = s.txpos := rfl
@[simp] theorem readScl_rxbuf (s : State) : (readScl s).2.rxbuf = s.rxbuf := rfl
@[simp] theorem readScl_rxlen (s : State) : (readScl s).2.rxlen = s.rxlen := rfl
@[simp] theorem readScl_rxpos (s : State) : (readScl s).2.rxpos = s.rxpos := rfl
@[simp] theorem readScl_resp (s : State) : (readScl s).2.resp = s.resp := rfl
@[simp] theorem readScl_params (s : State) : (readScl s).2.params = s.params := rfl
@[simp] theorem readScl_env (s : State) : (readScl s).2.env = { s.env with scl := s.env.scl.tail } := rfl
@[simp] theorem readScl_host (s : State) : (readScl s).2.host = s.host := rfl
@[simp] theorem readScl_trace (s : State) : (readScl s).2.trace = s.trace ++ [.readScl s.env.scl.head] := rfl
@[simp] theorem readScl_draws (s : State) : (readScl s).2.draws = s.draws := rfl

/-! ## tgExpired -/

@[simp] theorem tgExpired_sr (g : Guard) (s : State) : (tgExpired g s).2.sr = s.sr := rfl
@[simp] theorem tgExpired_bitcnt (g : Guard) (s : State) : (tgExpired g s).2.bitcnt = s.bitcnt := rfl
@[simp] theorem tgExpired_taddr (g : Guard) (s : State) : (tgExpired g s).2.taddr = s.taddr := rfl
@[simp] theorem tgExpired_dir (g : Guard) (s : State) : (tgExpired g s).2.dir = s.dir := rfl
@[simp] theorem tgExpired_busy (g : Guard) (s : State) : (tgExpired g s).2.busy = s.busy := rfl
@[simp] theorem tgExpired_phase (g : Guard) (s : State) : (tgExpired g s).2.phase = s.phase := rfl
@[simp] theorem tgExpired_sdaOut (g : Guard) (s : State) : (tgExpired g s).2.sdaOut = s.sdaOut := rfl
@[simp] theorem tgExpired_sclOut (g : Guard) (s : State) : (tgExpired g s).2.sclOut = s.sclOut := rfl
@[simp] theorem tgExpired_stopDeferred (g : Guard) (s : State) : (tgExpired g s).2.stopDeferred = s.stopDeferred := rfl
@[simp] theorem tgExpired_pullups (g : Guard) (s : State) : (tgExpired g s).2.pullups = s.pullups := rfl
@[simp] theorem tgExpired_delay (g : Guard) (s : State) : (tgExpired g s).2.delay = s.delay := rfl
@[simp] theorem tgExpired_timeout (g : Guard) (s : State) : (tgExpired g s).2.timeout = s.timeout := rfl
@[simp] theorem tgExpired_txbuf (g : Guard) (s : State) : (tgExpired g s).2.txbuf = s.txbuf := rfl
@[simp] theorem tgExpired_txlen (g : Guard) (s : State) : (tgExpired g s).2.txlen = s.txlen := rfl
@[simp] theorem tgExpired_txpos (g : Guard) (s : State) : (tgExpired g s).2.txpos = s.txpos := rfl
@[simp] theorem tgExpired_rxbuf (g : Guard) (s : State) : (tgExpired g s).2.rxbuf = s.rxbuf := rfl
@[simp] theorem tgExpired_rxlen (g : Guard) (s : State) : (tgExpired g s).2.rxlen = s.rxlen := rfl
@[simp] theorem tgExpired_rxpos (g : Guard) (s : State) : (tgExpired g s).2.rxpos = s.rxpos := rfl
@[simp] theorem tgExpired_resp (g : Guard) (s : State) : (tgExpired g s).2.resp = s.resp := rfl
@[simp] theorem tgExpired_params (g : Guard) (s : State) : (tgExpired g s).2.params = s.params := rfl
@[simp] theorem tgExpired_env (g : Guard) (s : State) : (tgExpired g s).2.env = s.env.afterQuery g := rfl
@[simp] theorem tgExpired_host (g : Guard) (s : State) : (tgExpired g s).2.host = s.host := rfl
@[simp] theorem tgExpired_trace (g : Guard) (s : State) : (tgExpired g s).2.trace = s.trace ++ [.tgQuery g (s.env.guard g).head] := rfl
@[simp] theorem tgExpired_draws (g : Guard) (s : State) : (tgExpired g s).2.draws = s.draws := rfl

/-! ## enqueueTx -/

@[simp] theorem enqueueTx_sr (b : Byte) (s : State) : (enqueueTx b s).sr = s.sr := rfl
@[simp] theorem enqueueTx_bitcnt (b : Byte) (s : State) : (enqueueTx b s).bitcnt = s.bitcnt := rfl
@[simp] theorem enqueueTx_taddr (b : Byte) (s : State) : (enqueueTx b s).taddr = s.taddr := rfl
@[simp] theorem enqueueTx_dir (b : Byte) (s : State) : (enqueueTx b s).dir = s.dir := rfl
@[simp] theorem enqueueTx_busy (b : Byte) (s : State) : (enqueueTx b s).busy = s.busy := rfl
@[simp] theorem enqueueTx_phase (b : Byte) (s : State) : (enqueueTx b s).phase = s.phase := rfl
@[simp] theorem enqueueTx_sdaOut (b : Byte) (s : State) : (enqueueTx b s).sdaOut = s.sdaOut := rfl
@[simp] theorem enqueueTx_sclOut (b : Byte) (s : State) : (enqueueTx b s).sclOut = s.sclOut := rfl
@[simp] theorem enqueueTx_stopDeferred (b : Byte) (s : State) : (enqueueTx b s).stopDeferred = s.stopDeferred := rfl
@[simp] theorem enqueueTx_pullups (b : Byte) (s : State) : (enqueueTx b s).pullups = s.pullups := rfl
@[simp] theorem enqueueTx_delay (b : Byte) (s : State) : (enqueueTx b s).delay = s.delay := rfl
@[simp] theorem enqueueTx_timeout (b : Byte) (s : State) : (enqueueTx b s).timeout = s.timeout := rfl
@[simp] theorem enqueueTx_txbuf (b : Byte) (s : State) : (enqueueTx b s).txbuf = Memory.write s.txbuf s.txlen.toNat b := rfl
@[simp] theorem enqueueTx_txlen (b : Byte) (s : State) : (enqueueTx b s).txlen = s.txlen + 1 := rfl
@[simp] theorem enqueueTx_txpos (b : Byte) (s : State) : (enqueueTx b s).txpos = s.txpos := rfl
@[simp] theorem enqueueTx_rxbuf (b : Byte) (s : State) : (enqueueTx b s).rxbuf = s.rxbuf := rfl
@[simp] theorem enqueueTx_rxlen (b : Byte) (s : State) : (enqueueTx b s).rxlen = s.rxlen := rfl
@[simp] theorem enqueueTx_rxpos (b : Byte) (s : State) : (enqueueTx b s).rxpos = s.rxpos := rfl
@[simp] theorem enqueueTx_resp (b : Byte) (s : State) : (enqueueTx b s).resp = s.resp := rfl
@[simp] theorem enqueueTx_params (b : Byte) (s : State) : (enqueueTx b s).params = s.params := rfl
@[simp] theorem enqueueTx_env (b : Byte) (s : State) : (enqueueTx b s).env = s.env := rfl
@[simp] theorem enqueueTx_host (b : Byte) (s : State) : (enqueueTx b s).host = s.host := rfl
@[simp] theorem enqueueTx_trace (b : Byte) (s : State) : (enqueueTx b s).trace = s.trace := rfl
@[simp] theorem enqueueTx_draws (b : Byte) (s : State) : (enqueueTx b s).draws = s.draws := rfl

/-! ## enqueueRx -/

@[simp] theorem enqueueRx_sr (b : Byte) (s : State) : (enqueueRx b s).sr = s.sr := rfl
@[simp] theorem enqueueRx_bitcnt (b : Byte) (s : State) : (enqueueRx b s).bitcnt = s.bitcnt := rfl
@[simp] theorem enqueueRx_taddr (b : Byte) (s : State) : (enqueueRx b s).taddr = s.taddr := rfl
@[simp] theorem enqueueRx_dir (b : Byte) (s : State) : (enqueueRx b s).dir = s.dir := rfl
@[simp] theorem enqueueRx_busy (b : Byte) (s : State) : (enqueueRx b s).busy = s.busy := rfl
@[simp] theorem enqueueRx_phase (b : Byte) (s : State) : (enqueueRx b s).phase = s.phase := rfl
@[simp] theorem enqueueRx_sdaOut (b : Byte) (s : State) : (enqueueRx b s).sdaOut = s.sdaOut := rfl
@[simp] theorem enqueueRx_sclOut (b : Byte) (s : State) : (enqueueRx b s).sclOut = s.sclOut := rfl
@[simp] theorem enqueueRx_stopDeferred (b : Byte) (s : State) : (enqueueRx b s).stopDeferred = s.stopDeferred := rfl
@[simp] theorem enqueueRx_pullups (b : Byte) (s : State) : (enqueueRx b s).pullups = s.pullups := rfl
@[simp] theorem enqueueRx_delay (b : Byte) (s : State) : (enqueueRx b s).delay = s.delay := rfl
@[simp] theorem enqueueRx_timeout (b : Byte) (s : State) : (enqueueRx b s).timeout = s.timeout := rfl
@[simp] theorem enqueueRx_txbuf (b : Byte) (s : State) : (enqueueRx b s).txbuf = s.txbuf := rfl
@[simp] theorem enqueueRx_txlen (b : Byte) (s : State) : (enqueueRx b s).txlen = s.txlen := rfl
@[simp] theorem enqueueRx_txpos (b : Byte) (s : State) : (enqueueRx b s).txpos = s.txpos := rfl
@[simp] theorem enqueueRx_rxbuf (b : Byte) (s : State) : (enqueueRx b s).rxbuf = Memory.write s.rxbuf s.rxlen.toNat b := rfl
@[simp] theorem enqueueRx_rxlen (b : Byte) (s : State) : (enqueueRx b s).rxlen = s.rxlen + 1 := rfl
@[simp] theorem enqueueRx_rxpos (b : Byte) (s : State) : (enqueueRx b s).rxpos = s.rxpos := rfl
@[simp] theorem enqueueRx_resp (b : Byte) (s : State) : (enqueueRx b s).resp = s.resp := rfl
@[simp] theorem enqueueRx_params (b : Byte) (s : State) : (enqueueRx b s).params = s.params := rfl
@[simp] theorem enqueueRx_env (b : Byte) (s : State) : (enqueueRx b s).env = s.env := rfl
@[simp] theorem enqueueRx_host (b : Byte) (s : State) : (enqueueRx b s).host = s.host := rfl
@[simp] theorem enqueueRx_trace (b : Byte) (s : State) : (enqueueRx b s).trace = s.trace := rfl
@[simp] theorem enqueueRx_draws (b : Byte) (s : State) : (enqueueRx b s).draws = s.draws := rfl

/-! ## releaseTxpos -/

@[simp] theorem releaseTxpos_sr (s : State) : (releaseTxpos s).sr = s.sr := rfl
@[simp] theorem releaseTxpos_bitcnt (s : State) : (releaseTxpos s).bitcnt = s.bitcnt := rfl
@[simp] theorem releaseTxpos_taddr (s : State) : (releaseTxpos s).taddr = s.taddr := rfl
@[simp] theorem releaseTxpos_dir (s : State) : (releaseTxpos s).dir = s.dir := rfl
@[simp] theorem releaseTxpos_busy (s : State) : (releaseTxpos s).busy = s.busy := rfl
@[simp] theorem releaseTxpos_phase (s : State) : (releaseTxpos s).phase = s.phase := rfl
@[simp] theorem releaseTxpos_sdaOut (s : State) : (releaseTxpos s).sdaOut = s.sdaOut := rfl
@[simp] theorem releaseTxpos_sclOut (s : State) : (releaseTxpos s).sclOut = s.sclOut := rfl
@[simp] theorem releaseTxpos_stopDeferred (s : State) : (releaseTxpos s).stopDeferred = s.stopDeferred := rfl
@[simp] theorem releaseTxpos_pullups (s : State) : (releaseTxpos s).pullups = s.pullups := rfl
@[simp] theorem releaseTxpos_delay (s : State) : (releaseTxpos s).delay = s.delay := rfl
@[simp] theorem releaseTxpos_timeout (s : State) : (releaseTxpos s).timeout = s.timeout := rfl
@[simp] theorem releaseTxpos_txbuf (s : State) : (releaseTxpos s).txbuf = s.txbuf := rfl
@[simp] theorem releaseTxpos_txlen (s : State) : (releaseTxpos s).txlen = s.txlen := rfl
@[simp] theorem releaseTxpos_txpos (s : State) : (releaseTxpos s).txpos = Config.freeByte s.draws := rfl
@[simp] theorem releaseTxpos_rxbuf (s : State) : (releaseTxpos s).rxbuf = s.rxbuf := rfl
@[simp] theorem releaseTxpos_rxlen (s : State) : (releaseTxpos s).rxlen = s.rxlen := rfl
@[simp] theorem releaseTxpos_rxpos (s : State) : (releaseTxpos s).rxpos = s.rxpos := rfl
@[simp] theorem releaseTxpos_resp (s : State) : (releaseTxpos s).resp = s.resp := rfl
@[simp] theorem releaseTxpos_params (s : State) : (releaseTxpos s).params = s.params := rfl
@[simp] theorem releaseTxpos_env (s : State) : (releaseTxpos s).env = s.env := rfl
@[simp] theorem releaseTxpos_host (s : State) : (releaseTxpos s).host = s.host := rfl
@[simp] theorem releaseTxpos_trace (s : State) : (releaseTxpos s).trace = s.trace := rfl
@[simp] theorem releaseTxpos_draws (s : State) : (releaseTxpos s).draws = s.draws + 1 := rfl

/-! ## acceptCommand -/

@[simp] theorem acceptCommand_sr (h : List HostEvent) (s : State) : (acceptCommand h s).sr = s.sr := rfl
@[simp] theorem acceptCommand_bitcnt (h : List HostEvent) (s : State) : (acceptCommand h s).bitcnt = s.bitcnt := rfl
@[simp] theorem acceptCommand_taddr (h : List HostEvent) (s : State) : (acceptCommand h s).taddr = s.taddr := rfl
@[simp] theorem acceptCommand_dir (h : List HostEvent) (s : State) : (acceptCommand h s).dir = s.dir := rfl
@[simp] theorem acceptCommand_busy (h : List HostEvent) (s : State) : (acceptCommand h s).busy = true := rfl
@[simp] theorem acceptCommand_phase (h : List HostEvent) (s : State) : (acceptCommand h s).phase = s.phase := rfl
@[simp] theorem acceptCommand_sdaOut (h : List HostEvent) (s : State) : (acceptCommand h s).sdaOut = s.sdaOut := rfl
@[simp] theorem acceptCommand_sclOut (h : List HostEvent) (s : State) : (acceptCommand h s).sclOut = s.sclOut := rfl
@[simp] theorem acceptCommand_stopDeferred (h : List HostEvent) (s : State) : (acceptCommand h s).stopDeferred = s.stopDeferred := rfl
@[simp] theorem acceptCommand_pullups (h : List HostEvent) (s : State) : (acceptCommand h s).pullups = s.pullups := rfl
@[simp] theorem acceptCommand_delay (h : List HostEvent) (s : State) : (acceptCommand h s).delay = s.delay := rfl
@[simp] theorem acceptCommand_timeout (h : List HostEvent) (s : State) : (acceptCommand h s).timeout = s.timeout := rfl
@[simp] theorem acceptCommand_txbuf (h : List HostEvent) (s : State) : (acceptCommand h s).txbuf = s.txbuf := rfl
@[simp] theorem acceptCommand_txlen (h : List HostEvent) (s : State) : (acceptCommand h s).txlen = s.txlen := rfl
@[simp] theorem acceptCommand_txpos (h : List HostEvent) (s : State) : (acceptCommand h s).txpos = s.txpos := rfl
@[simp] theorem acceptCommand_rxbuf (h : List HostEvent) (s : State) : (acceptCommand h s).rxbuf = s.rxbuf := rfl
@[simp] theorem acceptCommand_rxlen (h : List HostEvent) (s : State) : (acceptCommand h s).rxlen = s.rxlen := rfl
@[simp] theorem acceptCommand_rxpos (h : List HostEvent) (s : State) : (acceptCommand h s).rxpos = s.rxpos := rfl
@[simp] theorem acceptCommand_resp (h : List HostEvent) (s : State) : (acceptCommand h s).resp = none := rfl
@[simp] theorem acceptCommand_params (h : List HostEvent) (s : State) : (acceptCommand h s).params = s.params := rfl
@[simp] theorem acceptCommand_env (h : List HostEvent) (s : State) : (acceptCommand h s).env = s.env := rfl
@[simp] theorem acceptCommand_host (h : List HostEvent) (s : State) : (acceptCommand h s).host = h := rfl
@[simp] theorem acceptCommand_trace (h : List HostEvent) (s : State) : (acceptCommand h s).trace = s.trace := rfl
@[simp] theorem acceptCommand_draws (h : List HostEvent) (s : State) : (acceptCommand h s).draws = s.draws := rfl

/-! ## respond -/

@[simp] theorem respond_sr (w : RespWord) (s : State) : (respond w s).sr = s.sr := rfl
@[simp] theorem respond_bitcnt (w : RespWord) (s : State) : (respond w s).bitcnt = s.bitcnt := rfl
@[simp] theorem respond_taddr (w : RespWord) (s : State) : (respond w s).taddr = s.taddr := rfl
@[simp] theorem respond_dir (w : RespWord) (s : State) : (respond w s).dir = s.dir := rfl
@[simp] theorem respond_busy (w : RespWord) (s : State) : (respond w s).busy = false := rfl
@[simp] theorem respond_phase (w : RespWord) (s : State) : (respond w s).phase = s.phase := rfl
@[simp] theorem respond_sdaOut (w : RespWord) (s : State) : (respond w s).sdaOut = s.sdaOut := rfl
@[simp] theorem respond_sclOut (w : RespWord) (s : State) : (respond w s).sclOut = s.sclOut := rfl
@[simp] theorem respond_stopDeferred (w : RespWord) (s : State) : (respond w s).stopDeferred = s.stopDeferred := rfl
@[simp] theorem respond_pullups (w : RespWord) (s : State) : (respond w s).pullups = s.pullups := rfl
@[simp] theorem respond_delay (w : RespWord) (s : State) : (respond w s).delay = s.delay := rfl
@[simp] theorem respond_timeout (w : RespWord) (s : State) : (respond w s).timeout = s.timeout := rfl
@[simp] theorem respond_txbuf (w : RespWord) (s : State) : (respond w s).txbuf = s.txbuf := rfl
@[simp] theorem respond_txlen (w : RespWord) (s : State) : (respond w s).txlen = s.txlen := rfl
@[simp] theorem respond_txpos (w : RespWord) (s : State) : (respond w s).txpos = s.txpos := rfl
@[simp] theorem respond_rxbuf (w : RespWord) (s : State) : (respond w s).rxbuf = s.rxbuf := rfl
@[simp] theorem respond_rxlen (w : RespWord) (s : State) : (respond w s).rxlen = s.rxlen := rfl
@[simp] theorem respond_rxpos (w : RespWord) (s : State) : (respond w s).rxpos = s.rxpos := rfl
@[simp] theorem respond_resp (w : RespWord) (s : State) : (respond w s).resp = some w := rfl
@[simp] theorem respond_params (w : RespWord) (s : State) : (respond w s).params = s.params := rfl
@[simp] theorem respond_env (w : RespWord) (s : State) : (respond w s).env = s.env := rfl
@[simp] theorem respond_host (w : RespWord) (s : State) : (respond w s).host = s.host := rfl
@[simp] theorem respond_trace (w : RespWord) (s : State) : (respond w s).trace = s.trace := rfl
@[simp] theorem respond_draws (w : RespWord) (s : State) : (respond w s).draws = s.draws := rfl

/-! ## The answers the reading primitives give -/

@[simp] theorem readSda_answer (s : State) : (readSda s).1 = s.env.sda.head := rfl
@[simp] theorem readScl_answer (s : State) : (readScl s).1 = s.env.scl.head := rfl
@[simp] theorem tgExpired_answer (g : Guard) (s : State) : (tgExpired g s).1 = (s.env.guard g).head := rfl

/-! ## sdaBit -/

@[simp] theorem sdaBit_true (s : State) : sdaBit true s = sdaRelease s := rfl
@[simp] theorem sdaBit_false (s : State) : sdaBit false s = sdaLow s := rfl

/-! ## Environments and answers -/

@[simp] theorem guard_gp (e : Env) : e.guard .gp = e.gp := rfl
@[simp] theorem guard_go (e : Env) : e.guard .go = e.go := rfl
@[simp] theorem afterQuery_gp (e : Env) : e.afterQuery .gp = { e with gp := e.gp.tail } := rfl
@[simp] theorem afterQuery_go (e : Env) : e.afterQuery .go = { e with go := e.go.tail } := rfl
@[simp] theorem tail_rest (a : Answers) : a.tail.rest = a.rest := rfl
@[simp] theorem tail_pending (a : Answers) : a.tail.pending = a.pending.tail := rfl
@[simp] theorem drop_rest (a : Answers) (n : Nat) : (a.drop n).rest = a.rest := rfl
@[simp] theorem drop_pending (a : Answers) (n : Nat) : (a.drop n).pending = a.pending.drop n := rfl
@[simp] theorem take_zero (a : Answers) : a.take 0 = [] := rfl
@[simp] theorem take_succ (a : Answers) (n : Nat) : a.take (n + 1) = a.head :: a.tail.take n := rfl
@[simp] theorem drop_zero (a : Answers) : a.drop 0 = a := rfl

theorem tail_drop (a : Answers) (n : Nat) : a.tail.drop n = a.drop (n + 1) := by
  cases h : a.pending <;> simp [Answers.tail, Answers.drop, h]

theorem drop_tail (a : Answers) (n : Nat) : (a.drop n).tail = a.drop (n + 1) := by
  simp [Answers.tail, Answers.drop, List.tail_drop]

theorem drop_drop (a : Answers) (m n : Nat) : (a.drop m).drop n = a.drop (m + n) := by
  simp [Answers.drop, List.drop_drop]

theorem head_of_nil (a : Answers) (h : a.pending = []) : a.head = a.rest := by
  simp [Answers.head, h]

theorem tail_of_nil (a : Answers) (h : a.pending = []) : a.tail = a := by
  cases a; simp_all [Answers.tail]

theorem tail_length (a : Answers) : a.tail.pending.length = a.pending.length - 1 := by
  simp [Answers.tail]

/-- A later answer, in terms of the answers after the first. -/
theorem take_add (a : Answers) (m n : Nat) : a.take (m + n) = a.take m ++ (a.drop m).take n := by
  induction m generalizing a with
  | zero => simp
  | succ m ih => rw [show m + 1 + n = m + n + 1 by omega]; simp [ih, tail_drop]

theorem take_length (a : Answers) (n : Nat) : (a.take n).length = n := by
  induction n generalizing a with
  | zero => rfl
  | succ n ih => simp [ih]

theorem allAre_head {a : Answers} {b : Bool} (h : a.AllAre b) : a.head = b := by
  cases hp : a.pending with
  | nil => rw [head_of_nil a hp]; exact h.2
  | cons x xs => simp only [Answers.head, hp]; exact h.1 x (by simp [hp])

theorem allAre_tail {a : Answers} {b : Bool} (h : a.AllAre b) : a.tail.AllAre b :=
  ⟨fun x hx => h.1 x (List.mem_of_mem_tail hx), h.2⟩

theorem allAre_drop {a : Answers} {b : Bool} (h : a.AllAre b) (n : Nat) : (a.drop n).AllAre b :=
  ⟨fun x hx => h.1 x (List.mem_of_mem_drop hx), h.2⟩

theorem allAre_take {a : Answers} {b : Bool} (h : a.AllAre b) (n : Nat) : a.take n = List.replicate n b := by
  induction n generalizing a with
  | zero => rfl
  | succ n ih => simp [List.replicate_succ, allAre_head h, ih (allAre_tail h)]

end Sys2Proof.Machine
end

