-- ==== Sys2Proof/Laws/Run.lean ====
section
/-! SUPPORT. Sys2Proof/Laws/Run.lean: what the bus operations can do, said once for each: if an operation answers, its
actions extend the trace, the latches are the ones the actions leave, the environment has answered exactly the actions
that ask, and no register off the bus has changed. -/

namespace Sys2Proof.Machine

/-! ## The error monad -/

/-- A bind that ends has ended in both parts. -/
theorem bind_ok {α β : Type} {x : Except Fault α} {f : α → Except Fault β} {r : β} :
    (x >>= f) = .ok r ↔ ∃ a, x = .ok a ∧ f a = .ok r := by
  cases x <;> simp [bind, Except.bind]

@[simp] theorem ok_bind {α β : Type} (a : α) (f : α → Except Fault β) : (Except.ok a >>= f) = f a := rfl
@[simp] theorem error_bind {α β : Type} (e : Fault) (f : α → Except Fault β) :
    ((Except.error e : Except Fault α) >>= f) = .error e := rfl

/-- A command's outcome is a next state exactly when its body ended there. -/
theorem finish_next {r : Except Fault State} {t : State} : finish r = .next t ↔ r = .ok t := by
  cases r <;> simp [finish]

@[simp] theorem finish_ok (t : State) : finish (.ok t) = .next t := rfl

/-! ## Lists of actions -/

@[simp] theorem run_nil (w : Wires) : w.run [] = w := rfl
@[simp] theorem run_cons (w : Wires) (t : Token) (ts : List Token) : w.run (t :: ts) = (w.after t).run ts := rfl
theorem run_append (w : Wires) (xs ys : List Token) : w.run (xs ++ ys) = (w.run xs).run ys := by
  simp [Wires.run, List.foldl_append]

/-- What a list of actions leaves of the monitor. -/
def Monitor.run (m : Monitor) (ts : List Token) : Monitor := ts.foldl Monitor.after m

@[simp] theorem monitor_run_nil (m : Monitor) : m.run [] = m := rfl
@[simp] theorem monitor_run_cons (m : Monitor) (t : Token) (ts : List Token) :
    m.run (t :: ts) = (m.after t).run ts := rfl
theorem monitor_run_append (m : Monitor) (xs ys : List Token) : m.run (xs ++ ys) = (m.run xs).run ys := by
  simp [Monitor.run, List.foldl_append]

theorem accepts_append (m : Monitor) (xs ys : List Token) :
    m.accepts (xs ++ ys) = (m.accepts xs && (m.run xs).accepts ys) := by
  induction xs generalizing m with
  | nil => simp [Monitor.accepts]
  | cons t ts ih => simp [Monitor.accepts, ih, Bool.and_assoc]

theorem conditions_append (w : Wires) (xs ys : List Token) :
    w.conditions (xs ++ ys) = w.conditions xs ++ (w.run xs).conditions ys := by
  induction xs generalizing w with
  | nil => simp [Wires.conditions]
  | cons t ts ih => simp [Wires.conditions, ih]

theorem clocked_append (w : Wires) (xs ys : List Token) :
    w.clocked (xs ++ ys) = w.clocked xs ++ (w.run xs).clocked ys := by
  induction xs generalizing w with
  | nil => simp [Wires.clocked]
  | cons t ts ih => simp [Wires.clocked, ih]

/-! ## The frame off the bus -/

theorem SameOffBus.refl (s : State) : SameOffBus s s := by constructor <;> rfl

theorem SameOffBus.trans {a b c : State} (h : SameOffBus a b) (k : SameOffBus b c) : SameOffBus a c := by
  constructor
  · exact k.taddr.trans h.taddr
  · exact k.dir.trans h.dir
  · exact k.phase.trans h.phase
  · exact k.stopDeferred.trans h.stopDeferred
  · exact k.pullups.trans h.pullups
  · exact k.delay.trans h.delay
  · exact k.timeout.trans h.timeout
  · exact k.txbuf.trans h.txbuf
  · exact k.txlen.trans h.txlen
  · exact k.txpos.trans h.txpos
  · exact k.rxbuf.trans h.rxbuf
  · exact k.rxlen.trans h.rxlen
  · exact k.rxpos.trans h.rxpos
  · exact k.params.trans h.params
  · exact k.host.trans h.host

/-! ## Runs of bus operations -/

/-- `t` is `s` after the actions `ts` of a bus operation. -/
structure BusRun (s t : State) (ts : List Token) : Prop where
  off : SameOffBus s t
  trace : t.trace = s.trace ++ ts
  wires : t.wires = s.wires.run ts
  env : t.env = ts.foldl Env.consume s.env

theorem BusRun.refl (s : State) : BusRun s s [] := ⟨.refl s, by simp, rfl, rfl⟩

theorem BusRun.trans {a b c : State} {xs ys : List Token} (h : BusRun a b xs) (k : BusRun b c ys) :
    BusRun a c (xs ++ ys) :=
  ⟨h.off.trans k.off, by rw [k.trace, h.trace, List.append_assoc], by rw [k.wires, h.wires, run_append],
    by rw [k.env, h.env, List.foldl_append]⟩

theorem busRun_sdaLow (s : State) : BusRun s (sdaLow s) [.sdaLow] := ⟨by constructor <;> rfl, rfl, rfl, rfl⟩
theorem busRun_sdaRelease (s : State) : BusRun s (sdaRelease s) [.sdaRelease] :=
  ⟨by constructor <;> rfl, rfl, rfl, rfl⟩
theorem busRun_sclLow (s : State) : BusRun s (sclLow s) [.sclLow] := ⟨by constructor <;> rfl, rfl, rfl, rfl⟩
theorem busRun_sclRelease (s : State) : BusRun s (sclRelease s) [.sclRelease] :=
  ⟨by constructor <;> rfl, rfl, rfl, rfl⟩
theorem busRun_tgStart (g : Guard) (s : State) : BusRun s (tgStart g s) [.tgStart g s.timeout] :=
  ⟨by constructor <;> rfl, rfl, rfl, rfl⟩
theorem busRun_readSda (s : State) : BusRun s (readSda s).2 [.readSda s.env.sda.head] :=
  ⟨by constructor <;> rfl, rfl, rfl, rfl⟩
theorem busRun_readScl (s : State) : BusRun s (readScl s).2 [.readScl s.env.scl.head] :=
  ⟨by constructor <;> rfl, rfl, rfl, rfl⟩
theorem busRun_tgExpired (g : Guard) (s : State) :
    BusRun s (tgExpired g s).2 [.tgQuery g (s.env.guard g).head] :=
  ⟨by constructor <;> rfl, rfl, rfl, rfl⟩
theorem busRun_sdaBit (b : Bool) (s : State) : BusRun s (sdaBit b s) [dataToken b] := by
  cases b
  · exact busRun_sdaLow s
  · exact busRun_sdaRelease s

/-- `SR`, `BITCNT` and the draw counter are the data path's own: writing them is no action. -/
theorem busRun_dataPath (s : State) (sr : Byte) (bitcnt : BitVec 4) (draws : Nat) :
    BusRun s { s with sr := sr, bitcnt := bitcnt, draws := draws } [] :=
  ⟨by constructor <;> rfl, by simp, rfl, rfl⟩

/-- All that `delay()` can do. -/
theorem bitDelay_run {s t : State} (h : bitDelay s = .ok t) :
    s.env.delayDone.head = true ∧ BusRun s t [.delay s.delay] ∧ t.sr = s.sr ∧ t.bitcnt = s.bitcnt := by
  unfold bitDelay at h
  split at h
  · rename_i hd
    cases h
    exact ⟨hd, ⟨by constructor <;> rfl, rfl, rfl, rfl⟩, rfl, rfl⟩
  · cases h

/-- `delay()` when the environment reports it done. -/
theorem bitDelay_done {s : State} (h : s.env.delayDone.head = true) :
    bitDelay s =
      .ok (emit (.delay s.delay) { s with env := { s.env with delayDone := s.env.delayDone.tail } }) := by
  simp [bitDelay, h]

/-- All that `op_stop(0)` can do: its eight actions (R93). -/
theorem opStopForced_run {s t : State} (h : opStopForced s = .ok t) :
    BusRun s t (stopTokens s.delay) ∧ t.sr = s.sr ∧ t.bitcnt = s.bitcnt := by
  simp only [opStopForced, stopOpen, stopClose, bind_ok, Except.ok.injEq] at h
  obtain ⟨_, ⟨a, ha, b, hb, rfl⟩, c, hc, hd⟩ := h
  obtain ⟨-, ra, sa, ba⟩ := bitDelay_run ha
  obtain ⟨-, rb, sb, bb⟩ := bitDelay_run hb
  obtain ⟨-, rc, sc, bc⟩ := bitDelay_run hc
  obtain ⟨-, rd, sd, bd⟩ := bitDelay_run hd
  have r1 := ((busRun_sclLow s).trans ra).trans ((busRun_sdaLow a).trans rb)
  have r2 := (r1.trans (busRun_sclRelease b)).trans rc
  have r3 := r2.trans ((busRun_sdaRelease c).trans rd)
  refine ⟨?_, by simp [sd, sc, sb, sa], by simp [bd, bc, bb, ba]⟩
  have e1 := r1.off.delay
  have e2 := r2.off.delay
  have e3 := ra.off.delay
  simpa [stopTokens, e1, e2, e3] using r3

/-- All that the timeout abort can do: the eight actions of the forced STOP, and free values in the data path (R199). -/
theorem abort_run {s t : State} (h : abort s = .ok t) : BusRun s t (stopTokens s.delay) := by
  simp only [abort, bind_ok, Except.ok.injEq] at h
  obtain ⟨a, ha, rfl⟩ := h
  simpa using (opStopForced_run ha).1.trans (busRun_dataPath a _ _ _)

/-- One iteration of `wait_scl_high(g)` (R92, R196). -/
theorem waitLoop_succ (g : Guard) (n : Nat) (s : State) :
    waitLoop g (n + 1) s =
      if s.env.scl.head then .ok (true, (readScl s).2)
      else if ((readScl s).2.env.guard g).head then
        (abort (tgExpired g (readScl s).2).2 >>= fun u => .ok (false, u))
      else waitLoop g n (tgExpired g (readScl s).2).2 := rfl

/-- All that `wait_scl_high(g)` can do (R92): some low samples, each with a query that is not expired, and then either a
high sample, or a last low sample, an expired query and the abort. -/
theorem waitLoop_run {g : Guard} {n : Nat} {s t : State} {risen : Bool}
    (h : waitLoop g n s = .ok (risen, t)) :
    ∃ low : List Token, (∀ k ∈ low, k = .readScl false ∨ k = .tgQuery g false) ∧
      ((risen = true ∧ BusRun s t (low ++ [.readScl true]) ∧ t.sr = s.sr ∧ t.bitcnt = s.bitcnt ∧
          t.draws = s.draws) ∨
        (risen = false ∧ BusRun s t (low ++ [.readScl false, .tgQuery g true] ++ stopTokens s.delay))) := by
  induction n generalizing s with
  | zero => cases h
  | succ n ih =>
    rw [waitLoop_succ] at h
    have r1 := busRun_readScl s
    have r2 := busRun_tgExpired g (readScl s).2
    split at h
    · rename_i high
      cases h
      rw [high] at r1
      exact ⟨[], by simp, .inl ⟨rfl, r1, rfl, rfl, rfl⟩⟩
    · rename_i low
      rw [Bool.not_eq_true] at low
      rw [low] at r1
      split at h
      · rename_i expired
        rw [expired] at r2
        simp only [bind_ok, Except.ok.injEq, Prod.mk.injEq] at h
        obtain ⟨u, hu, rfl, rfl⟩ := h
        exact ⟨[], by simp, .inr ⟨rfl, by simpa using (r1.trans r2).trans (abort_run hu)⟩⟩
      · rename_i running
        rw [Bool.not_eq_true] at running
        rw [running] at r2
        obtain ⟨ks, hk, hr⟩ := ih h
        refine ⟨.readScl false :: .tgQuery g false :: ks, by simpa using hk, ?_⟩
        rcases hr with ⟨rfl, rr, a1, a2, a3⟩ | ⟨rfl, rr⟩
        · exact .inl ⟨rfl, by simpa using (r1.trans r2).trans rr, a1, a2, a3⟩
        · exact .inr ⟨rfl, by simpa using (r1.trans r2).trans rr⟩

end Sys2Proof.Machine
end

