-- ==== Sys2Proof/Laws/ByteTransfer.lean ====
section
/-! SUPPORT. Sys2Proof/Laws/ByteTransfer.lean: what STOP, `op_write` and `op_read` can do, each with the shape of its
actions for every environment. -/

namespace Sys2Proof.Machine

/-- Low clock samples, each followed by a query that is not expired. -/
def LowSamples (ks : List Token) : Prop := ∀ k ∈ ks, k = .readScl false ∨ k = .tgQuery .gp false

/-- How a clock wait ends in the trace: with a high sample, or with a last low sample, the expiry and the abort. -/
def waitEnd (risen : Bool) (d : Duration) : List Token :=
  if risen then [.readScl true] else [.readScl false, .tgQuery .gp true] ++ stopTokens d

/-- All that `wait_scl_high(GP)` can do (R92). -/
theorem waitSclHigh_run {s t : State} {risen : Bool} (h : waitSclHigh .gp s = .ok (risen, t)) :
    ∃ low, LowSamples low ∧ BusRun s t (low ++ waitEnd risen s.delay) ∧
      (risen = true → t.sr = s.sr ∧ t.bitcnt = s.bitcnt ∧ t.draws = s.draws) := by
  obtain ⟨low, hl, ⟨rfl, r, a⟩ | ⟨rfl, r⟩⟩ := waitLoop_run h
  · exact ⟨low, hl, by simpa [waitEnd] using r, fun _ => a⟩
  · exact ⟨low, hl, by simpa [waitEnd] using r, by simp⟩

/-- All that the opening of a stop can do (R93). -/
theorem stopOpen_run {s t : State} (h : stopOpen s = .ok t) :
    BusRun s t [.sclLow, .delay s.delay, .sdaLow, .delay s.delay, .sclRelease] ∧ t.sr = s.sr := by
  simp only [stopOpen, bind_ok, Except.ok.injEq] at h
  obtain ⟨a, ha, b, hb, rfl⟩ := h
  obtain ⟨-, ra, sa, -⟩ := bitDelay_run ha
  obtain ⟨-, rb, sb, -⟩ := bitDelay_run hb
  have r1 := (busRun_sclLow s).trans ra
  have r2 := (r1.trans ((busRun_sdaLow a).trans rb)).trans (busRun_sclRelease b)
  exact ⟨by simpa [r1.off.delay, ra.off.delay] using r2, by simp [sb, sa]⟩

/-- All that the close of a stop can do (R93). -/
theorem stopClose_run {s t : State} (h : stopClose s = .ok t) :
    BusRun s t [.delay s.delay, .sdaRelease, .delay s.delay] ∧ t.sr = s.sr := by
  simp only [stopClose, bind_ok] at h
  obtain ⟨a, ha, hb⟩ := h
  obtain ⟨-, ra, sa, -⟩ := bitDelay_run ha
  obtain ⟨-, rb, sb, -⟩ := bitDelay_run hb
  have r := (ra.trans (busRun_sdaRelease a)).trans rb
  exact ⟨by simpa [ra.off.delay] using r, by simp [sb, sa]⟩

/-- All that `op_stop(1)` can do (R93): it ends with the clock seen high and ACK, or with the abort and TIMEDOUT. -/
theorem opStop_stretch_run {s t : State} {r : Status} (h : opStop true s = .ok (r, t)) :
    ∃ low, LowSamples low ∧
      ((r = .ack ∧ t.sr = s.sr ∧
          BusRun s t (.tgStart .gp s.timeout :: .sclLow :: .delay s.delay :: .sdaLow :: .delay s.delay :: .sclRelease ::
            (low ++ [.readScl true, .delay s.delay, .sdaRelease, .delay s.delay]))) ∨
        (r = .timedOut ∧
          BusRun s t (.tgStart .gp s.timeout :: .sclLow :: .delay s.delay :: .sdaLow :: .delay s.delay :: .sclRelease ::
            (low ++ waitEnd false s.delay)))) := by
  simp only [opStop, if_true, bind_ok] at h
  obtain ⟨a, ha, ⟨risen, b⟩, hb, hc⟩ := h
  obtain ⟨ra, sa⟩ := stopOpen_run ha
  obtain ⟨low, hl, rb, fb⟩ := waitSclHigh_run hb
  have r1 := (busRun_tgStart .gp s).trans ra
  have r2 := r1.trans rb
  refine ⟨low, hl, ?_⟩
  cases risen with
  | true =>
    simp only [if_true, bind_ok, Except.ok.injEq, Prod.mk.injEq] at hc
    obtain ⟨c, hc, rfl, rfl⟩ := hc
    obtain ⟨rc, sc⟩ := stopClose_run hc
    refine .inl ⟨rfl, by rw [sc, (fb rfl).1, sa]; rfl, ?_⟩
    simpa [waitEnd, r2.off.delay, ra.off.delay] using r2.trans rc
  | false =>
    simp only [Bool.false_eq_true, if_false, Except.ok.injEq, Prod.mk.injEq] at hc
    obtain ⟨rfl, rfl⟩ := hc
    exact .inr ⟨rfl, by simpa [r1.off.delay] using r2⟩

/-- All that `op_stop(0)` can do as a STOP (R93): it always ends with ACK. -/
theorem opStop_forced_run {s t : State} {r : Status} (h : opStop false s = .ok (r, t)) :
    r = .ack ∧ BusRun s t (stopTokens s.delay) ∧ t.sr = s.sr := by
  simp only [opStop, Bool.false_eq_true, if_false, bind_ok, Except.ok.injEq, Prod.mk.injEq] at h
  obtain ⟨a, ha, rfl, rfl⟩ := h
  obtain ⟨ra, sa, -⟩ := opStopForced_run ha
  exact ⟨rfl, ra, sa⟩

/-! ## op_write -/

/-- The bits `n - 1` down to 0 of a byte: those of the data pulses still to come. -/
def lowBits (sr : Byte) : Nat → List Bool
  | 0 => []
  | n + 1 => sr.getLsbD n :: lowBits sr n

theorem lowBits_eight (b : Byte) : lowBits b 8 = bitsMsb b := rfl

theorem lowBits_length (sr : Byte) (n : Nat) : (lowBits sr n).length = n := by
  induction n with
  | zero => rfl
  | succ n ih => simp [lowBits, ih]

/-- One data pulse of a byte write, up to the guard's answer (R120). -/
theorem writeBits_succ (n : Nat) (s : State) :
    writeBits (n + 1) s =
      (bitDelay (sdaBit (s.sr.getLsbD n) (sclLow { s with bitcnt := BitVec.ofNat 4 (n + 1) })) >>= fun a =>
        bitDelay (sclRelease a) >>= fun b =>
          if b.env.gp.head then (abort (tgExpired .gp b).2 >>= fun u => .ok (false, u))
          else writeBits n (tgExpired .gp b).2) := rfl

/-- All that the data pulses of a byte write can do (R120): all of them with the guard not expired, or the first few, one
whose query is answered "expired", and the abort. -/
theorem writeBits_run {n : Nat} {s t : State} {sent : Bool} (h : writeBits n s = .ok (sent, t)) :
    (sent = true ∧ BusRun s t ((lowBits s.sr n).flatMap (writePulse s.delay false)) ∧ t.sr = s.sr ∧ t.bitcnt = 0) ∨
      (sent = false ∧ ∃ done b rest, lowBits s.sr n = done ++ b :: rest ∧
        BusRun s t (done.flatMap (writePulse s.delay false) ++ writePulse s.delay true b ++ stopTokens s.delay)) := by
  induction n generalizing s with
  | zero =>
    cases h
    exact .inl ⟨rfl, by simpa [lowBits] using busRun_dataPath s s.sr 0 s.draws, rfl, rfl⟩
  | succ n ih =>
    simp only [writeBits_succ, bind_ok] at h
    obtain ⟨a, ha, b, hb, h⟩ := h
    obtain ⟨-, ra, sa, -⟩ := bitDelay_run ha
    obtain ⟨-, rb, sb, -⟩ := bitDelay_run hb
    have r0 := (busRun_dataPath s s.sr (BitVec.ofNat 4 (n + 1)) s.draws).trans (busRun_sclLow _)
    have r1 := (r0.trans (busRun_sdaBit (s.sr.getLsbD n) _)).trans ra
    have r2 := (r1.trans (busRun_sclRelease a)).trans rb
    have r3 := r2.trans (busRun_tgExpired .gp b)
    have d1 : (sclRelease a).delay = s.delay := r1.off.delay
    have d3 := r3.off.delay
    have hs : b.sr = s.sr := by
      rw [sb, sclRelease_sr, sa]; cases s.sr.getLsbD n <;> rfl
    have dd : (sdaBit (s.sr.getLsbD n) (sclLow { s with bitcnt := BitVec.ofNat 4 (n + 1) })).delay = s.delay := by
      cases s.sr.getLsbD n <;> rfl
    rw [dd, d1] at r3
    split at h
    · rename_i expired
      simp only [bind_ok, Except.ok.injEq, Prod.mk.injEq] at h
      obtain ⟨u, hu, rfl, rfl⟩ := h
      have r4 := r3.trans (abort_run hu)
      refine .inr ⟨rfl, [], s.sr.getLsbD n, lowBits s.sr n, rfl, ?_⟩
      rw [d3] at r4
      simpa [writePulse, expired] using r4
    · rename_i running
      rw [Bool.not_eq_true] at running
      have hs' : ((tgExpired .gp b).2).sr = s.sr := hs
      have r3' : BusRun s (tgExpired .gp b).2 (writePulse s.delay false (s.sr.getLsbD n)) := by
        simpa [writePulse, running] using r3
      rcases ih h with ⟨rfl, r, hr, hb0⟩ | ⟨rfl, done, x, rest, hx, r⟩
      · refine .inl ⟨rfl, ?_, hr.trans hs, hb0⟩
        rw [hs', d3] at r
        simpa [lowBits] using r3'.trans r
      · refine .inr ⟨rfl, s.sr.getLsbD n :: done, x, rest, ?_, ?_⟩
        · rw [lowBits, ← hs', hx]; rfl
        · rw [d3] at r
          simpa using r3'.trans r

/-- All that the acknowledge pulse of a byte write can do (R120). -/
theorem writeAck_run {s t : State} {r : Status} (h : writeAck s = .ok (r, t)) :
    ∃ low, LowSamples low ∧
      ((∃ nack : Bool, r = (if nack then .nack else .ack) ∧ t.sr = s.sr ∧ t.bitcnt = s.bitcnt ∧
          BusRun s t (.sclLow :: .sdaRelease :: .delay s.delay :: .sclRelease ::
            (low ++ [.readScl true, .readSda nack, .sclLow]))) ∨
        (r = .timedOut ∧ BusRun s t (.sclLow :: .sdaRelease :: .delay s.delay :: .sclRelease ::
            (low ++ waitEnd false s.delay)))) := by
  simp only [writeAck, bind_ok] at h
  obtain ⟨a, ha, ⟨risen, b⟩, hb, hc⟩ := h
  obtain ⟨-, ra, sa, ba⟩ := bitDelay_run ha
  obtain ⟨low, hl, rb, fb⟩ := waitSclHigh_run hb
  have r1 := ((busRun_sclLow s).trans (busRun_sdaRelease _)).trans ra
  have r2 := (r1.trans (busRun_sclRelease a)).trans rb
  refine ⟨low, hl, ?_⟩
  cases risen with
  | true =>
    simp only [if_true, Except.ok.injEq, Prod.mk.injEq] at hc
    obtain ⟨rfl, rfl⟩ := hc
    obtain ⟨f1, f2, -⟩ := fb rfl
    refine .inl ⟨b.env.sda.head, rfl, ?_, ?_, ?_⟩
    · simp [f1, sa]
    · simp [f2, ba]
    · simpa [waitEnd] using (r2.trans (busRun_readSda b)).trans (busRun_sclLow _)
  | false =>
    simp only [Bool.false_eq_true, if_false, Except.ok.injEq, Prod.mk.injEq] at hc
    obtain ⟨rfl, rfl⟩ := hc
    refine .inr ⟨rfl, ?_⟩
    have d : (sclRelease a).delay = s.delay := r1.off.delay
    rw [d] at r2
    simpa using r2

/-- All that `op_write(data)` can do (R120, R122): the nine pulses and the acknowledge sample, or an abort in a data pulse,
or an abort in the acknowledge pulse. -/
theorem opWrite_run {data : Byte} {s t : State} {r : Status} (h : opWrite data s = .ok (r, t)) :
    (∃ nack low, LowSamples low ∧ r = (if nack then .nack else .ack) ∧ t.sr = data ∧ t.bitcnt = 0 ∧
      BusRun s t (.tgStart .gp s.timeout :: ((bitsMsb data).flatMap (writePulse s.delay false) ++
        .sclLow :: .sdaRelease :: .delay s.delay :: .sclRelease ::
          (low ++ [.readScl true, .readSda nack, .sclLow])))) ∨
    (r = .timedOut ∧ ((∃ done b rest, bitsMsb data = done ++ b :: rest ∧
      BusRun s t (.tgStart .gp s.timeout :: (done.flatMap (writePulse s.delay false) ++ writePulse s.delay true b ++
        stopTokens s.delay))) ∨
      (∃ low, LowSamples low ∧
        BusRun s t (.tgStart .gp s.timeout :: ((bitsMsb data).flatMap (writePulse s.delay false) ++
          .sclLow :: .sdaRelease :: .delay s.delay :: .sclRelease :: (low ++ waitEnd false s.delay)))))) := by
  simp only [opWrite, bind_ok] at h
  obtain ⟨⟨sent, a⟩, ha, hb⟩ := h
  have r0 := (busRun_tgStart .gp s).trans
    (busRun_dataPath (tgStart .gp s) data (tgStart .gp s).bitcnt (tgStart .gp s).draws)
  have hw := writeBits_run ha
  rw [lowBits_eight] at hw
  rcases hw with ⟨rfl, ra, sa, ba⟩ | ⟨rfl, done, b, rest, hx, ra⟩
  · simp only [if_true] at hb
    have r1 := r0.trans ra
    obtain ⟨low, hl, ⟨nack, rfl, st, bt, rb⟩ | ⟨rfl, rb⟩⟩ := writeAck_run hb
    · refine .inl ⟨nack, low, hl, rfl, by rw [st, sa], by rw [bt, ba], ?_⟩
      rw [r1.off.delay] at rb
      simpa using r1.trans rb
    · refine .inr ⟨rfl, .inr ⟨low, hl, ?_⟩⟩
      rw [r1.off.delay] at rb
      simpa using r1.trans rb
  · simp only [Bool.false_eq_true, if_false, Except.ok.injEq, Prod.mk.injEq] at hb
    obtain ⟨rfl, rfl⟩ := hb
    exact .inr ⟨rfl, .inl ⟨done, b, rest, hx, by simpa using r0.trans ra⟩⟩

/-! ## op_read -/

/-- One data pulse of a byte read (R123). -/
theorem readBits_succ (n : Nat) (s : State) :
    readBits (n + 1) s =
      (bitDelay (sdaRelease (sclLow { s with bitcnt := BitVec.ofNat 4 (n + 1) })) >>= fun a =>
        bitDelay (sclRelease a) >>= fun b =>
          waitSclHigh .gp b >>= fun p =>
            if p.1 then readBits n { (readSda p.2).2 with sr := shiftIn p.2.sr p.2.env.sda.head }
            else .ok (false, p.2)) := rfl

/-- The shape of the data pulses of a byte read, for the bits they sample (R123). -/
inductive ReadPulses (d : Duration) : List Bool → List Token → Prop where
  | none : ReadPulses d [] []
  | pulse (b : Bool) {low : List Token} {bs : List Bool} {ts : List Token} (hl : LowSamples low)
      (h : ReadPulses d bs ts) :
      ReadPulses d (b :: bs) (.sclLow :: .sdaRelease :: .delay d :: .sclRelease :: .delay d ::
        (low ++ .readScl true :: .readSda b :: ts))

/-- `SR` after the bits `bs` have been shifted in (R126). -/
def shiftAll (sr : Byte) (bs : List Bool) : Byte := bs.foldl shiftIn sr

/-- All that the data pulses of a byte read can do (R123): all of them, each bit sampled once after the clock has been
seen high, or some of them and then a pulse whose wait expires, and the abort. -/
theorem readBits_run {n : Nat} {s t : State} {received : Bool} (h : readBits n s = .ok (received, t)) :
    (received = true ∧ ∃ bs ts, bs.length = n ∧ ReadPulses s.delay bs ts ∧ BusRun s t ts ∧
        t.sr = shiftAll s.sr bs ∧ t.bitcnt = 0) ∨
      (received = false ∧ ∃ bs ts low, bs.length < n ∧ ReadPulses s.delay bs ts ∧ LowSamples low ∧
        BusRun s t (ts ++ .sclLow :: .sdaRelease :: .delay s.delay :: .sclRelease :: .delay s.delay ::
          (low ++ waitEnd false s.delay))) := by
  induction n generalizing s with
  | zero =>
    cases h
    exact .inl ⟨rfl, [], [], rfl, .none, busRun_dataPath s s.sr 0 s.draws, rfl, rfl⟩
  | succ n ih =>
    simp only [readBits_succ, bind_ok] at h
    obtain ⟨a, ha, b, hb, ⟨risen, c⟩, hc, h⟩ := h
    obtain ⟨-, ra, sa, -⟩ := bitDelay_run ha
    obtain ⟨-, rb, sb, -⟩ := bitDelay_run hb
    obtain ⟨low, hl, rc, fc⟩ := waitSclHigh_run hc
    have r0 := (busRun_dataPath s s.sr (BitVec.ofNat 4 (n + 1)) s.draws).trans (busRun_sclLow _)
    have r1 := (r0.trans (busRun_sdaRelease _)).trans ra
    have r2 := (r1.trans (busRun_sclRelease a)).trans rb
    have r3 := r2.trans rc
    have d1 : (sclRelease a).delay = s.delay := r1.off.delay
    have d2 := r2.off.delay
    have d3 := r3.off.delay
    rw [d1, d2] at r3
    cases risen with
    | false =>
      simp only [Bool.false_eq_true, if_false, Except.ok.injEq, Prod.mk.injEq] at h
      obtain ⟨rfl, rfl⟩ := h
      exact .inr ⟨rfl, [], [], low, by simp, .none, hl, by simpa using r3⟩
    | true =>
      simp only [if_true] at h
      have r4 := (r3.trans (busRun_readSda c)).trans
        (busRun_dataPath (readSda c).2 (shiftIn c.sr c.env.sda.head) (readSda c).2.bitcnt (readSda c).2.draws)
      have hsr : c.sr = s.sr := by rw [(fc rfl).1, sb, sclRelease_sr, sa]; rfl
      have sr4 : (shiftIn c.sr c.env.sda.head) = shiftIn s.sr c.env.sda.head := by rw [hsr]
      have hs4 : ({ (readSda c).2 with sr := shiftIn c.sr c.env.sda.head } : State).sr = shiftIn c.sr c.env.sda.head := rfl
      generalize ({ (readSda c).2 with sr := shiftIn c.sr c.env.sda.head } : State) = c' at h r4 hs4
      have d4 := r4.off.delay
      rcases ih h with ⟨rfl, bs, ts, hlen, hp, r, hr, hb0⟩ | ⟨rfl, bs, ts, low', hlen, hp, hl', r⟩
      · rw [d4] at hp
        refine .inl ⟨rfl, c.env.sda.head :: bs, _, by simp [hlen], .pulse _ hl hp, ?_, ?_, hb0⟩
        · simpa [waitEnd] using r4.trans r
        · rw [hr, hs4, sr4]; rfl
      · rw [d4] at hp r
        refine .inr ⟨rfl, c.env.sda.head :: bs, _, low', by simpa using hlen, .pulse _ hl hp, hl', ?_⟩
        simpa [waitEnd] using r4.trans r

/-- All that the acknowledge pulse of a byte read can do (R123). -/
theorem readAck_run {sendAck : Bool} {s t : State} {r : Status} (h : readAck sendAck s = .ok (r, t)) :
    ∃ low, LowSamples low ∧
      ((r = .ack ∧ t.sr = s.sr ∧ t.bitcnt = s.bitcnt ∧
          BusRun s t (.sclLow :: dataToken (!sendAck) :: .delay s.delay :: .sclRelease ::
            (low ++ [.readScl true, .sclLow]))) ∨
        (r = .timedOut ∧ BusRun s t (.sclLow :: dataToken (!sendAck) :: .delay s.delay :: .sclRelease ::
            (low ++ waitEnd false s.delay)))) := by
  simp only [readAck, bind_ok] at h
  obtain ⟨a, ha, ⟨risen, b⟩, hb, hc⟩ := h
  obtain ⟨-, ra, sa, ba⟩ := bitDelay_run ha
  obtain ⟨low, hl, rb, fb⟩ := waitSclHigh_run hb
  have r1 := ((busRun_sclLow s).trans (busRun_sdaBit (!sendAck) _)).trans ra
  have r2 := (r1.trans (busRun_sclRelease a)).trans rb
  have d1 : (sclRelease a).delay = s.delay := r1.off.delay
  have d0 : (sdaBit (!sendAck) (sclLow s)).delay = s.delay := by cases sendAck <;> rfl
  rw [d1, d0] at r2
  refine ⟨low, hl, ?_⟩
  cases risen with
  | true =>
    simp only [if_true, Except.ok.injEq, Prod.mk.injEq] at hc
    obtain ⟨rfl, rfl⟩ := hc
    obtain ⟨f1, f2, -⟩ := fb rfl
    refine .inl ⟨rfl, ?_, ?_, by simpa [waitEnd] using r2.trans (busRun_sclLow b)⟩
    · rw [sclLow_sr, f1, sclRelease_sr, sa]; cases sendAck <;> rfl
    · rw [sclLow_bitcnt, f2, sclRelease_bitcnt, ba]; cases sendAck <;> rfl
  | false =>
    simp only [Bool.false_eq_true, if_false, Except.ok.injEq, Prod.mk.injEq] at hc
    obtain ⟨rfl, rfl⟩ := hc
    exact .inr ⟨rfl, by simpa using r2⟩

/-- All that `op_read(sendAck)` can do (R123, R125): the nine pulses, with the byte of the eight sampled bits, or an abort
in a data pulse, or an abort in the acknowledge pulse. -/
theorem opRead_run {sendAck : Bool} {s t : State} {r : Status} {byte : Byte}
    (h : opRead sendAck s = .ok (r, byte, t)) :
    byte = t.sr ∧
    ((r = .ack ∧ ∃ bs ts low, bs.length = 8 ∧ ReadPulses s.delay bs ts ∧ LowSamples low ∧
        byte = shiftAll 0 bs ∧ t.bitcnt = 0 ∧
        BusRun s t (.tgStart .gp s.timeout :: (ts ++ .sclLow :: dataToken (!sendAck) :: .delay s.delay ::
          .sclRelease :: (low ++ [.readScl true, .sclLow])))) ∨
      (r = .timedOut ∧ ∃ bs ts low bit, ReadPulses s.delay bs ts ∧ LowSamples low ∧
        ((bs.length < 8 ∧ bit = true ∧
            BusRun s t (.tgStart .gp s.timeout :: (ts ++ .sclLow :: dataToken bit :: .delay s.delay :: .sclRelease ::
              .delay s.delay :: (low ++ waitEnd false s.delay)))) ∨
          (bs.length = 8 ∧ bit = !sendAck ∧
            BusRun s t (.tgStart .gp s.timeout :: (ts ++ .sclLow :: dataToken bit :: .delay s.delay :: .sclRelease ::
              (low ++ waitEnd false s.delay))))))) := by
  simp only [opRead, bind_ok] at h
  obtain ⟨⟨received, a⟩, ha, hb⟩ := h
  have r0 := (busRun_tgStart .gp s).trans
    (busRun_dataPath (tgStart .gp s) 0 (tgStart .gp s).bitcnt (tgStart .gp s).draws)
  rcases readBits_run ha with ⟨rfl, bs, ts, hlen, hp, ra, sa, ba⟩ | ⟨rfl, bs, ts, low, hlen, hp, hl, ra⟩
  · simp only [if_true, bind_ok, Except.ok.injEq, Prod.mk.injEq] at hb
    obtain ⟨⟨r', b⟩, hb, rfl, rfl, rfl⟩ := hb
    have r1 := r0.trans ra
    obtain ⟨low, hl, ⟨rfl, st, bt, rb⟩ | ⟨rfl, rb⟩⟩ := readAck_run hb
    · refine ⟨rfl, .inl ⟨rfl, bs, ts, low, hlen, hp, hl, by rw [st, sa], by rw [bt, ba], ?_⟩⟩
      rw [r1.off.delay] at rb
      simpa using r1.trans rb
    · refine ⟨rfl, .inr ⟨rfl, bs, ts, low, !sendAck, hp, hl, .inr ⟨hlen, rfl, ?_⟩⟩⟩
      rw [r1.off.delay] at rb
      simpa using r1.trans rb
  · simp only [Bool.false_eq_true, if_false, Except.ok.injEq, Prod.mk.injEq] at hb
    obtain ⟨rfl, rfl, rfl⟩ := hb
    refine ⟨rfl, .inr ⟨rfl, bs, ts, low, true, hp, hl, .inl ⟨hlen, rfl, ?_⟩⟩⟩
    simpa [dataToken] using r0.trans ra

end Sys2Proof.Machine
end

