-- ==== Sys2Proof/Laws/BusConditions.lean ====
section
/-! SUPPORT. Sys2Proof/Laws/BusConditions.lean: the shapes of the byte operations' actions under one name each, and what
`op_start`, `op_rstart`, `op_startwait` and the transaction's address phase can do. -/

namespace Sys2Proof.Machine

/-- The actions of an `op_write` that ends with `r` (R120, R122). -/
inductive WriteShape (d t : Duration) (data : Byte) : Status → List Token → Prop where
  | complete (nack : Bool) {low : List Token} (hl : LowSamples low) :
      WriteShape d t data (if nack then .nack else .ack)
        (.tgStart .gp t :: ((bitsMsb data).flatMap (writePulse d false) ++
          .sclLow :: .sdaRelease :: .delay d :: .sclRelease :: (low ++ [.readScl true, .readSda nack, .sclLow])))
  | inData {done rest : List Bool} {b : Bool} (h : bitsMsb data = done ++ b :: rest) :
      WriteShape d t data .timedOut
        (.tgStart .gp t :: (done.flatMap (writePulse d false) ++ writePulse d true b ++ stopTokens d))
  | inAck {low : List Token} (hl : LowSamples low) :
      WriteShape d t data .timedOut
        (.tgStart .gp t :: ((bitsMsb data).flatMap (writePulse d false) ++
          .sclLow :: .sdaRelease :: .delay d :: .sclRelease :: (low ++ waitEnd false d)))

/-- `op_write` in one line: its shape, its run, and what it leaves in the data path. -/
theorem opWrite_shape {data : Byte} {s t : State} {r : Status} (h : opWrite data s = .ok (r, t)) :
    ∃ ts, WriteShape s.delay s.timeout data r ts ∧ BusRun s t ts ∧
      (r ≠ .timedOut → t.sr = data ∧ t.bitcnt = 0) := by
  rcases opWrite_run h with ⟨nack, low, hl, rfl, hs, hb, hr⟩ | ⟨rfl, ⟨done, b, rest, hx, hr⟩ | ⟨low, hl, hr⟩⟩
  · exact ⟨_, .complete nack hl, hr, fun _ => ⟨hs, hb⟩⟩
  · exact ⟨_, .inData hx, hr, by simp⟩
  · exact ⟨_, .inAck hl, hr, by simp⟩

/-- The actions of an `op_stop(1)` that ends with `r` (R93). -/
inductive StopShape (d t : Duration) : Status → List Token → Prop where
  | complete {low : List Token} (hl : LowSamples low) :
      StopShape d t .ack (.tgStart .gp t :: .sclLow :: .delay d :: .sdaLow :: .delay d :: .sclRelease ::
        (low ++ [.readScl true, .delay d, .sdaRelease, .delay d]))
  | expired {low : List Token} (hl : LowSamples low) :
      StopShape d t .timedOut (.tgStart .gp t :: .sclLow :: .delay d :: .sdaLow :: .delay d :: .sclRelease ::
        (low ++ waitEnd false d))

/-- `op_stop(1)` in one line. -/
theorem opStop_shape {s t : State} {r : Status} (h : opStop true s = .ok (r, t)) :
    ∃ ts, StopShape s.delay s.timeout r ts ∧ BusRun s t ts := by
  obtain ⟨low, hl, ⟨rfl, -, hr⟩ | ⟨rfl, hr⟩⟩ := opStop_stretch_run h
  · exact ⟨_, .complete hl, hr⟩
  · exact ⟨_, .expired hl, hr⟩

/-- The actions of an `op_read` that ends with `r`, for the bits it sampled (R123, R125). -/
inductive ReadShape (d t : Duration) (sendAck : Bool) : Status → List Bool → List Token → Prop where
  | complete {bs : List Bool} {ts low : List Token} (hb : bs.length = 8) (hp : ReadPulses d bs ts)
      (hl : LowSamples low) :
      ReadShape d t sendAck .ack bs (.tgStart .gp t :: (ts ++ .sclLow :: dataToken (!sendAck) :: .delay d ::
        .sclRelease :: (low ++ [.readScl true, .sclLow])))
  | inData {bs : List Bool} {ts low : List Token} (hb : bs.length < 8) (hp : ReadPulses d bs ts)
      (hl : LowSamples low) :
      ReadShape d t sendAck .timedOut bs (.tgStart .gp t :: (ts ++ .sclLow :: .sdaRelease :: .delay d ::
        .sclRelease :: .delay d :: (low ++ waitEnd false d)))
  | inAck {bs : List Bool} {ts low : List Token} (hb : bs.length = 8) (hp : ReadPulses d bs ts)
      (hl : LowSamples low) :
      ReadShape d t sendAck .timedOut bs (.tgStart .gp t :: (ts ++ .sclLow :: dataToken (!sendAck) :: .delay d ::
        .sclRelease :: (low ++ waitEnd false d)))

/-- `op_read` in one line: the byte is the one of the sampled bits when it completes. -/
theorem opRead_shape {sendAck : Bool} {s t : State} {r : Status} {byte : Byte}
    (h : opRead sendAck s = .ok (r, byte, t)) :
    ∃ bs ts, ReadShape s.delay s.timeout sendAck r bs ts ∧ BusRun s t ts ∧ byte = t.sr ∧
      (r = .ack → byte = shiftAll 0 bs ∧ t.bitcnt = 0) := by
  obtain ⟨hb, ⟨rfl, bs, ts, low, hlen, hp, hl, hbyte, hcnt, hr⟩ |
    ⟨rfl, bs, ts, low, bit, hp, hl, ⟨hlen, rfl, hr⟩ | ⟨hlen, rfl, hr⟩⟩⟩ := opRead_run h
  · exact ⟨bs, _, .complete hlen hp hl, hr, hb, fun _ => ⟨hbyte, hcnt⟩⟩
  · exact ⟨bs, _, .inData hlen hp hl, by simpa [dataToken] using hr, hb, by simp⟩
  · exact ⟨bs, _, .inAck hlen hp hl, hr, hb, by simp⟩

/-- All that `op_start(raw)` can do (R95). -/
theorem opStart_run {raw : Byte} {s t : State} {r : Status} (h : opStart raw s = .ok (r, t)) :
    ∃ ts, WriteShape s.delay s.timeout raw r ts ∧ BusRun s t (startTokens s.delay ++ ts) ∧
      (r ≠ .timedOut → t.sr = raw ∧ t.bitcnt = 0) := by
  simp only [opStart, bind_ok] at h
  obtain ⟨a, ha, b, hb, h⟩ := h
  obtain ⟨-, ra, -, -⟩ := bitDelay_run ha
  obtain ⟨-, rb, -, -⟩ := bitDelay_run hb
  have r1 := (busRun_sdaLow s).trans ra
  have r2 := r1.trans ((busRun_sclLow a).trans rb)
  obtain ⟨ts, hw, rw', hs⟩ := opWrite_shape h
  have d2 := r2.off.delay
  have t2 := r2.off.timeout
  rw [d2, t2] at hw
  refine ⟨ts, hw, ?_, hs⟩
  simpa [startTokens, r1.off.delay, ra.off.delay] using r2.trans rw'

/-- All that `op_rstart(raw)` can do (R97). -/
theorem opRstart_run {raw : Byte} {s t : State} {r : Status} (h : opRstart raw s = .ok (r, t)) :
    ∃ ts, WriteShape s.delay s.timeout raw r ts ∧ BusRun s t (rstartTokens s.delay ++ ts) ∧
      (r ≠ .timedOut → t.sr = raw ∧ t.bitcnt = 0) := by
  simp only [opRstart, bind_ok] at h
  obtain ⟨a, ha, b, hb, c, hc, h⟩ := h
  obtain ⟨-, ra, -, -⟩ := bitDelay_run ha
  obtain ⟨-, rb, -, -⟩ := bitDelay_run hb
  obtain ⟨-, rc, -, -⟩ := bitDelay_run hc
  have r1 := (busRun_sdaRelease s).trans ra
  have r2 := r1.trans ((busRun_sclRelease a).trans rb)
  have r3 := r2.trans ((busRun_sdaLow b).trans rc)
  obtain ⟨ts, hw, rw', hs⟩ := opWrite_shape h
  rw [r3.off.delay, r3.off.timeout] at hw
  refine ⟨ts, hw, ?_, hs⟩
  have e : (sdaLow b).delay = s.delay := r2.off.delay
  have e' : (sclRelease a).delay = s.delay := r1.off.delay
  have r4 := r3.trans rw'
  rw [e, e'] at r4
  simpa [rstartTokens] using r4

/-- All that the address phase of a transaction can do (R143). -/
theorem opTstart_run {raw : Byte} {s t : State} {r : Status} (h : opTstart raw s = .ok (r, t)) :
    ∃ ts, WriteShape s.delay s.timeout raw r ts ∧ BusRun s t (openTokens s.stopDeferred s.delay ++ ts) ∧
      (r ≠ .timedOut → t.sr = raw ∧ t.bitcnt = 0) := by
  unfold opTstart at h
  unfold openTokens
  split at h
  · rename_i hd
    rw [if_pos hd]; exact opRstart_run h
  · rename_i hd
    rw [if_neg hd]; exact opStart_run h

/-- The actions of the loop of `op_startwait(raw)` that ends with `r` (R99). -/
inductive StartWaitShape (d t : Duration) (raw : Byte) : Status → List Token → Prop where
  | expired : StartWaitShape d t raw .timedOut [.tgQuery .go true]
  | acked {ts : List Token} (hw : WriteShape d t raw .ack ts) :
      StartWaitShape d t raw .ack (.tgQuery .go false :: (startTokens d ++ ts))
  | retried {r r' : Status} {ts ss us : List Token} (hw : WriteShape d t raw .nack ts) (hs : StopShape d t r' ss)
      (hu : StartWaitShape d t raw r us) :
      StartWaitShape d t raw r (.tgQuery .go false :: (startTokens d ++ ts ++ ss ++ us))
  | fatal {r' : Status} {ts ss : List Token} (hw : WriteShape d t raw .timedOut ts) (hs : StopShape d t r' ss) :
      StartWaitShape d t raw .timedOut (.tgQuery .go false :: (startTokens d ++ ts ++ ss))

/-- One attempt of START-with-wait (R99). -/
theorem startWaitLoop_succ (raw : Byte) (n : Nat) (s : State) :
    startWaitLoop raw (n + 1) s =
      if s.env.go.head then .ok (.timedOut, (tgExpired .go s).2)
      else (opStart raw (tgExpired .go s).2 >>= fun p =>
        match p.1 with
        | .ack => .ok (.ack, p.2)
        | .nack => opStop true p.2 >>= fun q => startWaitLoop raw n q.2
        | .timedOut => opStop true p.2 >>= fun q => .ok (.timedOut, q.2)) := by
  rw [startWaitLoop]
  rfl

/-- All that the loop of `op_startwait(raw)` can do (R99). -/
theorem startWaitLoop_run {raw : Byte} {n : Nat} {s t : State} {r : Status}
    (h : startWaitLoop raw n s = .ok (r, t)) :
    ∃ ts, StartWaitShape s.delay s.timeout raw r ts ∧ BusRun s t ts ∧ (r = .ack → t.sr = raw ∧ t.bitcnt = 0) := by
  induction n generalizing s with
  | zero => cases h
  | succ n ih =>
    rw [startWaitLoop_succ] at h
    have r1 := busRun_tgExpired .go s
    split at h
    · rename_i expired
      cases h
      rw [guard_go, expired] at r1
      exact ⟨_, .expired, r1, by simp⟩
    · rename_i running
      rw [Bool.not_eq_true] at running
      rw [guard_go, running] at r1
      simp only [bind_ok] at h
      obtain ⟨⟨r', a⟩, ha, h⟩ := h
      obtain ⟨ts, hw, ra, hs⟩ := opStart_run ha
      have r2 := r1.trans ra
      have d1 := r1.off.delay
      have t1 := r1.off.timeout
      have d2 := r2.off.delay
      have t2 := r2.off.timeout
      rw [d1, t1] at hw
      rw [d1] at r2
      cases r' with
      | ack =>
        simp only [Except.ok.injEq, Prod.mk.injEq] at h
        obtain ⟨rfl, rfl⟩ := h
        exact ⟨_, .acked hw, by simpa using r2, fun _ => hs (by simp)⟩
      | nack =>
        simp only [bind_ok] at h
        obtain ⟨⟨r'', b⟩, hb, h⟩ := h
        obtain ⟨ss, hss, rb⟩ := opStop_shape hb
        have r3 := r2.trans rb
        obtain ⟨us, hu, ru, hsr⟩ := ih h
        rw [d2, t2] at hss
        have d3 := r3.off.delay
        have t3 := r3.off.timeout
        rw [d3, t3] at hu
        exact ⟨_, .retried hw hss hu, by simpa using r3.trans ru, hsr⟩
      | timedOut =>
        simp only [bind_ok, Except.ok.injEq, Prod.mk.injEq] at h
        obtain ⟨⟨r'', b⟩, hb, rfl, rfl⟩ := h
        obtain ⟨ss, hss, rb⟩ := opStop_shape hb
        rw [d2, t2] at hss
        exact ⟨_, .fatal hw hss, by simpa using r2.trans rb, by simp⟩

/-- All that `op_startwait(raw)` can do (R99). -/
theorem opStartWait_run {raw : Byte} {s t : State} {r : Status} (h : opStartWait raw s = .ok (r, t)) :
    ∃ ts, StartWaitShape s.delay s.timeout raw r ts ∧ BusRun s t (.tgStart .go s.timeout :: ts) ∧
      (r = .ack → t.sr = raw ∧ t.bitcnt = 0) := by
  obtain ⟨ts, hw, hr, hs⟩ := startWaitLoop_run h
  exact ⟨ts, hw, by simpa using (busRun_tgStart .go s).trans hr, hs⟩

end Sys2Proof.Machine
end

