-- ==== Sys2Proof/Laws/Shapes.lean ====
section
/-! SUPPORT. Sys2Proof/Laws/Shapes.lean: what each shape of actions does to the two wires and how it ends
(41_byte_transfer.md R122, R125; 60_exceptions.md R199). -/

namespace Sys2Proof.Machine

/-- Low samples write no latch. -/
theorem LowSamples.run {ks : List Token} (h : LowSamples ks) (w : Wires) : w.run ks = w := by
  induction ks generalizing w with
  | nil => rfl
  | cons k ks ih =>
    have hk := h k (by simp)
    have : w.after k = w := by rcases hk with rfl | rfl <;> rfl
    rw [run_cons, this]
    exact ih (fun x hx => h x (by simp [hx])) w

/-- Low samples drive nothing and sample no data. -/
theorem LowSamples.not_mem {ks : List Token} (h : LowSamples ks) {k : Token}
    (h1 : k ≠ .readScl false) (h2 : k ≠ .tgQuery .gp false) : k ∉ ks := by
  intro hk
  rcases h k hk with rfl | rfl
  · exact h1 rfl
  · exact h2 rfl

@[simp] theorem run_stopTokens (w : Wires) (d : Duration) : w.run (stopTokens d) = ⟨.rel, .rel⟩ := rfl

@[simp] theorem run_waitEnd_false (w : Wires) (d : Duration) : w.run (waitEnd false d) = ⟨.rel, .rel⟩ := rfl

/-- After a data pulse of a byte write the clock is released and SDA holds the bit. -/
theorem run_writePulse (w : Wires) (d : Duration) (e b : Bool) : w.run (writePulse d e b) = ⟨latchOf b, .rel⟩ := by
  cases b <;> rfl

/-- Whatever the pulses did, an acknowledge pulse of a byte write starts by releasing SDA with the clock low. -/
theorem WriteShape.run {d t : Duration} {data : Byte} {r : Status} {ts : List Token}
    (h : WriteShape d t data r ts) (w : Wires) :
    w.run ts = if r = .timedOut then ⟨.rel, .rel⟩ else ⟨.rel, .low⟩ := by
  cases h with
  | complete nack hl =>
    have hr : (if nack then Status.nack else .ack) ≠ .timedOut := by cases nack <;> simp
    simp [run_append, hl.run, Wires.after, hr]
  | inData hx => simp [run_append]
  | inAck hl => simp [run_append, hl.run]

/-- A byte write that timed out ended with the forced STOP (R122). -/
theorem WriteShape.endsWithStop {d t : Duration} {data : Byte} {ts : List Token}
    (h : WriteShape d t data .timedOut ts) : ∃ before, ts = before ++ stopTokens d := by
  generalize hr : Status.timedOut = r at h
  cases h with
  | complete nack hl => cases nack <;> cases hr
  | @inData done rest b hx =>
    exact ⟨.tgStart .gp t :: (done.flatMap (writePulse d false) ++ writePulse d true b), by simp⟩
  | @inAck low hl =>
    exact ⟨.tgStart .gp t :: ((bitsMsb data).flatMap (writePulse d false) ++
      .sclLow :: .sdaRelease :: .delay d :: .sclRelease :: (low ++ [.readScl false, .tgQuery .gp true])),
      by simp [waitEnd]⟩

/-- A STOP that ends leaves both lines released (R93). -/
theorem StopShape.run {d t : Duration} {r : Status} {ts : List Token} (h : StopShape d t r ts) (w : Wires) :
    w.run ts = ⟨.rel, .rel⟩ := by
  cases h with
  | complete hl => simp [run_append, hl.run, Wires.after]
  | expired hl => simp [run_append, hl.run]

/-- A STOP never reports a not-acknowledge (R94). -/
theorem StopShape.result {d t : Duration} {r : Status} {ts : List Token} (h : StopShape d t r ts) :
    r = .ack ∨ r = .timedOut := by
  cases h <;> simp

/-- After the data pulses of a byte read the clock is released. -/
theorem ReadPulses.run {d : Duration} {bs : List Bool} {ts : List Token} (h : ReadPulses d bs ts) (w : Wires)
    (hw : bs = [] → w.scl = .rel) : (w.run ts).scl = .rel := by
  induction h generalizing w with
  | none => exact hw rfl
  | pulse b hl h ih =>
    simp only [run_cons, Wires.after, run_append, hl.run]
    exact ih _ (fun _ => rfl)

/-- The latches a byte read leaves (R125). -/
theorem ReadShape.run {d t : Duration} {sendAck : Bool} {r : Status} {bs : List Bool} {ts : List Token}
    (h : ReadShape d t sendAck r bs ts) (w : Wires) :
    w.run ts = if r = .timedOut then ⟨.rel, .rel⟩ else ⟨latchOf (!sendAck), .low⟩ := by
  cases h with
  | complete hb hp hl => cases sendAck <;> simp [run_append, hl.run, Wires.after, dataToken, latchOf]
  | inData hb hp hl => simp [run_append, hl.run]
  | inAck hb hp hl => cases sendAck <;> simp [run_append, hl.run, dataToken]

/-- A byte read reports ACK or TIMEDOUT, never a not-acknowledge (R124). -/
theorem ReadShape.result {d t : Duration} {sendAck : Bool} {r : Status} {bs : List Bool} {ts : List Token}
    (h : ReadShape d t sendAck r bs ts) : r = .ack ∨ r = .timedOut := by
  cases h <;> simp

/-- A byte read that timed out ended with the forced STOP (R125). -/
theorem ReadShape.endsWithStop {d t : Duration} {sendAck : Bool} {bs : List Bool} {ts : List Token}
    (h : ReadShape d t sendAck .timedOut bs ts) : ∃ before, ts = before ++ stopTokens d := by
  cases h with
  | @inData _ ps low hb hp hl =>
    exact ⟨.tgStart .gp t :: (ps ++ .sclLow :: .sdaRelease :: .delay d :: .sclRelease :: .delay d ::
      (low ++ [.readScl false, .tgQuery .gp true])), by simp [waitEnd]⟩
  | @inAck _ ps low hb hp hl =>
    exact ⟨.tgStart .gp t :: (ps ++ .sclLow :: dataToken (!sendAck) :: .delay d :: .sclRelease ::
      (low ++ [.readScl false, .tgQuery .gp true])), by simp [waitEnd]⟩

/-- START-with-wait never reports a not-acknowledge (R100). -/
theorem StartWaitShape.result {d t : Duration} {raw : Byte} {r : Status} {ts : List Token}
    (h : StartWaitShape d t raw r ts) : r = .ack ∨ r = .timedOut := by
  induction h with
  | expired => exact .inr rfl
  | acked _ => exact .inl rfl
  | retried _ _ _ ih => exact ih
  | fatal _ _ => exact .inr rfl

/-- The latches START-with-wait leaves (R100): after ACK the clock is low; after TIMEDOUT both are released, or as on
entry when no attempt was made. -/
theorem StartWaitShape.run {d t : Duration} {raw : Byte} {r : Status} {ts : List Token}
    (h : StartWaitShape d t raw r ts) (w : Wires) :
    w.run ts = if r = .ack then ⟨.rel, .low⟩ else if ts = [.tgQuery .go true] then w else ⟨.rel, .rel⟩ := by
  induction h generalizing w with
  | expired => simp [Wires.after]
  | acked hw => simp [run_append, hw.run]
  | @retried r r' ts ss us hw hs hu ih =>
    have hne : ¬ ((.tgQuery .go false :: (startTokens d ++ ts ++ ss ++ us) : List Token) = [.tgQuery .go true]) := by
      simp
    simp only [run_cons, run_append, hs.run, ih, hne, if_false]
    split <;> simp
  | @fatal r' ts ss hw hs =>
    have hne : ¬ ((.tgQuery .go false :: (startTokens d ++ ts ++ ss) : List Token) = [.tgQuery .go true]) := by
      simp
    simp [run_append, hs.run]

end Sys2Proof.Machine
end

