-- ==== Sys2Proof/Laws/Transaction.lean ====
section
/-! SUPPORT. Sys2Proof/Laws/Transaction.lean: what the operations of the transaction sequencer can do, for every
environment (42_transaction.md R143, R144, R146). -/

namespace Sys2Proof.Machine

/-- `t` is `s` after the actions `ts` of a part of a transaction: as `BusRun`, for parts that also write the sequencer's
own registers. -/
structure TransRun (s t : State) (ts : List Token) : Prop where
  config : SameConfiguration s t
  trace : t.trace = s.trace ++ ts
  wires : t.wires = s.wires.run ts
  env : t.env = ts.foldl Env.consume s.env

theorem SameOffBus.configuration {s t : State} (h : SameOffBus s t) : SameConfiguration s t :=
  ⟨h.pullups, h.delay, h.timeout, h.params, h.host⟩

theorem BusRun.transRun {s t : State} {ts : List Token} (h : BusRun s t ts) : TransRun s t ts :=
  ⟨h.off.configuration, h.trace, h.wires, h.env⟩

theorem TransRun.refl (s : State) : TransRun s s [] := (BusRun.refl s).transRun

theorem TransRun.trans {a b c : State} {xs ys : List Token} (h : TransRun a b xs) (k : TransRun b c ys) :
    TransRun a c (xs ++ ys) :=
  ⟨⟨k.config.pullups.trans h.config.pullups, k.config.delay.trans h.config.delay,
      k.config.timeout.trans h.config.timeout, k.config.params.trans h.config.params,
      k.config.host.trans h.config.host⟩,
    by rw [k.trace, h.trace, List.append_assoc], by rw [k.wires, h.wires, run_append],
    by rw [k.env, h.env, List.foldl_append]⟩

/-- The registers END_TX's data phase leaves alone: all of the sequencer's but `TXPOS` (R144). -/
structure SameTransaction (s t : State) : Prop where
  taddr : t.taddr = s.taddr
  dir : t.dir = s.dir
  phase : t.phase = s.phase
  stopDeferred : t.stopDeferred = s.stopDeferred
  txbuf : t.txbuf = s.txbuf
  txlen : t.txlen = s.txlen
  rxbuf : t.rxbuf = s.rxbuf
  rxlen : t.rxlen = s.rxlen
  rxpos : t.rxpos = s.rxpos

theorem SameTransaction.trans {a b c : State} (h : SameTransaction a b) (k : SameTransaction b c) :
    SameTransaction a c :=
  ⟨k.taddr.trans h.taddr, k.dir.trans h.dir, k.phase.trans h.phase, k.stopDeferred.trans h.stopDeferred,
    k.txbuf.trans h.txbuf, k.txlen.trans h.txlen, k.rxbuf.trans h.rxbuf, k.rxlen.trans h.rxlen, k.rxpos.trans h.rxpos⟩

theorem SameOffBus.transaction {s t : State} (h : SameOffBus s t) : SameTransaction s t :=
  ⟨h.taddr, h.dir, h.phase, h.stopDeferred, h.txbuf, h.txlen, h.rxbuf, h.rxlen, h.rxpos⟩

/-- All that the data bytes of END_TX can do (R144). -/
theorem sendBytes_run {n k : Nat} {s t : State} {c : TxStatus} (h : sendBytes n k s = .ok (c, t)) :
    SameTransaction s t ∧ ∃ ts, TransRun s t ts := by
  induction n generalizing k s with
  | zero => cases h; exact ⟨(SameOffBus.refl _).transaction, [], .refl _⟩
  | succ n ih =>
    simp only [sendBytes, bind_ok] at h
    obtain ⟨⟨r, a⟩, ha, h⟩ := h
    obtain ⟨ts, -, ra, -⟩ := opWrite_shape ha
    have s1 : SameTransaction s { s with txpos := BitVec.ofNat 8 k } := by constructor <;> rfl
    have s2 := s1.trans ra.off.transaction
    have r1 : TransRun s { s with txpos := BitVec.ofNat 8 k } [] := ⟨by constructor <;> rfl, by simp, rfl, rfl⟩
    have r2 := r1.trans ra.transRun
    split at h
    · obtain ⟨s3, us, r3⟩ := ih h
      exact ⟨s2.trans s3, _, r2.trans r3⟩
    · cases h
      exact ⟨s2, _, r2⟩

/-- All that the address phase and the data bytes of END_TX can do (R143, R144): the address phase comes first. -/
theorem transmit_run {s t : State} {c : TxStatus} (h : transmit s = .ok (c, t)) :
    SameTransaction s t ∧ ∃ r ts us, WriteShape s.delay s.timeout (rawByte s.taddr .write) r ts ∧
      TransRun s t (openTokens s.stopDeferred s.delay ++ ts ++ us) ∧
      (r ≠ .ack → c = TxStatus.ofAddress r ∧ us = []) := by
  simp only [transmit, bind_ok] at h
  obtain ⟨⟨r, a⟩, ha, h⟩ := h
  obtain ⟨ts, hw, ra, -⟩ := opTstart_run ha
  split at h
  · rename_i hr
    obtain ⟨sb, us, rb⟩ := sendBytes_run h
    exact ⟨ra.off.transaction.trans sb, r, ts, us, hw, ra.transRun.trans rb, fun hn => absurd hr hn⟩
  · cases h
    exact ⟨ra.off.transaction, r, ts, [], hw, by simpa using ra.transRun, fun _ => ⟨rfl, rfl⟩⟩

/-- All that the end of a transaction can do (R144, R146): `STOP_DEFERRED` and `PHASE` are written on every path, and the
STOP, when asked for, leaves both lines released. -/
theorem endTransaction_run {sendStop : Bool} {s t : State} (h : endTransaction sendStop s = .ok t) :
    ∃ u ts, t = { u with stopDeferred := !sendStop, phase := .idle } ∧ BusRun s u ts ∧
      (if sendStop then ∃ r, StopShape s.delay s.timeout r ts else u = s ∧ ts = []) := by
  cases sendStop with
  | false =>
    simp only [endTransaction, Bool.false_eq_true, if_false, ok_bind, Except.ok.injEq] at h
    subst h
    exact ⟨s, [], rfl, .refl s, by simp⟩
  | true =>
    simp only [endTransaction, if_true, bind_ok, Except.ok.injEq] at h
    obtain ⟨u, ⟨⟨r, a⟩, ha, rfl⟩, rfl⟩ := h
    obtain ⟨ts, hs, ra⟩ := opStop_shape ha
    exact ⟨a, ts, rfl, ra, by simpa using ⟨r, hs⟩⟩

/-- The registers REQ_FROM's reads leave alone: all of the sequencer's but the incoming buffer and its write cursor. -/
structure SameButReceived (s t : State) : Prop where
  taddr : t.taddr = s.taddr
  dir : t.dir = s.dir
  phase : t.phase = s.phase
  stopDeferred : t.stopDeferred = s.stopDeferred
  txbuf : t.txbuf = s.txbuf
  txlen : t.txlen = s.txlen
  txpos : t.txpos = s.txpos
  rxpos : t.rxpos = s.rxpos

theorem SameButReceived.trans {a b c : State} (h : SameButReceived a b) (k : SameButReceived b c) :
    SameButReceived a c :=
  ⟨k.taddr.trans h.taddr, k.dir.trans h.dir, k.phase.trans h.phase, k.stopDeferred.trans h.stopDeferred,
    k.txbuf.trans h.txbuf, k.txlen.trans h.txlen, k.txpos.trans h.txpos, k.rxpos.trans h.rxpos⟩

theorem SameOffBus.butReceived {s t : State} (h : SameOffBus s t) : SameButReceived s t :=
  ⟨h.taddr, h.dir, h.phase, h.stopDeferred, h.txbuf, h.txlen, h.txpos, h.rxpos⟩

/-- All that the reads of REQ_FROM can do (R146): each byte that completed is enqueued, in order. -/
theorem receiveBytes_run {n : Nat} {s t : State} (h : receiveBytes n s = .ok t) :
    SameButReceived s t ∧ (∃ ts, TransRun s t ts) ∧
      ∃ bytes : List Byte, bytes.length ≤ n ∧
        t.rxbuf = (bytes.foldl (fun u b => enqueueRx b u) s).rxbuf ∧
        t.rxlen = (bytes.foldl (fun u b => enqueueRx b u) s).rxlen := by
  induction n generalizing s with
  | zero =>
    cases h
    exact ⟨(SameOffBus.refl _).butReceived, ⟨[], .refl _⟩, [], by simp, rfl, rfl⟩
  | succ n ih =>
    simp only [receiveBytes, bind_ok] at h
    obtain ⟨⟨r, b, a⟩, ha, h⟩ := h
    obtain ⟨bs, ts, -, ra, -, -⟩ := opRead_shape ha
    split at h
    · have q : SameButReceived a (enqueueRx b a) := by constructor <;> rfl
      have e : TransRun a (enqueueRx b a) [] := ⟨by constructor <;> rfl, by simp, rfl, rfl⟩
      obtain ⟨sb, ⟨us, rb⟩, bytes, hlen, hbuf, hcur⟩ := ih h
      have key : ∀ (l : List Byte) (x y : State), x.rxbuf = y.rxbuf → x.rxlen = y.rxlen →
          (l.foldl (fun u c => enqueueRx c u) x).rxbuf = (l.foldl (fun u c => enqueueRx c u) y).rxbuf ∧
          (l.foldl (fun u c => enqueueRx c u) x).rxlen = (l.foldl (fun u c => enqueueRx c u) y).rxlen := by
        intro l
        induction l with
        | nil => intro x y h1 h2; exact ⟨h1, h2⟩
        | cons c l il => intro x y h1 h2; exact il _ _ (by simp [h1, h2]) (by simp [h2])
      have hk := key bytes (enqueueRx b a) (enqueueRx b s) (by simp [ra.off.rxbuf, ra.off.rxlen])
        (by simp [ra.off.rxlen])
      exact ⟨(ra.off.butReceived.trans q).trans sb, ⟨_, (ra.transRun.trans e).trans rb⟩, b :: bytes,
        by simpa using hlen, by rw [hbuf, hk.1]; rfl, by rw [hcur, hk.2]; rfl⟩
    · cases h
      exact ⟨ra.off.butReceived, ⟨_, ra.transRun⟩, [], by simp, by simp [ra.off.rxbuf], by simp [ra.off.rxlen]⟩

end Sys2Proof.Machine
end

