-- ==== Sys2Proof/Laws/Liveness.lean ====
section
/-! SUPPORT. Sys2Proof/Laws/Liveness.lean: under the liveness premise of 60_exceptions.md R208 every bus operation ends,
and no action takes the premise away. -/

namespace Sys2Proof.Machine

/-- An answer taken leaves the environment live. -/
theorem live_consume {e : Env} (h : e.Live) (k : Token) : (e.consume k).Live := by
  cases k with
  | delay d => exact ⟨h.gp, h.go, allAre_tail h.delays⟩
  | tgQuery g b => cases g <;> exact ⟨h.gp, h.go, h.delays⟩
  | _ => exact ⟨h.gp, h.go, h.delays⟩

/-- Any actions leave the environment live. -/
theorem live_actions {e : Env} (h : e.Live) (ts : List Token) : (ts.foldl Env.consume e).Live := by
  induction ts generalizing e with
  | nil => exact h
  | cons k ts ih => exact ih (live_consume h k)

theorem BusRun.live {s t : State} {ts : List Token} (h : BusRun s t ts) (hs : s.env.Live) : t.env.Live := by
  rw [h.env]; exact live_actions hs ts

theorem TransRun.live {s t : State} {ts : List Token} (h : TransRun s t ts) (hs : s.env.Live) : t.env.Live := by
  rw [h.env]; exact live_actions hs ts

/-! ## The operations as binds -/

theorem writeAck_eq (s : State) :
    writeAck s = (bitDelay (sdaRelease (sclLow s)) >>= fun a => waitSclHigh .gp (sclRelease a) >>= fun p =>
      if p.1 then .ok (if p.2.env.sda.head then .nack else .ack, sclLow (readSda p.2).2) else .ok (.timedOut, p.2)) :=
  rfl

theorem opWrite_eq (data : Byte) (s : State) :
    opWrite data s = (writeBits 8 { tgStart .gp s with sr := data } >>= fun p =>
      if p.1 then writeAck p.2 else .ok (.timedOut, p.2)) := rfl

theorem opRead_eq (sendAck : Bool) (s : State) :
    opRead sendAck s = (readBits 8 { tgStart .gp s with sr := 0 } >>= fun p =>
      if p.1 then (readAck sendAck p.2 >>= fun q => .ok (q.1, q.2.sr, q.2)) else .ok (.timedOut, p.2.sr, p.2)) := rfl

/-! ## Completion -/

theorem bitDelay_completes {s : State} (h : s.env.Live) : ∃ t, bitDelay s = .ok t :=
  ⟨_, bitDelay_done (allAre_head h.delays)⟩

theorem stopOpen_completes {s : State} (h : s.env.Live) : ∃ t, stopOpen s = .ok t := by
  obtain ⟨a, ha⟩ := bitDelay_completes (s := sclLow s) h
  have la := (bitDelay_run ha).2.1.live h
  obtain ⟨b, hb⟩ := bitDelay_completes (s := sdaLow a) la
  exact ⟨sclRelease b, by simp [stopOpen, ha, hb]⟩

theorem stopClose_completes {s : State} (h : s.env.Live) : ∃ t, stopClose s = .ok t := by
  obtain ⟨a, ha⟩ := bitDelay_completes h
  have la := (bitDelay_run ha).2.1.live h
  obtain ⟨b, hb⟩ := bitDelay_completes (s := sdaRelease a) la
  exact ⟨b, by simp [stopClose, ha, hb]⟩

theorem opStopForced_completes {s : State} (h : s.env.Live) : ∃ t, opStopForced s = .ok t := by
  obtain ⟨a, ha⟩ := stopOpen_completes h
  obtain ⟨b, hb⟩ := stopClose_completes ((stopOpen_run ha).1.live h)
  exact ⟨b, by simp [opStopForced, ha, hb]⟩

theorem abort_completes {s : State} (h : s.env.Live) : ∃ t, abort s = .ok t := by
  obtain ⟨a, ha⟩ := opStopForced_completes h
  exact ⟨_, by simp only [abort, ha, ok_bind]; rfl⟩

/-- A clock wait ends once the guard's pending answers are used up, whatever the clock does (R92, R208). -/
theorem waitLoop_completes {n : Nat} {s : State} (h : s.env.Live) (hn : s.env.gp.pending.length < n) :
    ∃ p, waitLoop .gp n s = .ok p := by
  induction n generalizing s with
  | zero => omega
  | succ n ih =>
    rw [waitLoop_succ]
    split
    · exact ⟨_, rfl⟩
    · split
      · have l : ((tgExpired .gp (readScl s).2).2).env.Live :=
          ((busRun_readScl s).trans (busRun_tgExpired .gp _)).live h
        obtain ⟨t, ht⟩ := abort_completes l
        exact ⟨(false, t), by simp [ht]⟩
      · rename_i running
        have hp : s.env.gp.pending ≠ [] := by
          intro hp
          apply running
          show s.env.gp.head = true
          rw [head_of_nil _ hp]; exact h.gp
        apply ih (((busRun_readScl s).trans (busRun_tgExpired .gp _)).live h)
        show s.env.gp.tail.pending.length < n
        rw [tail_length]
        have : 0 < s.env.gp.pending.length := List.length_pos_iff.mpr hp
        omega

theorem waitSclHigh_completes {s : State} (h : s.env.Live) : ∃ risen t, waitSclHigh .gp s = .ok (risen, t) := by
  obtain ⟨⟨risen, t⟩, ht⟩ := waitLoop_completes (n := waitFuel .gp s) h (by simp only [waitFuel, guard_gp]; omega)
  exact ⟨risen, t, ht⟩

theorem opStop_completes (stretch : Bool) {s : State} (h : s.env.Live) : ∃ r t, opStop stretch s = .ok (r, t) := by
  cases stretch with
  | false =>
    obtain ⟨a, ha⟩ := opStopForced_completes h
    exact ⟨.ack, a, by simp [opStop, ha]⟩
  | true =>
    obtain ⟨a, ha⟩ := stopOpen_completes (s := tgStart .gp s) h
    have la := (stopOpen_run ha).1.live h
    obtain ⟨risen, b, hb⟩ := waitSclHigh_completes la
    obtain ⟨low, -, rb, -⟩ := waitSclHigh_run hb
    cases risen with
    | true =>
      obtain ⟨c, hc⟩ := stopClose_completes (rb.live la)
      exact ⟨.ack, c, by simp [opStop, ha, hb, hc]⟩
    | false => exact ⟨.timedOut, b, by simp [opStop, ha, hb]⟩

theorem writeBits_completes (n : Nat) {s : State} (h : s.env.Live) : ∃ sent t, writeBits n s = .ok (sent, t) := by
  induction n generalizing s with
  | zero => exact ⟨true, _, rfl⟩
  | succ n ih =>
    rw [writeBits_succ]
    have l0 : (sdaBit (s.sr.getLsbD n) (sclLow { s with bitcnt := BitVec.ofNat 4 (n + 1) })).env.Live := by
      cases s.sr.getLsbD n <;> exact h
    obtain ⟨a, ha⟩ := bitDelay_completes l0
    have la := (bitDelay_run ha).2.1.live l0
    obtain ⟨b, hb⟩ := bitDelay_completes (s := sclRelease a) la
    have lb := (bitDelay_run hb).2.1.live la
    have lq := (busRun_tgExpired .gp b).live lb
    simp only [ha, hb, ok_bind]
    split
    · obtain ⟨t, ht⟩ := abort_completes lq
      exact ⟨false, t, by simp [ht]⟩
    · exact ih lq

theorem writeAck_completes {s : State} (h : s.env.Live) : ∃ r t, writeAck s = .ok (r, t) := by
  obtain ⟨a, ha⟩ := bitDelay_completes (s := sdaRelease (sclLow s)) h
  have la := (bitDelay_run ha).2.1.live h
  obtain ⟨risen, b, hb⟩ := waitSclHigh_completes (s := sclRelease a) la
  cases risen with
  | true => exact ⟨_, _, by rw [writeAck_eq, ha, ok_bind, hb, ok_bind]; rfl⟩
  | false => exact ⟨.timedOut, b, by rw [writeAck_eq, ha, ok_bind, hb, ok_bind]; rfl⟩

theorem opWrite_completes (data : Byte) {s : State} (h : s.env.Live) : ∃ r t, opWrite data s = .ok (r, t) := by
  obtain ⟨sent, a, ha⟩ := writeBits_completes 8 (s := { tgStart .gp s with sr := data }) h
  cases sent with
  | false => exact ⟨.timedOut, a, by rw [opWrite_eq, ha]; rfl⟩
  | true =>
    have la : a.env.Live := by
      rcases writeBits_run ha with ⟨-, r, -⟩ | ⟨hf, -⟩
      · exact r.live h
      · cases hf
    obtain ⟨r, t, ht⟩ := writeAck_completes la
    exact ⟨r, t, by rw [opWrite_eq, ha]; exact ht⟩

theorem readBits_completes (n : Nat) {s : State} (h : s.env.Live) :
    ∃ received t, readBits n s = .ok (received, t) := by
  induction n generalizing s with
  | zero => exact ⟨true, _, rfl⟩
  | succ n ih =>
    rw [readBits_succ]
    have l0 : (sdaRelease (sclLow { s with bitcnt := BitVec.ofNat 4 (n + 1) })).env.Live := h
    obtain ⟨a, ha⟩ := bitDelay_completes l0
    have la := (bitDelay_run ha).2.1.live l0
    obtain ⟨b, hb⟩ := bitDelay_completes (s := sclRelease a) la
    have lb := (bitDelay_run hb).2.1.live la
    obtain ⟨risen, c, hc⟩ := waitSclHigh_completes lb
    obtain ⟨low, -, rc, -⟩ := waitSclHigh_run hc
    have lc := rc.live lb
    simp only [ha, hb, hc, ok_bind]
    cases risen with
    | true => exact ih (s := { (readSda c).2 with sr := shiftIn c.sr c.env.sda.head }) ((busRun_readSda c).live lc)
    | false => exact ⟨false, c, rfl⟩

theorem readAck_completes (sendAck : Bool) {s : State} (h : s.env.Live) : ∃ r t, readAck sendAck s = .ok (r, t) := by
  have l0 : (sdaBit (!sendAck) (sclLow s)).env.Live := by cases sendAck <;> exact h
  obtain ⟨a, ha⟩ := bitDelay_completes l0
  have la := (bitDelay_run ha).2.1.live l0
  obtain ⟨risen, b, hb⟩ := waitSclHigh_completes (s := sclRelease a) la
  cases risen with
  | true => exact ⟨.ack, sclLow b, by simp [readAck, ha, hb]⟩
  | false => exact ⟨.timedOut, b, by simp [readAck, ha, hb]⟩

theorem opRead_completes (sendAck : Bool) {s : State} (h : s.env.Live) :
    ∃ r b t, opRead sendAck s = .ok (r, b, t) := by
  obtain ⟨received, a, ha⟩ := readBits_completes 8 (s := { tgStart .gp s with sr := 0 }) h
  cases received with
  | false => exact ⟨.timedOut, a.sr, a, by rw [opRead_eq, ha]; rfl⟩
  | true =>
    have la : a.env.Live := by
      rcases readBits_run ha with ⟨-, bs, ts, -, -, r, -⟩ | ⟨hf, -⟩
      · exact r.live h
      · cases hf
    obtain ⟨r, t, ht⟩ := readAck_completes sendAck la
    exact ⟨r, t.sr, t, by rw [opRead_eq, ha, ok_bind, if_pos rfl, ht]; rfl⟩

theorem opStart_completes (raw : Byte) {s : State} (h : s.env.Live) : ∃ r t, opStart raw s = .ok (r, t) := by
  obtain ⟨a, ha⟩ := bitDelay_completes (s := sdaLow s) h
  have la := (bitDelay_run ha).2.1.live h
  obtain ⟨b, hb⟩ := bitDelay_completes (s := sclLow a) la
  obtain ⟨r, t, ht⟩ := opWrite_completes raw ((bitDelay_run hb).2.1.live la)
  exact ⟨r, t, by simp [opStart, ha, hb, ht]⟩

theorem opRstart_completes (raw : Byte) {s : State} (h : s.env.Live) : ∃ r t, opRstart raw s = .ok (r, t) := by
  obtain ⟨a, ha⟩ := bitDelay_completes (s := sdaRelease s) h
  have la := (bitDelay_run ha).2.1.live h
  obtain ⟨b, hb⟩ := bitDelay_completes (s := sclRelease a) la
  have lb := (bitDelay_run hb).2.1.live la
  obtain ⟨c, hc⟩ := bitDelay_completes (s := sdaLow b) lb
  obtain ⟨r, t, ht⟩ := opWrite_completes raw ((bitDelay_run hc).2.1.live lb)
  exact ⟨r, t, by simp [opRstart, ha, hb, hc, ht]⟩

theorem opTstart_completes (raw : Byte) {s : State} (h : s.env.Live) : ∃ r t, opTstart raw s = .ok (r, t) := by
  unfold opTstart
  split
  · exact opRstart_completes raw h
  · exact opStart_completes raw h

theorem sendBytes_completes (n k : Nat) {s : State} (h : s.env.Live) : ∃ c t, sendBytes n k s = .ok (c, t) := by
  induction n generalizing k s with
  | zero => exact ⟨.ok, s, rfl⟩
  | succ n ih =>
    have l0 : ({ s with txpos := BitVec.ofNat 8 k } : State).env.Live := h
    obtain ⟨r, a, ha⟩ := opWrite_completes (State.txByte { s with txpos := BitVec.ofNat 8 k } k) l0
    obtain ⟨ts, -, ra, -⟩ := opWrite_shape ha
    simp only [sendBytes, ha, ok_bind]
    split
    · exact ih (k + 1) (ra.live l0)
    · exact ⟨_, _, rfl⟩

theorem transmit_completes {s : State} (h : s.env.Live) : ∃ c t, transmit s = .ok (c, t) := by
  obtain ⟨r, a, ha⟩ := opTstart_completes (rawByte s.taddr .write) h
  obtain ⟨ts, -, ra, -⟩ := opTstart_run ha
  simp only [transmit, ha, ok_bind]
  split
  · exact sendBytes_completes _ _ (ra.live h)
  · exact ⟨_, _, rfl⟩

theorem receiveBytes_completes (n : Nat) {s : State} (h : s.env.Live) : ∃ t, receiveBytes n s = .ok t := by
  induction n generalizing s with
  | zero => exact ⟨s, rfl⟩
  | succ n ih =>
    obtain ⟨r, b, a, ha⟩ := opRead_completes (decide (n ≠ 0)) h
    obtain ⟨bs, ts, -, ra, -, -⟩ := opRead_shape ha
    simp only [receiveBytes, ha, ok_bind]
    split
    · exact ih (s := enqueueRx b a) (ra.live h)
    · exact ⟨_, rfl⟩

theorem endTransaction_completes (sendStop : Bool) {s : State} (h : s.env.Live) :
    ∃ t, endTransaction sendStop s = .ok t := by
  cases sendStop with
  | false => exact ⟨_, rfl⟩
  | true =>
    obtain ⟨r, t, ht⟩ := opStop_completes true h
    exact ⟨_, by simp only [endTransaction, if_true, ht, ok_bind]; rfl⟩

/-- Actions that do not query GO take none of its answers. -/
theorem go_untouched {e : Env} {ts : List Token} (hts : ∀ b, Token.tgQuery .go b ∉ ts) :
    (ts.foldl Env.consume e).go = e.go := by
  induction ts generalizing e with
  | nil => rfl
  | cons k ts ih =>
    rw [List.foldl_cons, ih (fun b hb => hts b (by simp [hb]))]
    cases k with
    | tgQuery g b =>
      cases g with
      | gp => rfl
      | go => exact absurd (by simp) (hts b)
    | _ => rfl

/-- The retry loop ends once GO's pending answers are used up (R99, R208). -/
theorem startWaitLoop_completes (raw : Byte) {n : Nat} {s : State} (h : s.env.Live)
    (hn : s.env.go.pending.length < n) :
    ∃ r t, startWaitLoop raw n s = .ok (r, t) := by
  induction n generalizing s with
  | zero => omega
  | succ n ih =>
    rw [startWaitLoop_succ]
    split
    · exact ⟨_, _, rfl⟩
    · rename_i running
      have l1 := (busRun_tgExpired .go s).live h
      obtain ⟨r, a, ha⟩ := opStart_completes raw l1
      obtain ⟨ts, hw, ra, -⟩ := opStart_run ha
      have la := ra.live l1
      simp only [ha, ok_bind]
      cases r with
      | ack => exact ⟨_, _, rfl⟩
      | timedOut =>
        obtain ⟨r', b, hb⟩ := opStop_completes true la
        exact ⟨.timedOut, b, by simp [hb]⟩
      | nack =>
        obtain ⟨r', b, hb⟩ := opStop_completes true la
        obtain ⟨ss, hs, rb⟩ := opStop_shape hb
        simp only [hb, ok_bind]
        apply ih (rb.live la)
        have n1 : ∀ x, Token.tgQuery .go x ∉ ss := by
          intro x hx
          cases hs with
          | complete hl => simp [hl.not_mem] at hx
          | expired hl => simp [hl.not_mem, waitEnd, stopTokens] at hx
        have n2 : ∀ x, Token.tgQuery .go x ∉
            startTokens ((tgExpired .go s).2).delay ++ ts := by
          intro x hx
          generalize hr : Status.nack = r at hw
          cases hw with
          | complete nack hl =>
            simp only [startTokens, List.mem_append, List.mem_cons, List.mem_flatMap, writePulse] at hx
            simp [hl.not_mem, dataToken] at hx
          | inData hx' => cases hr
          | inAck hl => cases hr
        rw [rb.env, go_untouched n1, ra.env, go_untouched n2]
        show s.env.go.tail.pending.length < n
        rw [tail_length]
        have hp : s.env.go.pending ≠ [] := by
          intro hp
          apply running
          rw [head_of_nil _ hp]; exact h.go
        have : 0 < s.env.go.pending.length := List.length_pos_iff.mpr hp
        omega

theorem opStartWait_completes (raw : Byte) {s : State} (h : s.env.Live) :
    ∃ r t, opStartWait raw s = .ok (r, t) :=
  startWaitLoop_completes raw (s := tgStart .go s) h
    (by show s.env.go.pending.length < retryFuel s.env; simp only [retryFuel]; omega)

end Sys2Proof.Machine
end

