-- ==== Sys2Proof/Laws/Memory.lean ====
section
/-! SUPPORT. Sys2Proof/Laws/Memory.lean: the byte buffers: a read after a write, a write leaves every other element alone,
and every operation keeps the canonical form. -/

namespace Sys2Proof.Machine

/-- The element written reads as what was written. -/
@[simp] theorem lookup_write_same (m : Memory) (i : Nat) (b : Byte) : Memory.lookup (Memory.write m i b) i = some b := by
  induction m with
  | nil => simp [Memory.write, Memory.lookup]
  | cons c m ih =>
    obtain ⟨j, x⟩ := c
    rw [Memory.write]
    split
    · simp [Memory.lookup]
    · split
      · simp [Memory.lookup]
      · rename_i h; simp [Memory.lookup, h, ih]

/-- Every other element reads as before. -/
theorem lookup_write_other (m : Memory) (i j : Nat) (b : Byte) (h : j ≠ i) :
    Memory.lookup (Memory.write m i b) j = Memory.lookup m j := by
  induction m with
  | nil => simp [Memory.write, Memory.lookup, h]
  | cons c m ih =>
    obtain ⟨k, x⟩ := c
    rw [Memory.write]
    split
    · simp [Memory.lookup, h]
    · split
      · rename_i hk; subst hk; simp [Memory.lookup, h]
      · simp [Memory.lookup, ih]

theorem above_mono {i j : Nat} {m : Memory} (h : Memory.above j m = true) (hij : i ≤ j) : Memory.above i m = true := by
  induction m with
  | nil => rfl
  | cons c m ih =>
    obtain ⟨k, x⟩ := c
    simp only [Memory.above, Bool.and_eq_true, decide_eq_true_eq] at h ⊢
    exact ⟨by omega, ih h.2⟩

theorem above_write {i k : Nat} {b : Byte} {m : Memory} (h : Memory.above k m = true) (hk : k < i) :
    Memory.above k (Memory.write m i b) = true := by
  induction m with
  | nil => simp [Memory.write, Memory.above, hk]
  | cons c m ih =>
    obtain ⟨j, x⟩ := c
    simp only [Memory.above, Bool.and_eq_true, decide_eq_true_eq] at h
    rw [Memory.write]
    split
    · simp [Memory.above, hk, h]
    · split
      · simp [Memory.above, hk, h]
      · simp [Memory.above, h, ih h.2]

/-- A write keeps the canonical form. -/
theorem wf_write {m : Memory} (h : Memory.wf m = true) (i : Nat) (b : Byte) : Memory.wf (Memory.write m i b) = true := by
  induction m with
  | nil => simp [Memory.write, Memory.wf, Memory.above]
  | cons c m ih =>
    obtain ⟨j, x⟩ := c
    simp only [Memory.wf, Bool.and_eq_true] at h
    rw [Memory.write]
    split
    · rename_i hi
      simp [Memory.wf, Memory.above, hi, above_mono h.1 (Nat.le_of_lt hi), h]
    · split
      · rename_i hj; subst hj; simp [Memory.wf, h]
      · rename_i h1 h2
        simp only [Memory.wf, Bool.and_eq_true]
        exact ⟨above_write h.1 (by omega), ih h.2⟩

/-- A write inside the capacity stays inside it. -/
theorem within_write {cap : Nat} {m : Memory} (h : Memory.within cap m) {i : Nat} (hi : i < cap) (b : Byte) :
    Memory.within cap (Memory.write m i b) := by
  induction m with
  | nil => intro c hc; simp [Memory.write] at hc; subst hc; exact hi
  | cons c m ih =>
    obtain ⟨j, x⟩ := c
    have hj : j < cap := h (j, x) (by simp)
    have hm : Memory.within cap m := fun c hc => h c (by simp [hc])
    intro c hc
    rw [Memory.write] at hc
    split at hc
    · simp only [List.mem_cons] at hc
      rcases hc with rfl | rfl | hc
      · exact hi
      · exact hj
      · exact hm c hc
    · split at hc
      · simp only [List.mem_cons] at hc
        rcases hc with rfl | hc
        · exact hi
        · exact hm c hc
      · simp only [List.mem_cons] at hc
        rcases hc with rfl | hc
        · exact hj
        · exact ih hm c hc

/-- A write at the cursor fills one element more. -/
theorem filled_write {n : Nat} {m : Memory} (h : Memory.filled n m) (b : Byte) :
    Memory.filled (n + 1) (Memory.write m n b) := by
  intro i hi
  by_cases hn : i = n
  · subst hn; simp
  · rw [lookup_write_other m n i b hn]; exact h i (by omega)

/-- Nothing is listed at or below a bound of the list. -/
theorem above_lookup {i : Nat} {m : Memory} (h : Memory.above i m = true) {j : Nat} (hj : j ≤ i) :
    Memory.lookup m j = none := by
  induction m with
  | nil => rfl
  | cons c m ih =>
    obtain ⟨k, x⟩ := c
    simp only [Memory.above, Bool.and_eq_true, decide_eq_true_eq] at h
    have : j ≠ k := by omega
    simp [Memory.lookup, this, ih h.2]

/-- Reset's buffers are canonical. -/
theorem wf_reset : Memory.wf State.reset.txbuf = true ∧ Memory.wf State.reset.rxbuf = true := ⟨rfl, rfl⟩

/-- The operations on the outgoing buffer keep the canonical form. -/
theorem wf_enqueueTx {s : State} (h : Memory.wf s.txbuf = true) (b : Byte) :
    Memory.wf (enqueueTx b s).txbuf = true := wf_write h _ b

/-- The operations on the incoming buffer keep the canonical form. -/
theorem wf_enqueueRx {s : State} (h : Memory.wf s.rxbuf = true) (b : Byte) :
    Memory.wf (enqueueRx b s).rxbuf = true := wf_write h _ b

end Sys2Proof.Machine
end

