-- ==== Sys2Proof/Laws/PerInstr.lean ====
section
/-! SUPPORT. Sys2Proof/Laws/PerInstr.lean: one lemma per command, that its word lies in its row of R66: the opcode and
every reserved bit are as `match` and `mask` say, for every operand. -/

namespace Sys2Proof

/-! ## Each operand stays inside its field (R63) -/

theorem and_or_split (a b m : CmdWord) : (a ||| b) &&& m = (a &&& m) ||| (b &&& m) := by
  ext k hk
  simp only [BitVec.getElem_and, BitVec.getElem_or]
  cases a[k] <;> cases b[k] <;> cases m[k] <;> rfl

theorem flagBits_inside (b : Bool) : flagBits b &&& 0xFFFFFFFE = 0 := by cases b <;> decide

theorem modeBits_inside (m : Mode) : modeBits m &&& 0xFFFF80FE = 0 := by cases m <;> decide

theorem byteBits_inside (b : Byte) : byteBits b &&& 0xFFFFFF00 = 0 := by revert b; decide

theorem addrBits_inside (a : Addr) : addrBits a &&& 0xFFFF80FF = 0 := by revert a; decide

theorem countBits_inside (c : BitVec 8) : countBits c &&& 0xFF00FFFF = 0 := by revert c; decide

/-- A field that is clear under a mask is clear under a smaller one. -/
theorem inside_of_inside {f m n : CmdWord} (h : f &&& m = 0) (hn : m &&& n = n) : f &&& n = 0 := by
  rw [← hn, ← BitVec.and_assoc, h]
  exact BitVec.zero_and

theorem durBits_inside (d : Duration) : durBits d &&& 0xFFFF0000 = 0 := by
  apply BitVec.eq_of_toNat_eq
  have hd := d.isLt
  have h : (durBits d).toNat = d.toNat := by
    simp only [durBits, BitVec.toNat_setWidth]
    exact Nat.mod_eq_of_lt (by omega)
  rw [BitVec.toNat_and, h]
  apply Nat.eq_of_testBit_eq
  intro k
  by_cases hk : k < 16
  · have : Nat.testBit (BitVec.toNat (0xFFFF0000 : CmdWord)) k = false := by
      interval_cases k <;> rfl
    rw [Nat.testBit_and, this]; simp
  · have : Nat.testBit d.toNat k = false :=
      Nat.testBit_lt_two_pow (lt_of_lt_of_le hd (Nat.pow_le_pow_right (by omega) (by omega)))
    simp [Nat.testBit_and, this]

namespace Laws.EncodesInRow

/-- The word of a command lies in its row of R66. -/
def Statement (i : Instr) : Prop := encode i &&& i.row.mask = i.row.pattern ∧ i.row ∈ opcodeTable

theorem stop (stretch : Bool) : Statement (.stop stretch) := by
  refine ⟨?_, by simp [Instr.row, opcodeTable]⟩
  simp only [encode, Instr.row, and_or_split, flagBits_inside]; decide

theorem startRaw (raw : Byte) : Statement (.startRaw raw) := by
  refine ⟨?_, by simp [Instr.row, opcodeTable]⟩
  simp only [encode, Instr.row, and_or_split, byteBits_inside]; decide

theorem rstartRaw (raw : Byte) : Statement (.rstartRaw raw) := by
  refine ⟨?_, by simp [Instr.row, opcodeTable]⟩
  simp only [encode, Instr.row, and_or_split, byteBits_inside]; decide

theorem startwRaw (raw : Byte) : Statement (.startwRaw raw) := by
  refine ⟨?_, by simp [Instr.row, opcodeTable]⟩
  simp only [encode, Instr.row, and_or_split, byteBits_inside]; decide

theorem start (addr : Addr) (mode : Mode) : Statement (.start addr mode) := by
  refine ⟨?_, by simp [Instr.row, opcodeTable]⟩
  simp only [encode, Instr.row, and_or_split, modeBits_inside,
    inside_of_inside (addrBits_inside addr) (show _ &&& 0xFFFF80FE = 0xFFFF80FE from by decide)]
  decide

theorem rstart (addr : Addr) (mode : Mode) : Statement (.rstart addr mode) := by
  refine ⟨?_, by simp [Instr.row, opcodeTable]⟩
  simp only [encode, Instr.row, and_or_split, modeBits_inside,
    inside_of_inside (addrBits_inside addr) (show _ &&& 0xFFFF80FE = 0xFFFF80FE from by decide)]
  decide

theorem startw (addr : Addr) (mode : Mode) : Statement (.startw addr mode) := by
  refine ⟨?_, by simp [Instr.row, opcodeTable]⟩
  simp only [encode, Instr.row, and_or_split, modeBits_inside,
    inside_of_inside (addrBits_inside addr) (show _ &&& 0xFFFF80FE = 0xFFFF80FE from by decide)]
  decide

theorem write (data : Byte) : Statement (.write data) := by
  refine ⟨?_, by simp [Instr.row, opcodeTable]⟩
  simp only [encode, Instr.row, and_or_split, byteBits_inside]; decide

theorem read (sendAck : Bool) : Statement (.read sendAck) := by
  refine ⟨?_, by simp [Instr.row, opcodeTable]⟩
  simp only [encode, Instr.row, and_or_split, flagBits_inside]; decide

theorem beginTx (addr : Addr) : Statement (.beginTx addr) := by
  refine ⟨?_, by simp [Instr.row, opcodeTable]⟩
  simp only [encode, Instr.row, and_or_split, addrBits_inside]; decide

theorem txPut (data : Byte) : Statement (.txPut data) := by
  refine ⟨?_, by simp [Instr.row, opcodeTable]⟩
  simp only [encode, Instr.row, and_or_split, byteBits_inside]; decide

theorem endTx (sendStop : Bool) : Statement (.endTx sendStop) := by
  refine ⟨?_, by simp [Instr.row, opcodeTable]⟩
  simp only [encode, Instr.row, and_or_split, flagBits_inside]; decide

theorem reqFrom (addr : Addr) (count : BitVec 8) (sendStop : Bool) : Statement (.reqFrom addr count sendStop) := by
  refine ⟨?_, by simp [Instr.row, opcodeTable]⟩
  simp only [encode, Instr.row, and_or_split,
    inside_of_inside (addrBits_inside addr) (show _ &&& 0xFF0080FE = 0xFF0080FE from by decide),
    inside_of_inside (countBits_inside count) (show _ &&& 0xFF0080FE = 0xFF0080FE from by decide),
    inside_of_inside (flagBits_inside sendStop) (show _ &&& 0xFF0080FE = 0xFF0080FE from by decide)]
  decide

theorem rxGet : Statement .rxGet := ⟨by decide, by simp [Instr.row, opcodeTable]⟩

theorem rxPeek : Statement .rxPeek := ⟨by decide, by simp [Instr.row, opcodeTable]⟩

theorem rxAvail : Statement .rxAvail := ⟨by decide, by simp [Instr.row, opcodeTable]⟩

theorem cfgPullups (en : Bool) : Statement (.cfgPullups en) := by
  refine ⟨?_, by simp [Instr.row, opcodeTable]⟩
  simp only [encode, Instr.row, and_or_split, flagBits_inside]; decide

theorem cfgDelay (dur : Duration) : Statement (.cfgDelay dur) := by
  refine ⟨?_, by simp [Instr.row, opcodeTable]⟩
  simp only [encode, Instr.row, and_or_split, durBits_inside]; decide

theorem cfgTimeout (dur : Duration) : Statement (.cfgTimeout dur) := by
  refine ⟨?_, by simp [Instr.row, opcodeTable]⟩
  simp only [encode, Instr.row, and_or_split, durBits_inside]; decide

theorem init : Statement .init := ⟨by decide, by simp [Instr.row, opcodeTable]⟩

end Laws.EncodesInRow

end Sys2Proof
end

