-- ==== Sys2Proof/Tests/Slice0.lean ====
section
/-! SUPPORT. Sys2Proof/Tests/Slice0.lean: the model's own tests. Expected words, traces, responses and end states are
those of spec/95_test_vectors.md (named V1 to V38, P1 to P5), written out. After them, one witness for every
obligation's hypotheses. -/

namespace Sys2Proof.Tests.Slice0

open Sys2Proof.Machine

/-! ## The tokens as the spec writes them, with DELAY = 5 and TIMEOUT = 100 (95_test_vectors.md Part 3) -/

abbrev c : Token := .sclLow
abbrev C : Token := .sclRelease
abbrev d : Token := .sdaLow
abbrev D : Token := .sdaRelease
abbrev w : Token := .delay 5
abbrev rc0 : Token := .readScl false
abbrev rc1 : Token := .readScl true
abbrev rd0 : Token := .readSda false
abbrev rd1 : Token := .readSda true
abbrev gsP : Token := .tgStart .gp 100
abbrev gsO : Token := .tgStart .go 100
abbrev gqP0 : Token := .tgQuery .gp false
abbrev gqP1 : Token := .tgQuery .gp true
abbrev gqO0 : Token := .tgQuery .go false
abbrev gqO1 : Token := .tgQuery .go true

/-- The reset state after `CFG_DELAY 5`, `CFG_TIMEOUT 100`, with the oracle answers of a vector; after the listed ones
every sample is high, GP is "all 0", GO is expired and every delay is done. -/
def bus (scl sda gp go : List Bool) : State :=
  { State.reset with
    env := ⟨⟨scl, true⟩, ⟨sda, true⟩, ⟨gp, false⟩, ⟨go, true⟩, ⟨[], true⟩⟩
    delay := 5
    timeout := 100 }

/-- The same inside an open transaction: `SCL_OUT` = LOW, `SDA_OUT` = REL. -/
def openBus (scl sda gp : List Bool) : State := { bus scl sda gp [] with sclOut := .low }

/-- The command ends with this response and this trace, and its end state passes `p`. -/
def gives (i : Instr) (s : State) (resp : RespWord) (trace : List Token) (p : State → Bool) : Bool :=
  match exec i s with
  | .next t => t.resp == some resp && t.trace == trace && !t.busy && p t
  | .fault _ => false
  | .refused _ => false

/-- Both lines released. -/
def isIdle (t : State) : Bool := t.wires == ⟨.rel, .rel⟩

/-- The clock low and SDA released. -/
def isOpen (t : State) : Bool := t.wires == ⟨.rel, .low⟩

/-! ## WellFormed: a written command with an operand outside its field is refused, one for each check -/

theorem test_flag_refused : (Asm.stop (some 2)).wellFormed = false := by decide
theorem test_mode_refused : (Asm.start 0x50 2).wellFormed = false := by decide
theorem test_addr_refused : (Asm.beginTx 128).wellFormed = false := by decide
theorem test_raw_refused : (Asm.startRaw 256).wellFormed = false := by decide
theorem test_data_refused : (Asm.write 256).wellFormed = false := by decide
theorem test_count_refused : (Asm.reqFrom 0x50 256 none).wellFormed = false := by decide
theorem test_duration_refused : (Asm.cfgDelay 65536).wellFormed = false := by decide
theorem test_configure_refused : (Asm.configure 1 5 65536).wellFormed = false := by decide

/-! ## Decoding: the words of V2, V36, and each written out from the rows of R66 -/

theorem test_decode_stop : decode 0b00000001_00000000_00000000_00000001 = .ok (.stop true) := by decide
theorem test_decode_startRaw : decode 0b00000010_00000000_00000000_10100000 = .ok (.startRaw 0xA0) := by decide
theorem test_decode_rstartRaw : decode 0x030000A1 = .ok (.rstartRaw 0xA1) := by decide
theorem test_decode_startwRaw : decode 0x040000A0 = .ok (.startwRaw 0xA0) := by decide
theorem test_decode_start : decode 0b00000101_00000000_01111111_00000001 = .ok (.start 0x7F .read) := by decide
theorem test_decode_rstart : decode 0x06005001 = .ok (.rstart 0x50 .read) := by decide
theorem test_decode_startw : decode 0x07005000 = .ok (.startw 0x50 .write) := by decide
theorem test_decode_write : decode 0b00001000_00000000_00000000_00111100 = .ok (.write 0x3C) := by decide
theorem test_decode_read : decode 0x09000001 = .ok (.read true) := by decide
theorem test_decode_beginTx : decode 0x10007F00 = .ok (.beginTx 0x7F) := by decide
theorem test_decode_txPut : decode 0x1100007F = .ok (.txPut 0x7F) := by decide
theorem test_decode_endTx : decode 0x12000000 = .ok (.endTx false) := by decide
theorem test_decode_reqFrom : decode 0b00010011_00000010_01010000_00000001 = .ok (.reqFrom 0x50 2 true) := by decide
theorem test_decode_reqFrom_max : decode 0x13FF7F00 = .ok (.reqFrom 0x7F 255 false) := by decide
theorem test_decode_rxGet : decode 0x14000000 = .ok .rxGet := by decide
theorem test_decode_rxPeek : decode 0x15000000 = .ok .rxPeek := by decide
theorem test_decode_rxAvail : decode 0x16000000 = .ok .rxAvail := by decide
theorem test_decode_cfgPullups : decode 0x20000001 = .ok (.cfgPullups true) := by decide
theorem test_decode_cfgDelay : decode 0x2100FFFF = .ok (.cfgDelay 0xFFFF) := by decide
theorem test_decode_cfgTimeout : decode 0b00100010_00000000_00000000_01100100 = .ok (.cfgTimeout 100) := by decide
theorem test_decode_init : decode 0x23000000 = .ok .init := by decide

/-- V36: the illegal words, with the reason the vector gives. -/
theorem test_illegal_opcodes :
    [0x00000000, 0x0A000000, 0x17000000, 0x24000000, 0xFF000000].map decode =
      [0x00, 0x0A, 0x17, 0x24, 0xFF].map (fun o => .error (.unknownOpcode o)) := by decide

theorem test_illegal_reserved :
    [0x01000002, 0x02010000, 0x05008000, 0x05005002, 0x09000100, 0x10005001, 0x13028001, 0x14000001, 0x21010005,
      0x23000001].map decode =
    ["STOP", "START_RAW", "START", "START", "READ", "BEGIN_TX", "REQ_FROM", "RX_GET", "CFG_DELAY", "INIT"].map
      (fun m => .error (.reservedBitSet m)) := by decide

/-- V36: the response to an illegal word is `0x8000` with an empty trace. -/
theorem test_illegal_answer : (match step (State.reset.withFetchWord 32 0x05008000) with
    | .next t => t.resp == some 0x8000 && t.trace == []
    | _ => false) = true := by decide

/-- V1: raw address bytes. -/
theorem test_raw_bytes :
    [rawByte 0x00 .read, rawByte 0x50 .write, rawByte 0x7F .write, rawByte 0x29 .write, rawByte 0x2A .read] =
      [0x01, 0xA0, 0xFE, 0x52, 0x55] := by decide

/-! ## The commands -/

/-- V5: two low samples. -/
theorem test_stop_stretched : gives (.stop true) (bus [false, false, true] [] [false, false] []) 0x0000
    ([gsP, c, w, d, w, C, rc0, gqP0, rc0, gqP0, rc1, w, D, w])
    (isIdle) = true := by decide

/-- V6: the guard expires at its second query. -/
theorem test_stop_expired : gives (.stop true) (bus [false, false] [] [false, true] []) 0x0200
    ([gsP, c, w, d, w, C, rc0, gqP0, rc0, gqP1, c, w, d, w, C, w, D, w])
    (isIdle) = true := by decide

/-- V7. -/
theorem test_startRaw : gives (.startRaw 0xA0) (bus [true] [false] [] []) 0x0000
    ([d, w, c, w, gsP, c, D, w, C, w, gqP0, c, d, w, C, w, gqP0, c, D, w, C, w, gqP0, c, d, w, C, w, gqP0, c, d, w, C,
      w, gqP0, c, d, w, C, w] ++
    [gqP0, c, d, w, C, w, gqP0, c, d, w, C, w, gqP0, c, D, w, C, rc1, rd0, c])
    (fun t => isOpen t && t.sr == 0xA0) = true := by decide

/-- V8. -/
theorem test_start_nack : gives (.start 0x29 .write) (bus [true] [true] [] []) 0x0100
    ([d, w, c, w, gsP, c, d, w, C, w, gqP0, c, D, w, C, w, gqP0, c, d, w, C, w, gqP0, c, D, w, C, w, gqP0, c, d, w, C,
      w, gqP0, c, d, w, C, w] ++
    [gqP0, c, D, w, C, w, gqP0, c, d, w, C, w, gqP0, c, D, w, C, rc1, rd1, c])
    (fun t => isOpen t && t.taddr == 0) = true := by decide

/-- V9. -/
theorem test_rstartRaw : gives (.rstartRaw 0xA1) (openBus [true] [false] []) 0x0000
    ([D, w, C, w, d, w, gsP, c, D, w, C, w, gqP0, c, d, w, C, w, gqP0, c, D, w, C, w, gqP0, c, d, w, C, w, gqP0, c, d,
      w, C, w, gqP0, c, d, w] ++
    [C, w, gqP0, c, d, w, C, w, gqP0, c, D, w, C, w, gqP0, c, D, w, C, rc1, rd0, c])
    (isOpen) = true := by decide

/-- V10: from an idle bus, token for token V9. -/
theorem test_rstart_from_idle : gives (.rstart 0x50 .read) (bus [true] [false] [] []) 0x0000
    ([D, w, C, w, d, w, gsP, c, D, w, C, w, gqP0, c, d, w, C, w, gqP0, c, D, w, C, w, gqP0, c, d, w, C, w, gqP0, c, d,
      w, C, w, gqP0, c, d, w] ++
    [C, w, gqP0, c, d, w, C, w, gqP0, c, D, w, C, w, gqP0, c, D, w, C, rc1, rd0, c])
    (isOpen) = true := by decide

set_option maxRecDepth 10000 in
/-- V12: the second attempt is acknowledged. -/
theorem test_startwRaw_retried : gives (.startwRaw 0xA0) (bus [true, true, true] [true, false] [] [false, false]) 0x0000
    ([gsO, gqO0, d, w, c, w, gsP, c, D, w, C, w, gqP0, c, d, w, C, w, gqP0, c, D, w, C, w, gqP0, c, d, w, C, w, gqP0,
      c, d, w, C, w, gqP0, c, d, w] ++
    [C, w, gqP0, c, d, w, C, w, gqP0, c, d, w, C, w, gqP0, c, D, w, C, rc1, rd1, c, gsP, c, w, d, w, C, rc1, w, D, w,
      gqO0, d, w, c, w, gsP, c, D] ++
    [w, C, w, gqP0, c, d, w, C, w, gqP0, c, D, w, C, w, gqP0, c, d, w, C, w, gqP0, c, d, w, C, w, gqP0, c, d, w, C, w,
      gqP0, c, d, w, C, w, gqP0] ++
    [c, d, w, C, w, gqP0, c, D, w, C, rc1, rd0, c])
    (isOpen) = true := by decide

set_option maxRecDepth 10000 in
/-- V14: the byte write times out, and a second STOP follows. -/
theorem test_startwRaw_fatal : gives (.startwRaw 0xA0) (bus [false, false, true] [] [false, false, false, false, false, false, false, false, false, true] [false]) 0x0200
    ([gsO, gqO0, d, w, c, w, gsP, c, D, w, C, w, gqP0, c, d, w, C, w, gqP0, c, D, w, C, w, gqP0, c, d, w, C, w, gqP0,
      c, d, w, C, w, gqP0, c, d, w] ++
    [C, w, gqP0, c, d, w, C, w, gqP0, c, d, w, C, w, gqP0, c, D, w, C, rc0, gqP0, rc0, gqP1, c, w, d, w, C, w, D, w,
      gsP, c, w, d, w, C, rc1, w, D] ++
    [w])
    (isIdle) = true := by decide

/-- V13: GO expires after one attempt. -/
theorem test_startw_gives_up : gives (.startw 0x50 .write) (bus [true, true] [true] [] [false, true]) 0x0200
    ([gsO, gqO0, d, w, c, w, gsP, c, D, w, C, w, gqP0, c, d, w, C, w, gqP0, c, D, w, C, w, gqP0, c, d, w, C, w, gqP0,
      c, d, w, C, w, gqP0, c, d, w] ++
    [C, w, gqP0, c, d, w, C, w, gqP0, c, d, w, C, w, gqP0, c, D, w, C, rc1, rd1, c, gsP, c, w, d, w, C, rc1, w, D, w,
      gqO1])
    (isIdle) = true := by decide

/-- V16: the guard expires after the third bit. -/
theorem test_write_aborted : gives (.write 0xFF) (openBus [] [] [false, false, true]) 0x0200
    ([gsP, c, D, w, C, w, gqP0, c, D, w, C, w, gqP0, c, D, w, C, w, gqP1, c, w, d, w, C, w, D, w])
    (isIdle) = true := by decide

/-- V18: never a NACK when the acknowledge pulse times out. -/
theorem test_write_ack_aborted : gives (.write 0x81) (openBus [false, false] [] [false, false, false, false, false, false, false, false, false, true]) 0x0200
    ([gsP, c, D, w, C, w, gqP0, c, d, w, C, w, gqP0, c, d, w, C, w, gqP0, c, d, w, C, w, gqP0, c, d, w, C, w, gqP0, c,
      d, w, C, w, gqP0, c, d, w] ++
    [C, w, gqP0, c, D, w, C, w, gqP0, c, D, w, C, rc0, gqP0, rc0, gqP1, c, w, d, w, C, w, D, w])
    (isIdle) = true := by decide

/-- V23: the first bit sampled lands in bit 7. -/
theorem test_read_stretched : gives (.read false) (openBus [false] [true, false, false, false, false, false, false, false] [false]) 0x0080
    ([gsP, c, D, w, C, w, rc0, gqP0, rc1, rd1, c, D, w, C, w, rc1, rd0, c, D, w, C, w, rc1, rd0, c, D, w, C, w, rc1,
      rd0, c, D, w, C, w, rc1, rd0, c, D] ++
    [w, C, w, rc1, rd0, c, D, w, C, w, rc1, rd0, c, D, w, C, w, rc1, rd0, c, D, w, C, rc1, c])
    (fun t => isOpen t && t.sr == 0x80) = true := by decide

/-- V22: all bits arrived, and the byte is not returned. -/
theorem test_read_ack_aborted : gives (.read true) (openBus [true, true, true, true, true, true, true, true, false, false] [true, true, false, false, false, false, true, true] [false, true]) 0x0200
    ([gsP, c, D, w, C, w, rc1, rd1, c, D, w, C, w, rc1, rd1, c, D, w, C, w, rc1, rd0, c, D, w, C, w, rc1, rd0, c, D, w,
      C, w, rc1, rd0, c, D, w, C] ++
    [w, rc1, rd0, c, D, w, C, w, rc1, rd1, c, D, w, C, w, rc1, rd1, c, d, w, C, rc0, gqP0, rc0, gqP1, c, w, d, w, C,
      w, D, w])
    (isIdle) = true := by decide

/-- V24, with `TX_CAP` = 2: the state after step 2. -/
def half : State :=
  { bus [] [] [] [] with params := ⟨2, 2, 0, 0⟩, taddr := 0x10, phase := .transmitting, txbuf := [(0, 0x01)], txlen := 1 }

/-- V24 step 5: contents stay, and only the cursor is cleared. -/
theorem test_beginTx : gives (.beginTx 0x10) half 0x0000 []
    (fun t => t.taddr == 0x10 && t.dir == .write && t.txlen == 0 && t.phase == .transmitting &&
      t.txbuf == [(0, 0x01)]) = true := by decide

/-- V24 step 3: accepted at `TX_CAP - 1`. -/
theorem test_txPut_last : gives (.txPut 0x02) half 0x0800 []
    (fun t => t.txbuf == [(0, 0x01), (1, 0x02)] && t.txlen == 2) = true := by decide

/-- V24 step 4: saturated. -/
theorem test_txPut_full : gives (.txPut 0x03) { half with txbuf := [(0, 0x01), (1, 0x02)], txlen := 2 } 0x0000 []
    (fun t => t.txbuf == [(0, 0x01), (1, 0x02)] && t.txlen == 2) = true := by decide

set_option maxRecDepth 10000 in
/-- V27: the second data byte is not acknowledged, and the STOP is deferred. -/
theorem test_endTx_data_nack : gives (.endTx false) { bus [true, true, true] [false, false, true] [] [] with
      taddr := 0x50, txbuf := [(0, 0x11), (1, 0x22), (2, 0x33)], txlen := 3, phase := .transmitting } 0x0300
    ([d, w, c, w, gsP, c, D, w, C, w, gqP0, c, d, w, C, w, gqP0, c, D, w, C, w, gqP0, c, d, w, C, w, gqP0, c, d, w, C,
      w, gqP0, c, d, w, C, w] ++
    [gqP0, c, d, w, C, w, gqP0, c, d, w, C, w, gqP0, c, D, w, C, rc1, rd0, c, gsP, c, d, w, C, w, gqP0, c, d, w, C, w,
      gqP0, c, d, w, C, w, gqP0, c] ++
    [D, w, C, w, gqP0, c, d, w, C, w, gqP0, c, d, w, C, w, gqP0, c, d, w, C, w, gqP0, c, D, w, C, w, gqP0, c, D, w, C,
      rc1, rd0, c, gsP, c, d, w] ++
    [C, w, gqP0, c, d, w, C, w, gqP0, c, D, w, C, w, gqP0, c, d, w, C, w, gqP0, c, d, w, C, w, gqP0, c, d, w, C, w,
      gqP0, c, D, w, C, w, gqP0, c] ++
    [d, w, C, w, gqP0, c, D, w, C, rc1, rd1, c])
    (fun t => isOpen t && t.stopDeferred && t.phase == .idle && t.txlen == 3) = true := by decide

set_option maxRecDepth 10000 in
/-- P3 command 3: the data byte and the final STOP both time out. -/
theorem test_endTx_stuck_clock : gives (.endTx true) { bus [true, false, false, false, false] [false] [false, false, false, false, false, false, false, false, false, false, false, false, false, false, false, false, false, true, false, true] [] with
      taddr := 0x50, txbuf := [(0, 0xAA)], txlen := 1 } 0x0400
    ([d, w, c, w, gsP, c, D, w, C, w, gqP0, c, d, w, C, w, gqP0, c, D, w, C, w, gqP0, c, d, w, C, w, gqP0, c, d, w, C,
      w, gqP0, c, d, w, C, w] ++
    [gqP0, c, d, w, C, w, gqP0, c, d, w, C, w, gqP0, c, D, w, C, rc1, rd0, c, gsP, c, D, w, C, w, gqP0, c, d, w, C, w,
      gqP0, c, D, w, C, w, gqP0, c] ++
    [d, w, C, w, gqP0, c, D, w, C, w, gqP0, c, d, w, C, w, gqP0, c, D, w, C, w, gqP0, c, d, w, C, w, gqP0, c, D, w, C,
      rc0, gqP0, rc0, gqP1, c, w, d] ++
    [w, C, w, D, w, gsP, c, w, d, w, C, rc0, gqP0, rc0, gqP1, c, w, d, w, C, w, D, w])
    (fun t => isIdle t && !t.stopDeferred && t.txlen == 1) = true := by decide

set_option maxRecDepth 10000 in
/-- V31: the clock sticks in the second byte. -/
theorem test_reqFrom_short : gives (.reqFrom 0x50 3 true) (bus [true, true, true, true, true, true, true, true, true, true, false, false, true] [false, false, true, true, true, false, true, true, true] [false, false, false, false, false, false, false, false, false, true] []) 0x0001
    ([d, w, c, w, gsP, c, D, w, C, w, gqP0, c, d, w, C, w, gqP0, c, D, w, C, w, gqP0, c, d, w, C, w, gqP0, c, d, w, C,
      w, gqP0, c, d, w, C, w] ++
    [gqP0, c, d, w, C, w, gqP0, c, D, w, C, w, gqP0, c, D, w, C, rc1, rd0, c, gsP, c, D, w, C, w, rc1, rd0, c, D, w,
      C, w, rc1, rd1, c, D, w, C, w] ++
    [rc1, rd1, c, D, w, C, w, rc1, rd1, c, D, w, C, w, rc1, rd0, c, D, w, C, w, rc1, rd1, c, D, w, C, w, rc1, rd1, c,
      D, w, C, w, rc1, rd1, c, d, w] ++
    [C, rc1, c, gsP, c, D, w, C, w, rc0, gqP0, rc0, gqP1, c, w, d, w, C, w, D, w, gsP, c, w, d, w, C, rc1, w, D, w])
    (fun t => isIdle t && t.rxbuf == [(0, 0x77)] && t.rxlen == 1 && t.taddr == 0x50 && t.dir == .read) = true := by decide

set_option maxRecDepth 10000 in
/-- P5 command 5: `COUNT` = 3 with `RX_CAP` = 2; the outgoing buffer is not disturbed. -/
theorem test_reqFrom_truncated : gives (.reqFrom 0x10 3 true) { bus [] [false, true, true, false, true, true, true, true, false, true, false, true, false, true, true, false, true] [] [] with
      params := ⟨2, 2, 0, 0⟩, txbuf := [(0, 0x01), (1, 0x02)], txlen := 2 } 0x0002
    ([d, w, c, w, gsP, c, d, w, C, w, gqP0, c, d, w, C, w, gqP0, c, D, w, C, w, gqP0, c, d, w, C, w, gqP0, c, d, w, C,
      w, gqP0, c, d, w, C, w] ++
    [gqP0, c, d, w, C, w, gqP0, c, D, w, C, w, gqP0, c, D, w, C, rc1, rd0, c, gsP, c, D, w, C, w, rc1, rd1, c, D, w,
      C, w, rc1, rd1, c, D, w, C, w] ++
    [rc1, rd0, c, D, w, C, w, rc1, rd1, c, D, w, C, w, rc1, rd1, c, D, w, C, w, rc1, rd1, c, D, w, C, w, rc1, rd1, c,
      D, w, C, w, rc1, rd0, c, d, w] ++
    [C, rc1, c, gsP, c, D, w, C, w, rc1, rd1, c, D, w, C, w, rc1, rd0, c, D, w, C, w, rc1, rd1, c, D, w, C, w, rc1,
      rd0, c, D, w, C, w, rc1, rd1, c] ++
    [D, w, C, w, rc1, rd1, c, D, w, C, w, rc1, rd0, c, D, w, C, w, rc1, rd1, c, D, w, C, rc1, c, gsP, c, w, d, w, C,
      rc1, w, D, w])
    (fun t => isIdle t && t.rxbuf == [(0, 0xDE), (1, 0xAD)] && t.rxlen == 2 && t.txlen == 2 && t.phase == .idle) = true := by decide

/-- V33: `RXBUF` = [0x12, 0x34], `RXLEN` = 2. -/
def received (rxpos : BitVec 8) : State := { bus [] [] [] [] with rxbuf := [(0, 0x12), (1, 0x34)], rxlen := 2, rxpos := rxpos }

theorem test_rxGet : gives .rxGet (received 1) 0x0834 [] (fun t => t.rxpos == 2) = true := by decide
theorem test_rxGet_empty : gives .rxGet (received 2) 0x0000 [] (fun t => t.rxpos == 2) = true := by decide
theorem test_rxPeek : gives .rxPeek (received 0) 0x0812 [] (fun t => t.rxpos == 0) = true := by decide
theorem test_rxPeek_empty : gives .rxPeek (received 2) 0x0000 [] (fun t => t.rxpos == 2) = true := by decide
theorem test_rxAvail : gives .rxAvail (received 1) 0x0001 [] (fun t => t.rxpos == 1) = true := by decide

/-- V34. -/
theorem test_cfgPullups : gives (.cfgPullups true) (bus [] [] [] []) 0x0000 [] (fun t => t.ports.pullupEn) = true := by
  decide
theorem test_cfgDelay : gives (.cfgDelay 0) (bus [] [] [] []) 0x0000 []
    (fun t => t.delay == 0 && t.timeout == 100) = true := by decide
theorem test_cfgTimeout : gives (.cfgTimeout 0xFFFF) (bus [] [] [] []) 0x0000 []
    (fun t => t.delay == 5 && t.timeout == 0xFFFF) = true := by decide

/-- V35. -/
theorem test_init : gives .init
    { bus [] [] [] [] with sdaOut := .low, sclOut := .low, stopDeferred := true, phase := .transmitting, txlen := 3,
                           rxlen := 2, rxpos := 1, taddr := 0x50 } 0x0000 [C, D]
    (fun t => isIdle t && !t.stopDeferred && t.phase == .idle && t.txlen == 0 && t.rxlen == 0 && t.rxpos == 0 &&
      t.delay == 5 && t.taddr == 0x50) = true := by decide

/-! ## Reset, and free values -/

/-- R221: `rst` after the fourth action of a START: no response, no forced STOP, both lines released. -/
theorem test_reset_during : (match step { bus [true] [false] [] [] with host := [.resetDuring 0x020000A0 4] } with
    | .next t => t.trace == [d, w, c, w] && t.resp == none && isIdle t && t.delay == 0
    | _ => false) = true := by decide

/-- U3: `SR` after an abort is a free value, the one the counter names. -/
theorem test_abort_frees_sr : (match exec (.write 0xFF) (openBus [] [] [true]) with
    | .next t => t.sr = Config.freeByte 0 ∧ t.bitcnt = Config.freeNibble 0 ∧ t.draws = 1
    | _ => False) := ⟨rfl, rfl, rfl⟩

/-- U1: an element nothing has written is a free value. -/
theorem test_unwritten_free : State.reset.txByte 3 = Config.unwrittenTx 3 := rfl

/-! ## The PEC utility: V38 -/

set_option maxRecDepth 10000 in
theorem test_crc : [crc8Update 0x00 0x01, crc8Update 0x00 0x80, crc8 0 [0xA0, 0x00, 0x7F]] = [0x07, 0x89, 0x32] := by
  decide

/-! ## Witnesses: for every obligation with hypotheses, a concrete state and operands that meet them together -/

/-- A host that presents one command. -/
def offers (e : HostEvent) (s : State) : State := { s with host := [e] }

theorem witness_DecodeReadsBackEveryEncodedCommand : (Instr.reqFrom 0x7F 255 true).wellFormed = true := by decide

theorem witness_EveryDecodedWordIsItsEncoding : decode 0x13FF7F00 = .ok (.reqFrom 0x7F 255 false) := by decide

theorem witness_IllegalWordIsAnsweredAndDoesNothing :
    (∀ r ∈ opcodeTable, (0x01000002 : CmdWord) &&& r.mask ≠ r.pattern) ∧
      (offers (.command 0x01000002) State.reset).busy = false ∧
      (offers (.command 0x01000002) State.reset).host = .command 0x01000002 :: [] := by decide

theorem witness_WrittenCommandsAssembleToTheirWords :
    (Asm.reqFrom 127 255 none).wellFormed = true ∧ (Asm.configure 1 65535 0).wellFormed = true := by decide

theorem witness_StepRunsTheDecodedCommand :
    (offers (.command 0x23000000) State.reset).busy = false ∧
      (offers (.command 0x23000000) State.reset).host = .command 0x23000000 :: [] ∧
      decode 0x23000000 = .ok .init := by decide

theorem witness_NothingIsAcceptedWhileBusy :
    State.reset.host = [] ∧ ({ offers (.command 0x23000000) State.reset with busy := true } : State).busy = true ∧
      ({ offers (.command 0x23000000) State.reset with busy := true } : State).host = .command 0x23000000 :: [] ∧
      (offers .reset State.reset).host = .reset :: [] := by decide

theorem witness_ResetSetsTheTable : (offers .reset (bus [] [] [] [])).host = .reset :: [] := rfl

/-- A STOP on a clock that never rises with a guard that never expires, cut after 12 actions. -/
def cutStop : State := offers (.resetDuring 0x01000001 12) { bus [] [] [] [] with
  env := ⟨⟨[], false⟩, ⟨[], true⟩, ⟨[], false⟩, ⟨[], true⟩, ⟨[], true⟩⟩ }

/-- Answers like those of `cutStop` for 12 calls, with which the same STOP times out. -/
def cutStopEnds : Env := ⟨⟨[], false⟩, ⟨[], true⟩, ⟨List.replicate 12 false, true⟩, ⟨[], true⟩, ⟨[], true⟩⟩

/-- Also for its inner clause, of a command that is stuck without the reset. -/
theorem witness_ResetDuringCommandGivesResetState :
    cutStop.busy = false ∧ cutStop.host = .resetDuring 0x01000001 12 :: [] ∧
      cutStopEnds.SameAnswers 12 cutStop.env ∧ cutStopEnds.delayDone.take 12 = cutStop.env.delayDone.take 12 ∧
      ∃ u, runCommand 0x01000001 { acceptCommand [] cutStop with env := cutStopEnds } = .next u :=
  ⟨rfl, rfl, ⟨rfl, rfl, rfl, rfl⟩, rfl, _, rfl⟩

/-- What it performed: `gsP c _ d _ C` and three low samples, and nothing after them. -/
theorem test_reset_during_stuck : (match step cutStop with
    | .next t => t.trace == [gsP, c, w, d, w, C, rc0, gqP0, rc0, gqP0, rc0, gqP0] && t.resp == none && isIdle t
    | _ => false) = true := by decide

/-- Clause 2 with a stuck command, clause 3 with one that ends. -/
theorem witness_ResetDuringCommandCutsItsTrace :
    (cutStop.busy = false ∧ cutStop.host = .resetDuring 0x01000001 12 :: [] ∧
      cutStopEnds.SameAnswers 12 cutStop.env ∧
      ∃ u, runCommand 0x01000001 { acceptCommand [] cutStop with env := cutStopEnds } = .next u) ∧
    (offers (.resetDuring 0x020000A0 7) (bus [] [] [] [])).busy = false ∧
      (offers (.resetDuring 0x020000A0 7) (bus [] [] [] [])).host = .resetDuring 0x020000A0 7 :: [] ∧
      ∃ u, runCommand 0x020000A0 (acceptCommand [] (offers (.resetDuring 0x020000A0 7) (bus [] [] [] []))) = .next u :=
  ⟨⟨rfl, rfl, ⟨rfl, rfl, rfl, rfl⟩, _, rfl⟩, rfl, rfl, _, rfl⟩

/-- Also for EveryResponseIsOneTheCommandCanGive, CommandsOnlyAppendActions and SamplesAndQueriesAreDisciplined: a
command that ends, with a stretched clock. -/
theorem witness_EveryResponseIsOneTheCommandCanGive :
    ∃ t, exec (.write 0x3C) (openBus [false, true] [true] []) = .next t := ⟨_, rfl⟩

theorem witness_CommandsOnlyAppendActions : ∃ t, exec (.read true) (openBus [false, true] [true] []) = .next t :=
  ⟨_, rfl⟩

theorem witness_SamplesAndQueriesAreDisciplined :
    ∃ t, exec (.startwRaw 0xA0) (bus [] [true, false] [] [false, false]) = .next t := ⟨_, rfl⟩

theorem witness_InvariantHoldsAtReset : (⟨1, 255, 0, 0⟩ : Params).Valid ∧ (⟨255, 1, 0, 0⟩ : Params).Valid := by decide

/-- A state with a received byte left to read, and one byte enqueued, that meets the invariant. -/
def inUse : State := { received 1 with txbuf := [(0, 0x55)], txlen := 1, phase := .transmitting }

theorem inUse_inv : inUse.Inv where
  params := by decide
  txCursor := by decide
  rxCursor := by decide
  rxRead := by decide
  txWf := by decide
  rxWf := by decide
  txWithin := by simp [Memory.within, inUse, received, bus, State.reset, State.powerUp, Params.nominal]
  rxWithin := by simp [Memory.within, inUse, received, bus, State.reset, State.powerUp, Params.nominal]
  txFilled := fun i hi => by
    have h : i < 1 := hi
    obtain rfl : i = 0 := by omega
    rfl
  rxFilled := fun i hi => by
    have h : i < 2 := hi
    interval_cases i <;> rfl
  ready := rfl
  phase := by decide

theorem witness_EveryStepKeepsTheInvariant :
    (offers (.command 0x11000001) inUse).Inv ∧ ∃ t, step (offers (.command 0x11000001) inUse) = .next t :=
  ⟨⟨inUse_inv.params, inUse_inv.txCursor, inUse_inv.rxCursor, inUse_inv.rxRead, inUse_inv.txWf, inUse_inv.rxWf,
    inUse_inv.txWithin, inUse_inv.rxWithin, inUse_inv.txFilled, inUse_inv.rxFilled, inUse_inv.ready, inUse_inv.phase⟩,
    _, rfl⟩

/-- Clause 2 at the last free element, clause 4 with a full buffer. -/
theorem witness_CursorsStayInsideTheBuffers :
    (half.params.Valid ∧ half.txlen.toNat ≤ half.params.txCap ∧ half.rxpos.toNat ≤ half.rxlen.toNat ∧
      half.rxlen.toNat ≤ half.params.rxCap ∧ ∃ t, exec (.txPut 0x02) half = .next t) ∧
      ({ half with txlen := 2 } : State).params.txCap ≤ ({ half with txlen := 2 } : State).txlen.toNat :=
  ⟨⟨by decide, by decide, by decide, by decide, _, rfl⟩, by decide⟩

theorem witness_BusPrimitivesIgnoreTheTransactionState :
    Instr.isBusPrimitive (.stop true) = true ∧ ∃ t, exec (.stop true) (bus [] [] [] []) = .next t := ⟨rfl, _, rfl⟩

/-- An environment that meets the liveness premise with a clock that is low for ever. -/
def stuckClock : State := { bus [] [] [false, false, true] [false, true] with
  env := ⟨⟨[], false⟩, ⟨[], true⟩, ⟨[false, false], true⟩, ⟨[false], true⟩, ⟨[true], true⟩⟩ }

theorem stuckClock_live : stuckClock.env.Live := ⟨rfl, rfl, by decide, rfl⟩

theorem witness_EveryCommandEndsWhenGuardsExpire : stuckClock.env.Live := stuckClock_live

theorem witness_RunsAreSafeWhenGuardsExpire : (offers (.command 0x01000001) stuckClock).env.Live := stuckClock_live

theorem witness_ClockWaitHasNoLimitOfItsOwn : ∃ r, waitLoop .gp 9 (bus [false, false, true] [] [] []) = .ok r := ⟨_, rfl⟩

theorem witness_StartWaitHasNoLimitOfItsOwn :
    ∃ r, startWaitLoop 0xA0 9 (tgStart .go (bus [] [true, false] [] [false, false])) = .ok r := ⟨_, rfl⟩

/-- Clause 1: nothing ever ends the wait, for a command that asks GO first and for one that does not. Clause 2: no delay
is ever done. Clause 3: every attempt is refused and GO never expires. -/
theorem witness_StuckWithoutLiveness :
    (∃ s : State, s.env.scl.AllAre false ∧ s.env.gp.AllAre false ∧ s.env.delayDone.AllAre true ∧
      s.env.go.head = false ∧ Instr.waitsForClock (.startwRaw 0xA0) = true ∧
      Instr.waitsForClock (.endTx true) = true ∧ Instr.asksOuterGuard (.endTx true) = false) ∧
    (∃ s : State, s.env.delayDone.head = false ∧ Instr.waitsForClock (.read true) = true ∧
      Instr.asksOuterGuard (.read true) = false) ∧
    (∃ s : State, s.env.Quiet ∧ s.env.sda.AllAre true ∧ s.env.go.AllAre false ∧
      Instr.asksOuterGuard (.startw 0x50 .write) = true) :=
  ⟨⟨{ bus [] [] [] [] with env := ⟨⟨[false], false⟩, ⟨[], true⟩, ⟨[], false⟩, ⟨[false], true⟩, ⟨[], true⟩⟩ },
      ⟨by decide, rfl⟩, ⟨by decide, rfl⟩, ⟨by decide, rfl⟩, rfl, rfl, rfl, rfl⟩,
    ⟨{ bus [] [] [] [] with env := ⟨⟨[], true⟩, ⟨[], true⟩, ⟨[], true⟩, ⟨[], true⟩, ⟨[], false⟩⟩ }, rfl, rfl, rfl⟩,
    { bus [] [] [] [] with env := ⟨⟨[], true⟩, ⟨[], true⟩, ⟨[], false⟩, ⟨[], false⟩, ⟨[], true⟩⟩ },
    ⟨⟨by decide, rfl⟩, ⟨by decide, rfl⟩, ⟨by decide, rfl⟩⟩, ⟨by decide, rfl⟩, ⟨by decide, rfl⟩, rfl⟩

/-- Both clauses, the second with no low sample and with two. -/
theorem witness_StopCompletes :
    (bus [] [] [] []).env.delayDone.Begins (List.replicate 4 true) ∧
      (bus [] [] [] []).env.scl.Begins (List.replicate 0 false ++ [true]) ∧
      (bus [] [] [] []).env.gp.Begins (List.replicate 0 false) ∧
      (bus [false, false, true] [] [] []).env.scl.Begins (List.replicate 2 false ++ [true]) ∧
      (bus [false, false, true] [] [] []).env.gp.Begins (List.replicate 2 false) := ⟨rfl, rfl, rfl, rfl, rfl⟩

theorem witness_StopTimesOut :
    (bus [false] [] [true] []).env.delayDone.Begins (List.replicate 6 true) ∧
      (bus [false] [] [true] []).env.scl.Begins (List.replicate (0 + 1) false) ∧
      (bus [false] [] [true] []).env.gp.Begins (List.replicate 0 false ++ [true]) := ⟨rfl, rfl, rfl⟩

theorem witness_WriteCompletes :
    (bus [false, true] [true] [] []).env.delayDone.Begins (List.replicate 17 true) ∧
      (bus [false, true] [true] [] []).env.gp.Begins (List.replicate (8 + 1) false) ∧
      (bus [false, true] [true] [] []).env.scl.Begins (List.replicate 1 false ++ [true]) ∧
      (bus [false, true] [true] [] []).env.sda.Begins [true] := ⟨rfl, rfl, rfl, rfl⟩

/-- Clause 1 at the first and the last data pulse, clause 2 at the first low sample. -/
theorem witness_WriteTimesOut :
    ((0 < 8 ∧ (bus [] [] [true] []).env.delayDone.Begins (List.replicate (2 * 0 + 6) true) ∧
        (bus [] [] [true] []).env.gp.Begins (List.replicate 0 false ++ [true])) ∧
      (7 < 8 ∧ (bus [] [] (List.replicate 7 false ++ [true]) []).env.delayDone.Begins (List.replicate (2 * 7 + 6) true) ∧
        (bus [] [] (List.replicate 7 false ++ [true]) []).env.gp.Begins (List.replicate 7 false ++ [true]))) ∧
    (bus [false] [] (List.replicate 8 false ++ [true]) []).env.delayDone.Begins (List.replicate 21 true) ∧
      (bus [false] [] (List.replicate 8 false ++ [true]) []).env.gp.Begins (List.replicate (8 + 0) false ++ [true]) ∧
      (bus [false] [] (List.replicate 8 false ++ [true]) []).env.scl.Begins (List.replicate (0 + 1) false) :=
  ⟨⟨⟨by decide, rfl, rfl⟩, by decide, rfl, rfl⟩, rfl, rfl, rfl⟩

/-- A byte write that is not acknowledged, and one that times out. -/
theorem witness_ByteWritePostcondition :
    (∃ t, opWrite 0x3C (openBus [] [true] []) = .ok (.nack, t)) ∧
      ∃ t, opWrite 0x3C (openBus [] [] [true]) = .ok (.timedOut, t) := ⟨⟨_, rfl⟩, _, rfl⟩

theorem witness_ReadCompletes :
    (openBus [] (bitsMsb 0x5A) []).env.delayDone.Begins (List.replicate 17 true) ∧
      (openBus [] (bitsMsb 0x5A) []).env.scl.Begins (List.replicate 9 true) ∧
      (openBus [] (bitsMsb 0x5A) []).env.sda.Begins (bitsMsb 0x5A) := ⟨rfl, rfl, rfl⟩

/-- At the first data pulse and at the acknowledge pulse. -/
theorem witness_ReadTimesOut :
    (0 ≤ 8 ∧ (bus [false] [] [true] []).env.delayDone.Begins (List.replicate (if 0 < 8 then 2 * 0 + 6 else 21) true) ∧
      (bus [false] [] [true] []).env.scl.Begins (List.replicate 0 true ++ List.replicate (0 + 1) false) ∧
      (bus [false] [] [true] []).env.gp.Begins (List.replicate 0 false ++ [true]) ∧
      (bus [false] [] [true] []).env.sda.Begins ((bitsMsb 0).take 0)) ∧
    (8 ≤ 8 ∧ (bus (List.replicate 8 true ++ [false]) (bitsMsb 0xC3) [true] []).env.delayDone.Begins
        (List.replicate (if 8 < 8 then 2 * 8 + 6 else 21) true) ∧
      (bus (List.replicate 8 true ++ [false]) (bitsMsb 0xC3) [true] []).env.scl.Begins
        (List.replicate 8 true ++ List.replicate (0 + 1) false) ∧
      (bus (List.replicate 8 true ++ [false]) (bitsMsb 0xC3) [true] []).env.gp.Begins
        (List.replicate 0 false ++ [true]) ∧
      (bus (List.replicate 8 true ++ [false]) (bitsMsb 0xC3) [true] []).env.sda.Begins ((bitsMsb 0xC3).take 8)) :=
  ⟨⟨by decide, rfl, rfl, rfl, rfl⟩, by decide, rfl, rfl, rfl, rfl⟩

theorem witness_ByteReadPostcondition :
    (∃ t, opRead true (openBus [] (bitsMsb 0x5A) []) = .ok (.ack, 0x5A, t)) ∧
      ∃ b t, opRead true (openBus [false] [] [true]) = .ok (.timedOut, b, t) := ⟨⟨_, rfl⟩, _, _, rfl⟩

theorem witness_ShiftRegisterArithmetic :
    (6 < 7) ∧ (bitsMsb 0x5A).length = 8 ∧ ∃ t, writeBits 8 (openBus [] [] []) = .ok (true, t) :=
  ⟨by decide, rfl, _, rfl⟩

theorem witness_NineBitsOnTheWire :
    (∃ t, exec (.write 0x81) (openBus [] [] []) = .next t ∧ t.resp ≠ some 0x0200) ∧
      ∃ t, exec (.read false) (openBus [] [] []) = .next t ∧ t.resp ≠ some 0x0200 :=
  ⟨⟨_, rfl, by decide⟩, _, rfl, by decide⟩

theorem witness_StartCompletes :
    (bus [] [false] [] []).env.delayDone.Begins (List.replicate 19 true) ∧
      (bus [] [false] [] []).env.gp.Begins (List.replicate (8 + 0) false) ∧
      (bus [] [false] [] []).env.scl.Begins (List.replicate 0 false ++ [true]) ∧
      (bus [] [false] [] []).env.sda.Begins [false] ∧
      Instr.start 0x50 .read = .start (rawAddr 0xA1) (rawMode 0xA1) := ⟨rfl, rfl, rfl, rfl, rfl⟩

theorem witness_RepeatedStartCompletes :
    (openBus [] [false] []).env.delayDone.Begins (List.replicate 20 true) ∧
      (openBus [] [false] []).env.gp.Begins (List.replicate (8 + 0) false) ∧
      (openBus [] [false] []).env.scl.Begins (List.replicate 0 false ++ [true]) ∧
      (openBus [] [false] []).env.sda.Begins [false] ∧
      Instr.rstart 0x50 .read = .rstart (rawAddr 0xA1) (rawMode 0xA1) := ⟨rfl, rfl, rfl, rfl, rfl⟩

theorem bus_quiet (sda go : List Bool) : (bus [] sda [] go).env.Quiet :=
  ⟨⟨by simp [bus], rfl⟩, ⟨by simp [bus], rfl⟩, ⟨by simp [bus], rfl⟩⟩

/-- No attempt before the acknowledged one, and two. -/
theorem witness_StartWaitRetriesUntilAcknowledged :
    ((bus [] [false] [] [false]).env.Quiet ∧ (bus [] [false] [] [false]).env.go.Begins (List.replicate (0 + 1) false) ∧
      (bus [] [false] [] [false]).env.sda.Begins (List.replicate 0 true ++ [false])) ∧
    ((bus [] [true, true, false] [] [false, false, false]).env.Quiet ∧
      (bus [] [true, true, false] [] [false, false, false]).env.go.Begins (List.replicate (2 + 1) false) ∧
      (bus [] [true, true, false] [] [false, false, false]).env.sda.Begins (List.replicate 2 true ++ [false])) :=
  ⟨⟨bus_quiet _ _, rfl, rfl⟩, bus_quiet _ _, rfl, rfl⟩

/-- No attempt at all, and one. -/
theorem witness_StartWaitGivesUpWhenGuardExpires :
    ((bus [] [] [] [true]).env.Quiet ∧ (bus [] [] [] [true]).env.go.Begins (List.replicate 0 false ++ [true]) ∧
      (bus [] [] [] [true]).env.sda.Begins (List.replicate 0 true)) ∧
    ((bus [] [true] [] [false, true]).env.Quiet ∧
      (bus [] [true] [] [false, true]).env.go.Begins (List.replicate 1 false ++ [true]) ∧
      (bus [] [true] [] [false, true]).env.sda.Begins (List.replicate 1 true)) :=
  ⟨⟨bus_quiet _ _, rfl, rfl⟩, bus_quiet _ _, rfl, rfl⟩

/-- The first attempt in its last data pulse, and the second in its acknowledge pulse. -/
theorem witness_StartWaitTreatsTimeoutAsFatal :
    (7 ≤ 8 ∧ (bus [] [] (List.replicate 7 false ++ [true]) [false]).env.go.Begins (List.replicate (0 + 1) false) ∧
      (bus [] [] (List.replicate 7 false ++ [true]) [false]).env.sda.Begins (List.replicate 0 true) ∧
      (bus [] [] (List.replicate 7 false ++ [true]) [false]).env.delayDone.AllAre true ∧
      (bus [] [] (List.replicate 7 false ++ [true]) [false]).env.gp.Begins
        (List.replicate (8 * 0) false ++ writeTimeoutGp 7 0) ∧
      (bus [] [] (List.replicate 7 false ++ [true]) [false]).env.scl.Begins
        (List.replicate (2 * 0) true ++ writeTimeoutScl 7 0 ++ [true])) ∧
    ∃ s : State, 8 ≤ 8 ∧ s.env.go.Begins (List.replicate (1 + 1) false) ∧ s.env.sda.Begins (List.replicate 1 true) ∧
      s.env.delayDone.AllAre true ∧ s.env.gp.Begins (List.replicate (8 * 1) false ++ writeTimeoutGp 8 1) ∧
      s.env.scl.Begins (List.replicate (2 * 1) true ++ writeTimeoutScl 8 1 ++ [true]) :=
  ⟨⟨by decide, rfl, rfl, ⟨by simp [bus], rfl⟩, rfl, rfl⟩,
    bus [true, true, false, false, true] [true] (List.replicate 17 false ++ [true]) [false, false],
    by decide, rfl, rfl, ⟨by simp [bus], rfl⟩, rfl, rfl⟩

/-- One command for each clause; START-with-wait from an idle bus and from an open one. -/
theorem witness_CommandsMakeTheirBusConditions :
    (∃ t, exec (.stop false) (openBus [] [] []) = .next t) ∧
    (∃ t, exec (.startRaw 0xA0) (bus [] [] [] []) = .next t) ∧
    (∃ t, exec (.rstartRaw 0xA1) { bus [] [] [] [] with sdaOut := .low } = .next t) ∧
    (∃ t, exec (.write 0x3C) (openBus [] [] [true]) = .next t) ∧
    (∃ t, exec (.startwRaw 0xA0) (bus [] [true, false] [] [false, false]) = .next t) ∧
    ∃ t, exec (.startw 0x50 .write) { bus [] [true] [] [false, true] with sclOut := .low } = .next t :=
  ⟨⟨_, rfl⟩, ⟨_, rfl⟩, ⟨_, rfl⟩, ⟨_, rfl⟩, ⟨_, rfl⟩, _, rfl⟩

/-- V12's conditions: START, STOP, START; R226: from an open bus the first START is not one. -/
theorem test_startw_conditions :
    startWaitConditions ([gsO, gqO0, gqO0]) true = [.start, .stop, .start] ∧
      (match exec (.startRaw 0xA0) (openBus [] [] []) with
        | .next t => (openBus [] [] []).wires.conditions t.trace == []
        | _ => false) = true := by decide

theorem witness_StuckClockTimesOutWithStop :
    stuckClock.env.Live ∧ stuckClock.env.scl.AllAre false ∧ stuckClock.env.go.head = false ∧
      Instr.waitsForClock (.startwRaw 0xA0) = true ∧ Instr.waitsForClock (.endTx false) = true ∧
      Instr.waitsForClock (.reqFrom 0x50 2 true) = true :=
  ⟨stuckClock_live, ⟨by decide, rfl⟩, rfl, rfl, rfl, rfl⟩

/-- Clause 1 at the last free element, clause 2 at capacity. -/
theorem witness_TxPutCompletes :
    (half.params.Valid ∧ half.txlen.toNat < half.params.txCap ∧ half.txlen.toNat + 1 = half.params.txCap) ∧
      ({ half with txlen := 2 } : State).params.txCap ≤ ({ half with txlen := 2 } : State).txlen.toNat := by decide

/-- No data byte, and two. -/
theorem witness_EndTxSendsEveryByte :
    ((bus [] [false] [] []).env.Quiet ∧
      (bus [] [false] [] []).env.sda.Begins (List.replicate ((bus [] [false] [] []).txlen.toNat + 1) false)) ∧
    (({ bus [] [false, false, false] [] [] with txlen := 2 } : State).env.Quiet ∧
      ({ bus [] [false, false, false] [] [] with txlen := 2 } : State).env.sda.Begins
        (List.replicate (({ bus [] [false, false, false] [] [] with txlen := 2 } : State).txlen.toNat + 1) false)) :=
  ⟨⟨bus_quiet _ _, rfl⟩, bus_quiet _ _, rfl⟩

/-- Clause 1, and clause 2 at the first and the last data byte. -/
theorem witness_EndTxStopsAtTheFirstNack :
    ((bus [] [true] [] []).env.Quiet ∧ (bus [] [true] [] []).env.sda.Begins [true]) ∧
    (({ bus [] [false, true] [] [] with txlen := 2 } : State).env.Quiet ∧
      0 < ({ bus [] [false, true] [] [] with txlen := 2 } : State).txlen.toNat ∧
      ({ bus [] [false, true] [] [] with txlen := 2 } : State).env.sda.Begins (List.replicate (0 + 1) false ++ [true])) ∧
    (({ bus [] [false, false, true] [] [] with txlen := 2 } : State).env.Quiet ∧
      1 < ({ bus [] [false, false, true] [] [] with txlen := 2 } : State).txlen.toNat ∧
      ({ bus [] [false, false, true] [] [] with txlen := 2 } : State).env.sda.Begins
        (List.replicate (1 + 1) false ++ [true])) :=
  ⟨⟨bus_quiet _ _, rfl⟩, ⟨bus_quiet _ _, by decide, rfl⟩, bus_quiet _ _, by decide, rfl⟩

/-- Clause 1 in the first data pulse with its STOP, clause 2 in the acknowledge pulse of the only data byte, without. -/
theorem witness_EndTxStopsAtTheFirstTimeout :
    (0 ≤ 8 ∧ (bus [] [] [true] []).env.delayDone.AllAre true ∧ (bus [] [] [true] []).env.gp.Begins (writeTimeoutGp 0 0) ∧
      (bus [] [] [true] []).env.scl.Begins (writeTimeoutScl 0 0 ++ if true then [true] else [])) ∧
    ∃ s : State, 8 ≤ 8 ∧ 0 < s.txlen.toNat ∧ s.env.delayDone.AllAre true ∧
      s.env.gp.Begins (List.replicate (8 * (0 + 1)) false ++ writeTimeoutGp 8 1) ∧
      s.env.scl.Begins (List.replicate (0 + 1) true ++ writeTimeoutScl 8 1 ++ if false then [true] else []) ∧
      s.env.sda.Begins (List.replicate (0 + 1) false) :=
  ⟨⟨by decide, ⟨by simp [bus], rfl⟩, rfl, rfl⟩,
    { bus [true, false, false] [false] (List.replicate 17 false ++ [true]) [] with txlen := 1 },
    by decide, by decide, ⟨by simp [bus], rfl⟩, rfl, rfl, rfl⟩

theorem witness_EndTxFrame :
    ∃ t, exec (.endTx false) { bus [] [false, true] [] [] with txbuf := [(0, 0x11), (1, 0x22)], txlen := 2 } = .next t :=
  ⟨_, rfl⟩

/-- For END_TX, and for REQ_FROM after a deferred STOP. -/
theorem witness_DeferredStopOpensWithRepeatedStart :
    (∃ t, exec (.endTx true) (bus [] [] [] []) = .next t) ∧
      ∃ t, exec (.reqFrom 0x50 2 true) { openBus [] [] [] with stopDeferred := true } = .next t := ⟨⟨_, rfl⟩, _, rfl⟩

/-- Two bytes, and none (`COUNT` = 0). -/
theorem witness_ReqFromStoresEveryByte :
    ((bus [] (false :: [0x12, 0x34].flatMap bitsMsb) [] []).env.Quiet ∧
      [0x12#8, 0x34#8].length = min (2 : BitVec 8).toNat
        (bus [] (false :: [0x12, 0x34].flatMap bitsMsb) [] []).params.rxCap ∧
      (bus [] (false :: [0x12, 0x34].flatMap bitsMsb) [] []).env.sda.Begins (false :: [0x12, 0x34].flatMap bitsMsb)) ∧
    ((bus [] [false] [] []).env.Quiet ∧
      ([] : List Byte).length = min (0 : BitVec 8).toNat (bus [] [false] [] []).params.rxCap ∧
      (bus [] [false] [] []).env.sda.Begins (false :: ([] : List Byte).flatMap bitsMsb)) :=
  ⟨⟨bus_quiet _ _, rfl, rfl⟩, bus_quiet _ _, rfl, rfl⟩

theorem witness_ReqFromReadsNothingWithoutAcknowledge :
    (bus [] [true] [] []).env.Quiet ∧ (bus [] [true] [] []).env.sda.Begins [true] := ⟨bus_quiet _ _, rfl⟩

/-- Clause 1 in the acknowledge pulse of the address; clause 2 in the first pulse of the first byte, and in the
acknowledge pulse of the last. -/
theorem witness_ReqFromStopsAtTheFirstTimeout :
    (∃ s : State, 8 ≤ 8 ∧ s.env.delayDone.AllAre true ∧ s.env.gp.Begins (writeTimeoutGp 8 0) ∧
      s.env.scl.Begins (writeTimeoutScl 8 0 ++ if true then [true] else [])) ∧
    (∃ s : State, 0 ≤ 8 ∧ ([] : List Byte).length < min (2 : BitVec 8).toNat s.params.rxCap ∧
      s.env.delayDone.AllAre true ∧
      s.env.scl.Begins (List.replicate (1 + 9 * ([] : List Byte).length + 0) true ++ List.replicate (0 + 1) false ++
        if false then [true] else []) ∧
      s.env.gp.Begins (List.replicate (8 + 0) false ++ [true]) ∧
      s.env.sda.Begins (false :: ([] : List Byte).flatMap bitsMsb ++ (bitsMsb 0).take 0)) ∧
    ∃ s : State, 8 ≤ 8 ∧ [0x77#8].length < min (2 : BitVec 8).toNat s.params.rxCap ∧ s.env.delayDone.AllAre true ∧
      s.env.scl.Begins (List.replicate (1 + 9 * [0x77#8].length + 8) true ++ List.replicate (1 + 1) false ++
        if true then [true] else []) ∧
      s.env.gp.Begins (List.replicate (8 + 1) false ++ [true]) ∧
      s.env.sda.Begins (false :: [0x77#8].flatMap bitsMsb ++ (bitsMsb 0xC3).take 8) :=
  ⟨⟨bus [false, true] [] (List.replicate 8 false ++ [true]) [], by decide, ⟨by simp [bus], rfl⟩, rfl, rfl⟩,
    ⟨bus [true, false] [false] (List.replicate 8 false ++ [true]) [], by decide, by decide, ⟨by simp [bus], rfl⟩, rfl,
      rfl, rfl⟩,
    bus (List.replicate 18 true ++ [false, false, true]) (false :: bitsMsb 0x77 ++ bitsMsb 0xC3)
      (List.replicate 9 false ++ [true]) [],
    by decide, by decide, ⟨by simp [bus], rfl⟩, rfl, rfl, rfl⟩

theorem witness_ReqFromFrame : ∃ t, exec (.reqFrom 0x50 1 false) (bus [] [false] [] []) = .next t := ⟨_, rfl⟩

/-- A byte left, none left, and the count at both ends. -/
theorem witness_ReceivedBytesAccessors :
    (received 1).rxpos.toNat < (received 1).rxlen.toNat ∧ (received 2).rxlen.toNat ≤ (received 2).rxpos.toNat ∧
      (received 0).rxpos.toNat ≤ (received 0).rxlen.toNat ∧ (received 2).rxpos.toNat ≤ (received 2).rxlen.toNat := by
  decide


end Sys2Proof.Tests.Slice0
end

/-! ## One event at the port: what a step does, and when a command ends (R31, R34, R232) -/

namespace Sys2Proof.Machine

theorem step_idle {s : State} (h : s.host = []) : step s = .next s := by
  simp [step, h]

theorem step_command {s : State} {w : CmdWord} {rest : List HostEvent} (h : s.host = .command w :: rest) :
    step s = presentCommand w rest s := by
  simp [step, h]

theorem step_reset {s : State} {rest : List HostEvent} (h : s.host = .reset :: rest) :
    step s = .next (presentReset rest s) := by
  simp [step, h]

theorem step_resetDuring {s : State} {w : CmdWord} {n : Nat} {rest : List HostEvent}
    (h : s.host = .resetDuring w n :: rest) : step s = .next (presentResetDuring w n rest s) := by
  simp [step, h]

theorem presentCommand_busy {s : State} (h : s.busy = true) (w : CmdWord) (rest : List HostEvent) :
    presentCommand w rest s = .next s := by
  simp [presentCommand, h]

theorem presentCommand_ready {s : State} (h : s.busy = false) (w : CmdWord) (rest : List HostEvent) :
    presentCommand w rest s = runCommand w (acceptCommand rest s) := by
  simp [presentCommand, h]

theorem presentResetDuring_ready {s : State} (h : s.busy = false) (w : CmdWord) (n : Nat) (rest : List HostEvent) :
    presentResetDuring w n rest s = abandonCommand w n (acceptCommand rest s) := by
  simp [presentResetDuring, h]

theorem runCommand_decoded {w : CmdWord} {i : Instr} (h : decode w = .ok i) (s : State) :
    runCommand w s = exec i s := by
  simp [runCommand, h]

theorem runCommand_illegal {w : CmdWord} {e : DecodeError} (h : decode w = .error e) (s : State) :
    runCommand w s = .next (respond respIllegal s) := by
  simp [runCommand, h]

/-- A step of a ready controller that presents the word of a command runs the command. -/
theorem step_decoded {s : State} {w : CmdWord} {rest : List HostEvent} {i : Instr} (hb : s.busy = false)
    (hh : s.host = .command w :: rest) (hd : decode w = .ok i) : step s = exec i (acceptCommand rest s) := by
  rw [step_command hh, presentCommand_ready hb, runCommand_decoded hd]

/-- The word that is placed is the word itself: all 32 bits of it. -/
theorem withFetchWord_eq (s : State) (w : CmdWord) :
    s.withFetchWord 32 w.toNat = { s with busy := false, host := .command w :: s.host } := by
  simp [State.withFetchWord, placeCommand, Nat.mod_eq_of_lt w.isLt]

/-- All that a step of a ready controller can do: wait, run the presented word, or reset the registers (R31, R34,
R221). -/
theorem step_cases {s t : State} (hb : s.busy = false) (h : step s = .next t) :
    t = s ∨ (∃ w rest, runCommand w (acceptCommand rest s) = .next t) ∨
      ∃ u, u.params = s.params ∧ t = resetRegisters u := by
  match hh : s.host with
  | [] =>
    rw [step_idle hh] at h
    cases h
    exact .inl rfl
  | .command w :: rest =>
    rw [step_command hh, presentCommand_ready hb] at h
    exact .inr (.inl ⟨w, rest, h⟩)
  | .reset :: rest =>
    rw [step_reset hh] at h
    cases h
    exact .inr (.inr ⟨{ s with host := rest }, rfl, rfl⟩)
  | .resetDuring w n :: rest =>
    rw [step_resetDuring hh, presentResetDuring_ready hb] at h
    cases h
    exact .inr (.inr ⟨{ acceptCommand rest s with trace := _, env := _ }, rfl, rfl⟩)

/-- Settles O8: the two cases of `step_decoded`. -/
theorem stepRunsTheDecodedCommand : Obligations.StepRunsTheDecodedCommand := by
  refine ⟨fun s w rest i hb hh hd => step_decoded hb hh hd, fun s w i hd => ?_⟩
  rw [withFetchWord_eq, step_decoded rfl rfl hd]
  rfl

/-- Settles O9, by the events a host can present. -/
theorem nothingIsAcceptedWhileBusy : Obligations.NothingIsAcceptedWhileBusy := by
  refine ⟨fun s hh => step_idle hh, fun s w rest hb hh => ?_, fun s rest hh => ⟨_, step_reset hh, rfl⟩⟩
  rw [step_command hh, presentCommand_busy hb]

end Sys2Proof.Machine

/-! ## What a command does to the two buffers and their cursors (R25 to R28) -/

namespace Sys2Proof.Machine

/-- The two byte buffers with the cursors whose bounds R27 states. -/
structure Buffers where
  txbuf : Memory
  txlen : BitVec 8
  rxbuf : Memory
  rxlen : BitVec 8
  rxpos : BitVec 8

/-- The buffers of a state. -/
def State.buffers (s : State) : Buffers := ⟨s.txbuf, s.txlen, s.rxbuf, s.rxlen, s.rxpos⟩

/-- `enqueueTx` on the buffers (R142). -/
def Buffers.enqueue (b : Buffers) (data : Byte) : Buffers :=
  { b with txbuf := Memory.write b.txbuf b.txlen.toNat data, txlen := b.txlen + 1 }

/-- `enqueueRx` on the buffers (R146). -/
def Buffers.store (b : Buffers) (data : Byte) : Buffers :=
  { b with rxbuf := Memory.write b.rxbuf b.rxlen.toNat data, rxlen := b.rxlen + 1 }

@[simp] theorem buffers_enqueueTx (data : Byte) (s : State) :
    (enqueueTx data s).buffers = s.buffers.enqueue data := rfl

@[simp] theorem buffers_enqueueRx (data : Byte) (s : State) :
    (enqueueRx data s).buffers = s.buffers.store data := rfl

theorem buffers_foldl_enqueueRx (bytes : List Byte) (s : State) :
    (bytes.foldl (fun u b => enqueueRx b u) s).buffers = bytes.foldl Buffers.store s.buffers := by
  induction bytes generalizing s with
  | nil => rfl
  | cons data bytes ih => exact ih (enqueueRx data s)

theorem SameOffBus.buffers {s t : State} (h : SameOffBus s t) : t.buffers = s.buffers := by
  simp [State.buffers, h.txbuf, h.txlen, h.rxbuf, h.rxlen, h.rxpos]

theorem SameTransaction.buffers {s t : State} (h : SameTransaction s t) : t.buffers = s.buffers := by
  simp [State.buffers, h.txbuf, h.txlen, h.rxbuf, h.rxlen, h.rxpos]

/-- `TXBUF` stays and `RXBUF` is filled from its start: what REQ_FROM does with the bytes it reads (R146). -/
def Buffers.receive (b : Buffers) (bytes : List Byte) : Buffers :=
  bytes.foldl Buffers.store { b with rxlen := 0, rxpos := 0 }

/-- All that one command can do to the buffers under the capacities `p`. -/
inductive BufferStep (p : Params) (b : Buffers) : Buffers → Prop where
  | kept : BufferStep p b b
  /-- BEGIN_TX (R141). -/
  | begun : BufferStep p b { b with txlen := 0 }
  /-- TX_PUT below the capacity (R142). -/
  | enqueued (data : Byte) (room : b.txlen.toNat < p.txCap) : BufferStep p b (b.enqueue data)
  /-- REQ_FROM, whose count is a byte, bounded by the capacity (R146). -/
  | received (bytes : List Byte) (fits : bytes.length ≤ p.rxCap) (short : bytes.length < 256) :
      BufferStep p b (b.receive bytes)
  /-- RX_GET with a byte left (R147). -/
  | taken (left : b.rxpos.toNat < b.rxlen.toNat) : BufferStep p b { b with rxpos := b.rxpos + 1 }
  /-- INIT (R173). -/
  | cleared : BufferStep p b { b with txlen := 0, rxlen := 0, rxpos := 0 }

/-! ## What the bytes of a transfer leave of the incoming buffer -/

/-- Storing bytes touches the incoming buffer and its write cursor alone. -/
theorem foldl_store_others (bytes : List Byte) (b : Buffers) :
    (bytes.foldl Buffers.store b).txbuf = b.txbuf ∧ (bytes.foldl Buffers.store b).txlen = b.txlen ∧
      (bytes.foldl Buffers.store b).rxpos = b.rxpos := by
  induction bytes generalizing b with
  | nil => exact ⟨rfl, rfl, rfl⟩
  | cons data bytes ih => exact ih (b.store data)

/-- A cursor below 255 advances by one. -/
theorem cursor_succ {c : BitVec 8} (h : c.toNat < 255) : (c + 1).toNat = c.toNat + 1 := by
  bv_omega

theorem foldl_store_rxlen {bytes : List Byte} {b : Buffers} (h : b.rxlen.toNat + bytes.length < 256) :
    (bytes.foldl Buffers.store b).rxlen.toNat = b.rxlen.toNat + bytes.length := by
  induction bytes generalizing b with
  | nil => rfl
  | cons data bytes ih =>
    rw [List.length_cons] at h
    have next : (b.store data).rxlen.toNat = b.rxlen.toNat + 1 := cursor_succ (by omega)
    rw [List.foldl_cons, ih (by omega), next, List.length_cons]
    omega

/-- Storing bytes leaves every element at or beyond the final cursor alone. -/
theorem foldl_store_lookup {bytes : List Byte} {b : Buffers} {k : Nat} (h : b.rxlen.toNat + bytes.length < 256)
    (hk : b.rxlen.toNat + bytes.length ≤ k) :
    Memory.lookup (bytes.foldl Buffers.store b).rxbuf k = Memory.lookup b.rxbuf k := by
  induction bytes generalizing b with
  | nil => rfl
  | cons data bytes ih =>
    rw [List.length_cons] at h hk
    have next : (b.store data).rxlen.toNat = b.rxlen.toNat + 1 := cursor_succ (by omega)
    rw [List.foldl_cons, ih (by omega) (by omega)]
    exact lookup_write_other b.rxbuf b.rxlen.toNat k data (by omega)

@[simp] theorem receive_txbuf (b : Buffers) (bytes : List Byte) : (b.receive bytes).txbuf = b.txbuf :=
  (foldl_store_others bytes _).1
@[simp] theorem receive_txlen (b : Buffers) (bytes : List Byte) : (b.receive bytes).txlen = b.txlen :=
  (foldl_store_others bytes _).2.1
@[simp] theorem receive_rxpos (b : Buffers) (bytes : List Byte) : (b.receive bytes).rxpos = 0 :=
  (foldl_store_others bytes _).2.2

theorem receive_rxlen (b : Buffers) {bytes : List Byte} (short : bytes.length < 256) :
    (b.receive bytes).rxlen.toNat = bytes.length := by
  simpa [Buffers.receive] using foldl_store_rxlen (b := { b with rxlen := 0, rxpos := 0 }) (by simpa using short)

theorem receive_lookup (b : Buffers) {bytes : List Byte} (short : bytes.length < 256) {k : Nat}
    (hk : bytes.length ≤ k) : Memory.lookup (b.receive bytes).rxbuf k = Memory.lookup b.rxbuf k :=
  foldl_store_lookup (b := { b with rxlen := 0, rxpos := 0 }) (by simpa using short) (by simpa using hk)

/-! ## The effect of every command -/

/-- What every command does, whatever happened on the bus, to the parts of the state that the invariant speaks of. -/
structure CommandEffect (s t : State) : Prop where
  params : t.params = s.params
  buffers : BufferStep s.params s.buffers t.buffers
  ready : t.busy = false
  phase : t.phase = .receiving → s.phase = .receiving

theorem BufferStep.of_eq {p : Params} {b c : Buffers} (h : c = b) : BufferStep p b c := h ▸ .kept

theorem SameOffBus.commandEffect {s u : State} (h : SameOffBus s u) (w : RespWord) :
    CommandEffect s (respond w u) where
  params := h.params
  buffers := .of_eq h.buffers
  ready := rfl
  phase hr := h.phase.symm.trans hr

theorem opStop_off {stretch : Bool} {s t : State} {r : Status} (h : opStop stretch s = .ok (r, t)) :
    SameOffBus s t := by
  cases stretch with
  | false => exact (opStop_forced_run h).2.1.off
  | true =>
    obtain ⟨_, _, run⟩ := opStop_shape h
    exact run.off

theorem opWrite_off {data : Byte} {s t : State} {r : Status} (h : opWrite data s = .ok (r, t)) : SameOffBus s t := by
  obtain ⟨_, _, run, -⟩ := opWrite_shape h
  exact run.off

theorem opStart_off {raw : Byte} {s t : State} {r : Status} (h : opStart raw s = .ok (r, t)) : SameOffBus s t := by
  obtain ⟨_, _, run, -⟩ := opStart_run h
  exact run.off

theorem opRstart_off {raw : Byte} {s t : State} {r : Status} (h : opRstart raw s = .ok (r, t)) : SameOffBus s t := by
  obtain ⟨_, _, run, -⟩ := opRstart_run h
  exact run.off

theorem opStartWait_off {raw : Byte} {s t : State} {r : Status} (h : opStartWait raw s = .ok (r, t)) :
    SameOffBus s t := by
  obtain ⟨_, _, run, -⟩ := opStartWait_run h
  exact run.off

theorem opRead_off {sendAck : Bool} {s t : State} {r : Status} {byte : Byte}
    (h : opRead sendAck s = .ok (r, byte, t)) : SameOffBus s t := by
  obtain ⟨_, _, _, run, -⟩ := opRead_shape h
  exact run.off

/-- A bus primitive that reports its status, after an operation that leaves the registers off the bus alone. -/
theorem finish_status_off {op : State → Except Fault (Status × State)} {s t : State}
    (off : ∀ {r u}, op s = .ok (r, u) → SameOffBus s u)
    (h : finish (op s >>= fun p => .ok (respond (respStatus p.1) p.2)) = .next t) :
    ∃ u w, SameOffBus s u ∧ t = respond w u := by
  rw [finish_next, bind_ok] at h
  obtain ⟨⟨r, u⟩, hop, he⟩ := h
  cases he
  exact ⟨u, _, off hop, rfl⟩

/-- The nine bus primitives answer and write no register off the bus (R104). -/
theorem exec_busPrimitive_off {i : Instr} (hi : i.isBusPrimitive = true) {s t : State} (h : exec i s = .next t) :
    ∃ u w, SameOffBus s u ∧ t = respond w u := by
  cases i with
  | stop stretch => exact finish_status_off opStop_off h
  | startRaw raw => exact finish_status_off opStart_off h
  | rstartRaw raw => exact finish_status_off opRstart_off h
  | startwRaw raw => exact finish_status_off opStartWait_off h
  | start addr mode => exact finish_status_off opStart_off h
  | rstart addr mode => exact finish_status_off opRstart_off h
  | startw addr mode => exact finish_status_off opStartWait_off h
  | write data => exact finish_status_off opWrite_off h
  | read sendAck =>
    simp only [exec, execRead, finish_next, bind_ok] at h
    obtain ⟨⟨r, b, u⟩, hr, he⟩ := h
    cases he
    exact ⟨u, _, opRead_off hr, rfl⟩
  | _ => cases hi

theorem endTransaction_kept {sendStop : Bool} {s t : State} (h : endTransaction sendStop s = .ok t) :
    t.params = s.params ∧ t.buffers = s.buffers ∧ t.phase = .idle := by
  obtain ⟨u, ts, rfl, run, -⟩ := endTransaction_run h
  exact ⟨run.off.params, run.off.buffers, rfl⟩

theorem endTx_effect {sendStop : Bool} {s t : State} (h : exec (.endTx sendStop) s = .next t) :
    CommandEffect s t := by
  simp only [exec, execEndTx, finish_next, bind_ok] at h
  obtain ⟨⟨code, a⟩, ha, b, hb, he⟩ := h
  cases he
  obtain ⟨same, r, ts, us, -, run, -⟩ := transmit_run ha
  obtain ⟨params, buffers, phase⟩ := endTransaction_kept hb
  exact ⟨params.trans run.config.params, .of_eq (buffers.trans same.buffers), rfl,
    fun hr => absurd (phase.symm.trans hr) (by simp)⟩

/-- The bytes REQ_FROM stores are at most as many as it was asked for and as the buffer holds (R146). -/
theorem receive_buffers {addr : Addr} {count : BitVec 8} {s t : State} (h : receive addr count s = .ok t) :
    t.params = s.params ∧ ∃ bytes : List Byte, bytes.length ≤ readCount count s.params.rxCap ∧
      t.buffers = bytes.foldl Buffers.store s.buffers := by
  simp only [receive, bind_ok] at h
  obtain ⟨⟨r, a⟩, ha, h⟩ := h
  obtain ⟨ts, -, ra, -⟩ := opTstart_run ha
  split at h
  · obtain ⟨same, ⟨us, run⟩, bytes, len, hbuf, hlen⟩ := receiveBytes_run h
    refine ⟨run.config.params.trans ra.off.params, bytes, len, ?_⟩
    rw [← ra.off.buffers, ← buffers_foldl_enqueueRx]
    obtain ⟨tx, txl, rxp⟩ := foldl_store_others bytes a.buffers
    rw [← buffers_foldl_enqueueRx] at tx txl rxp
    simp only [State.buffers] at tx txl rxp ⊢
    rw [hbuf, hlen, tx, txl, rxp, same.txbuf, same.txlen, same.rxpos]
  · cases h
    exact ⟨ra.off.params, [], Nat.zero_le _, ra.off.buffers⟩

theorem reqFrom_effect {addr : Addr} {count : BitVec 8} {sendStop : Bool} {s t : State}
    (h : exec (.reqFrom addr count sendStop) s = .next t) : CommandEffect s t := by
  simp only [exec, execReqFrom, finish_next, bind_ok] at h
  obtain ⟨a, ha, b, hb, he⟩ := h
  cases he
  obtain ⟨hp, bytes, len, hbytes⟩ := receive_buffers ha
  obtain ⟨params, buffers, phase⟩ := endTransaction_kept hb
  have len' : bytes.length ≤ min count.toNat s.params.rxCap := len
  refine ⟨params.trans hp, ?_, rfl, fun hr => absurd (phase.symm.trans hr) (by simp)⟩
  show BufferStep s.params s.buffers b.buffers
  rw [buffers, hbytes]
  exact .received bytes (by omega) (by omega)

/-- The effect of every command that ends. -/
theorem exec_effect {i : Instr} {s t : State} (h : exec i s = .next t) : CommandEffect s t := by
  by_cases hi : i.isBusPrimitive = true
  · obtain ⟨u, w, off, rfl⟩ := exec_busPrimitive_off hi h
    exact off.commandEffect w
  cases i with
  | beginTx addr =>
    cases h
    exact ⟨rfl, .begun, rfl, by simp⟩
  | txPut data =>
    simp only [exec, execTxPut] at h
    split at h
    next room =>
      cases h
      exact ⟨rfl, .enqueued data room, rfl, id⟩
    next full =>
      cases h
      exact ⟨rfl, .kept, rfl, id⟩
  | endTx sendStop => exact endTx_effect h
  | reqFrom addr count sendStop => exact reqFrom_effect h
  | rxGet =>
    simp only [exec, execRxGet] at h
    split at h
    next left =>
      cases h
      exact ⟨rfl, .taken left, rfl, id⟩
    next empty =>
      cases h
      exact ⟨rfl, .kept, rfl, id⟩
  | rxPeek =>
    simp only [exec, execRxPeek] at h
    split at h
    all_goals
      cases h
      exact ⟨rfl, .kept, rfl, id⟩
  | rxAvail =>
    cases h
    exact ⟨rfl, .kept, rfl, id⟩
  | cfgPullups en =>
    cases h
    exact ⟨rfl, .kept, rfl, id⟩
  | cfgDelay dur =>
    cases h
    exact ⟨rfl, .kept, rfl, id⟩
  | cfgTimeout dur =>
    cases h
    exact ⟨rfl, .kept, rfl, id⟩
  | init =>
    cases h
    exact ⟨rfl, .cleared, rfl, by simp⟩
  | _ => exact absurd rfl hi

/-- The effect of every word that is presented, a command or not (R67). -/
theorem runCommand_effect {w : CmdWord} {s t : State} (h : runCommand w s = .next t) : CommandEffect s t := by
  cases hd : decode w with
  | ok i =>
    rw [runCommand_decoded hd] at h
    exact exec_effect h
  | error e =>
    rw [runCommand_illegal hd] at h
    cases h
    exact ⟨rfl, .kept, rfl, id⟩

/-! ## Cursor bounds and sound buffers -/

/-- The cursor invariant of R27, for the capacities `p`. -/
structure Buffers.InBounds (p : Params) (b : Buffers) : Prop where
  tx : b.txlen.toNat ≤ p.txCap
  read : b.rxpos.toNat ≤ b.rxlen.toNat
  rx : b.rxlen.toNat ≤ p.rxCap

/-- A buffer in canonical form inside its capacity `cap`, with every element below the cursor `len` written. -/
structure Memory.Sound (cap len : Nat) (m : Memory) : Prop where
  wf : Memory.wf m = true
  within : Memory.within cap m
  filled : Memory.filled len m

theorem Memory.sound_nil (cap : Nat) : Memory.Sound cap 0 [] :=
  ⟨rfl, fun _ hc => absurd hc List.not_mem_nil, fun _ hi => absurd hi (Nat.not_lt_zero _)⟩

/-- Moving the cursor back to the start keeps a buffer sound. -/
theorem Memory.Sound.rewind {cap len : Nat} {m : Memory} (h : Memory.Sound cap len m) : Memory.Sound cap 0 m :=
  ⟨h.wf, h.within, fun _ hi => absurd hi (Nat.not_lt_zero _)⟩

/-- A write at a cursor below the capacity. -/
theorem Memory.Sound.write {cap len : Nat} {m : Memory} (h : Memory.Sound cap len m) (room : len < cap)
    (data : Byte) : Memory.Sound cap (len + 1) (Memory.write m len data) :=
  ⟨wf_write h.wf len data, within_write h.within room data, filled_write h.filled data⟩

/-- Both buffers are sound. -/
structure Buffers.Sound (p : Params) (b : Buffers) : Prop where
  tx : Memory.Sound p.txCap b.txlen.toNat b.txbuf
  rx : Memory.Sound p.rxCap b.rxlen.toNat b.rxbuf

/-- The bytes of a transfer that fits keep the incoming buffer sound. -/
theorem foldl_store_sound {cap : Nat} {bytes : List Byte} {b : Buffers}
    (h : Memory.Sound cap b.rxlen.toNat b.rxbuf) (fits : b.rxlen.toNat + bytes.length ≤ cap)
    (short : b.rxlen.toNat + bytes.length < 256) :
    Memory.Sound cap (bytes.foldl Buffers.store b).rxlen.toNat (bytes.foldl Buffers.store b).rxbuf := by
  induction bytes generalizing b with
  | nil => exact h
  | cons data bytes ih =>
    rw [List.length_cons] at fits short
    have next : (b.store data).rxlen.toNat = b.rxlen.toNat + 1 := cursor_succ (by omega)
    refine ih (b := b.store data) ?_ (by omega) (by omega)
    rw [next]
    exact h.write (by omega) data

/-- Every command keeps the cursor bounds (R27). -/
theorem BufferStep.inBounds {p : Params} {b c : Buffers} (h : BufferStep p b c) (hp : p.Valid)
    (hb : b.InBounds p) : c.InBounds p := by
  obtain ⟨-, txMax, -, rxMax⟩ := hp
  obtain ⟨tx, read, rx⟩ := hb
  cases h with
  | kept => exact ⟨tx, read, rx⟩
  | begun => exact ⟨Nat.zero_le _, read, rx⟩
  | enqueued data room =>
    have next : (b.enqueue data).txlen.toNat = b.txlen.toNat + 1 := cursor_succ (by omega)
    exact ⟨by omega, read, rx⟩
  | received bytes fits short =>
    exact ⟨by simpa using tx, by simp, by simpa [receive_rxlen b short] using fits⟩
  | taken left =>
    have next : (b.rxpos + 1).toNat = b.rxpos.toNat + 1 := cursor_succ (by omega)
    exact ⟨tx, next ▸ left, rx⟩
  | cleared => exact ⟨Nat.zero_le _, Nat.le_refl _, Nat.zero_le _⟩

/-- Every command keeps both buffers sound (R25, R26). -/
theorem BufferStep.sound {p : Params} {b c : Buffers} (h : BufferStep p b c) (hp : p.Valid)
    (hb : b.Sound p) : c.Sound p := by
  obtain ⟨-, txMax, -, -⟩ := hp
  obtain ⟨tx, rx⟩ := hb
  cases h with
  | kept => exact ⟨tx, rx⟩
  | begun => exact ⟨tx.rewind, rx⟩
  | enqueued data room =>
    have next : (b.enqueue data).txlen.toNat = b.txlen.toNat + 1 := cursor_succ (by omega)
    exact ⟨next ▸ tx.write room data, rx⟩
  | received bytes fits short =>
    refine ⟨by simpa using tx, foldl_store_sound rx.rewind ?_ ?_⟩
    · simpa using fits
    · simpa using short
  | taken left => exact ⟨tx, rx⟩
  | cleared => exact ⟨tx.rewind, rx.rewind⟩

/-- No command writes an element at or beyond a capacity (R27), whatever the cursors and the capacities are. -/
theorem BufferStep.lookup_beyond {p : Params} {b c : Buffers} (h : BufferStep p b c) :
    (∀ k, p.txCap ≤ k → Memory.lookup c.txbuf k = Memory.lookup b.txbuf k) ∧
      (∀ k, p.rxCap ≤ k → Memory.lookup c.rxbuf k = Memory.lookup b.rxbuf k) := by
  cases h with
  | kept => exact ⟨fun _ _ => rfl, fun _ _ => rfl⟩
  | begun => exact ⟨fun _ _ => rfl, fun _ _ => rfl⟩
  | enqueued data room =>
    exact ⟨fun k hk => lookup_write_other b.txbuf b.txlen.toNat k data (by omega), fun _ _ => rfl⟩
  | received bytes fits short =>
    exact ⟨fun k _ => by rw [receive_txbuf], fun k hk => receive_lookup b short (fits.trans hk)⟩
  | taken left => exact ⟨fun _ _ => rfl, fun _ _ => rfl⟩
  | cleared => exact ⟨fun _ _ => rfl, fun _ _ => rfl⟩

/-! ## The invariant between commands -/

/-- The invariant in its parts. -/
theorem inv_iff {s : State} : s.Inv ↔ s.params.Valid ∧ s.buffers.InBounds s.params ∧ s.buffers.Sound s.params ∧
    s.busy = false ∧ s.phase ≠ .receiving := by
  constructor
  · intro h
    exact ⟨h.params, ⟨h.txCursor, h.rxRead, h.rxCursor⟩,
      ⟨⟨h.txWf, h.txWithin, h.txFilled⟩, ⟨h.rxWf, h.rxWithin, h.rxFilled⟩⟩, h.ready, h.phase⟩
  · rintro ⟨params, ⟨tx, read, rx⟩, ⟨⟨txWf, txWithin, txFilled⟩, ⟨rxWf, rxWithin, rxFilled⟩⟩, ready, phase⟩
    exact ⟨params, tx, rx, read, txWf, rxWf, txWithin, rxWithin, txFilled, rxFilled, ready, phase⟩

/-- Every command leads from the invariant to the invariant; that it was accepted (R31) is no matter. -/
theorem CommandEffect.inv {s t : State} {rest : List HostEvent} (h : CommandEffect (acceptCommand rest s) t)
    (hs : s.Inv) : t.Inv := by
  obtain ⟨valid, bounds, sound, -, phase⟩ := inv_iff.mp hs
  rw [inv_iff, h.params]
  exact ⟨valid, h.buffers.inBounds valid bounds, h.buffers.sound valid sound, h.ready, fun hr => phase (h.phase hr)⟩

theorem powerUp_inBounds (p : Params) (e : Env) (h : List HostEvent) :
    (State.powerUp p e h).buffers.InBounds p :=
  ⟨Nat.zero_le _, Nat.le_refl _, Nat.zero_le _⟩

theorem powerUp_inv {p : Params} (hp : p.Valid) (e : Env) (h : List HostEvent) : (State.powerUp p e h).Inv :=
  inv_iff.mpr ⟨hp, powerUp_inBounds p e h, ⟨Memory.sound_nil _, Memory.sound_nil _⟩, rfl, by simp [State.powerUp]⟩

/-- Reset differs from power-up in the trace and the draw counter, of which the invariant says nothing. -/
theorem resetRegisters_inv {s : State} (hp : s.params.Valid) : (resetRegisters s).Inv :=
  have h := powerUp_inv hp s.env s.host
  ⟨h.params, h.txCursor, h.rxCursor, h.rxRead, h.txWf, h.rxWf, h.txWithin, h.rxWithin, h.txFilled, h.rxFilled,
    h.ready, h.phase⟩

/-- Settles O14: the reset table has empty buffers and all cursors 0. -/
theorem invariantHoldsAtReset : Obligations.InvariantHoldsAtReset :=
  ⟨fun _ e h hp => powerUp_inv hp e h, powerUp_inv (by decide) Env.idleBus []⟩

/-- Settles O15, by the cases of a step: it waits, runs a command, or resets. -/
theorem everyStepKeepsTheInvariant : Obligations.EveryStepKeepsTheInvariant := by
  intro s t hs h
  rcases step_cases hs.ready h with rfl | ⟨w, rest, hw⟩ | ⟨u, hu, rfl⟩
  · exact hs
  · exact (runCommand_effect hw).inv hs
  · exact resetRegisters_inv (hu ▸ hs.params)

/-- TX_PUT at the capacity (R142). -/
theorem exec_txPut_full {s : State} (full : s.params.txCap ≤ s.txlen.toNat) (data : Byte) :
    exec (.txPut data) s = .next { s with resp := some 0x0000, busy := false } := by
  simp only [exec, execTxPut, Nat.not_lt.mpr full, if_false]
  rfl

/-- Settles O16, from the effect of every command on the buffers. -/
theorem cursorsStayInsideTheBuffers : Obligations.CursorsStayInsideTheBuffers := by
  refine ⟨fun p e h => ?_, fun i s t valid tx read rx h => ?_, fun i s t h => ?_, fun s data full => ?_⟩
  · obtain ⟨tx, read, rx⟩ := powerUp_inBounds p e h
    exact ⟨tx, read, rx⟩
  · have effect := exec_effect h
    obtain ⟨tx', read', rx'⟩ := effect.buffers.inBounds valid ⟨tx, read, rx⟩
    rw [effect.params]
    exact ⟨tx', read', rx'⟩
  · exact (exec_effect h).buffers.lookup_beyond
  · exact exec_txPut_full full data

end Sys2Proof.Machine

/-! ## Registers an operation does not read: rewriting them first or afterwards comes to the same (R21, R104, R140) -/

namespace Sys2Proof.Machine

/-! ### Rewriting in the error monad -/

/-- A rewriting that the next step commutes with can wait until after that step. -/
theorem map_bind_of_commutes {α β : Type} {x : Except Fault α} {F : α → α} {G : β → β}
    {f : α → Except Fault β} (hf : ∀ a, f (F a) = (f a).map G) : (x.map F >>= f) = (x >>= f).map G := by
  cases x with
  | error e => rfl
  | ok a => exact hf a

theorem finish_map (E : State → State) (r : Except Fault State) : finish (r.map E) = mapNext E (finish r) := by
  cases r <;> rfl

theorem mapNext_idem {E : State → State} (hE : ∀ s, E (E s) = E s) (r : Host.Outcome State Fault Refusal) :
    mapNext E (mapNext E r) = mapNext E r := by
  cases r <;> simp [mapNext, hE]

/-- A command that decides by the same test does the same after `E` when both branches do. -/
theorem mapNext_ite {E : State → State} {c : Prop} [Decidable c] {a a' b b' : Host.Outcome State Fault Refusal}
    (ha : mapNext E a = mapNext E a') (hb : mapNext E b = mapNext E b') :
    mapNext E (if c then a else b) = mapNext E (if c then a' else b') := by
  split
  · exact ha
  · exact hb

/-! ### Bus operations -/

/-- `E` rewrites registers that no action reads but to present them: it leaves the environment, the data path and the
draw counter alone, and it commutes with every primitive action, with writes of the data path and with the response. -/
structure BusMask (E : State → State) : Prop where
  env (s : State) : (E s).env = s.env
  sr (s : State) : (E s).sr = s.sr
  bitcnt (s : State) : (E s).bitcnt = s.bitcnt
  draws (s : State) : (E s).draws = s.draws
  dataPath (s : State) (sr : Byte) (bitcnt : BitVec 4) (draws : Nat) :
    { E s with sr := sr, bitcnt := bitcnt, draws := draws } = E { s with sr := sr, bitcnt := bitcnt, draws := draws }
  sdaLow (s : State) : sdaLow (E s) = E (sdaLow s)
  sdaRelease (s : State) : sdaRelease (E s) = E (sdaRelease s)
  sclLow (s : State) : sclLow (E s) = E (sclLow s)
  sclRelease (s : State) : sclRelease (E s) = E (sclRelease s)
  bitDelay (s : State) : bitDelay (E s) = (bitDelay s).map E
  readSda (s : State) : (readSda (E s)).2 = E (readSda s).2
  readScl (s : State) : (readScl (E s)).2 = E (readScl s).2
  tgStart (g : Guard) (s : State) : tgStart g (E s) = E (tgStart g s)
  tgExpired (g : Guard) (s : State) : (tgExpired g (E s)).2 = E (tgExpired g s).2
  respond (w : RespWord) (s : State) : respond w (E s) = E (respond w s)

namespace BusMask

variable {E : State → State} (m : BusMask E)
include m

theorem setSr {s u : State} (h : u = E s) (sr : Byte) : { u with sr := sr } = E { s with sr := sr } := by
  subst h
  calc { E s with sr := sr }
      = E { s with sr := sr, bitcnt := (E s).bitcnt, draws := (E s).draws } := m.dataPath s _ _ _
    _ = E { s with sr := sr } := by rw [m.bitcnt, m.draws]

theorem setBitcnt {s u : State} (h : u = E s) (bitcnt : BitVec 4) :
    { u with bitcnt := bitcnt } = E { s with bitcnt := bitcnt } := by
  subst h
  calc { E s with bitcnt := bitcnt }
      = E { s with sr := (E s).sr, bitcnt := bitcnt, draws := (E s).draws } := m.dataPath s _ _ _
    _ = E { s with bitcnt := bitcnt } := by rw [m.sr, m.draws]

theorem sdaBit (b : Bool) (s : State) : Machine.sdaBit b (E s) = E (Machine.sdaBit b s) := by
  cases b
  · exact m.sdaLow s
  · exact m.sdaRelease s

theorem stopOpen (s : State) : stopOpen (E s) = (stopOpen s).map E := by
  rw [Machine.stopOpen, m.sclLow, m.bitDelay]
  refine map_bind_of_commutes fun a => ?_
  rw [m.sdaLow, m.bitDelay]
  refine map_bind_of_commutes fun b => ?_
  rw [m.sclRelease]
  rfl

theorem stopClose (s : State) : stopClose (E s) = (stopClose s).map E := by
  rw [Machine.stopClose, m.bitDelay]
  refine map_bind_of_commutes fun a => ?_
  rw [m.sdaRelease, m.bitDelay]

theorem opStopForced (s : State) : opStopForced (E s) = (opStopForced s).map E := by
  rw [Machine.opStopForced, m.stopOpen]
  exact map_bind_of_commutes m.stopClose

theorem abort (s : State) : abort (E s) = (abort s).map E := by
  rw [Machine.abort, m.opStopForced]
  refine map_bind_of_commutes fun a => ?_
  rw [m.draws, m.dataPath]
  rfl

/-- The abort, where an expired guard is reported. -/
theorem abort_expired (s : State) :
    (Machine.abort (E s) >>= fun u => .ok (false, u)) =
      (Machine.abort s >>= fun u => .ok (false, u)).map (Prod.map id E) := by
  rw [m.abort]
  exact map_bind_of_commutes fun _ => rfl

theorem waitLoop (g : Guard) (n : Nat) (s : State) : waitLoop g n (E s) = (waitLoop g n s).map (Prod.map id E) := by
  induction n generalizing s with
  | zero => rfl
  | succ n ih =>
    rw [waitLoop_succ, waitLoop_succ, m.readScl, m.tgExpired, m.env, m.env]
    split
    · rfl
    · split
      · exact m.abort_expired _
      · exact ih _

theorem waitSclHigh (g : Guard) (s : State) : waitSclHigh g (E s) = (waitSclHigh g s).map (Prod.map id E) := by
  rw [Machine.waitSclHigh, waitFuel, m.env]
  exact m.waitLoop g _ s

theorem opStop (stretch : Bool) (s : State) : opStop stretch (E s) = (opStop stretch s).map (Prod.map id E) := by
  cases stretch with
  | false =>
    show (Machine.opStopForced (E s) >>= fun u => .ok (Status.ack, u)) = _
    rw [m.opStopForced]
    exact map_bind_of_commutes fun _ => rfl
  | true =>
    show (Machine.stopOpen (Machine.tgStart .gp (E s)) >>= _) = _
    rw [m.tgStart, m.stopOpen]
    refine map_bind_of_commutes fun a => ?_
    rw [m.waitSclHigh]
    refine map_bind_of_commutes fun ⟨risen, b⟩ => ?_
    cases risen with
    | false => rfl
    | true =>
      show (Machine.stopClose (E b) >>= _) = _
      rw [m.stopClose]
      exact map_bind_of_commutes fun _ => rfl

theorem writeBits (n : Nat) (s : State) : writeBits n (E s) = (writeBits n s).map (Prod.map id E) := by
  induction n generalizing s with
  | zero =>
    exact congrArg (fun u => Except.ok (true, u)) (m.setBitcnt rfl 0)
  | succ n ih =>
    rw [writeBits_succ, writeBits_succ, m.setBitcnt rfl, m.sr, m.sclLow, m.sdaBit, m.bitDelay]
    refine map_bind_of_commutes fun a => ?_
    rw [m.sclRelease, m.bitDelay]
    refine map_bind_of_commutes fun b => ?_
    rw [m.env, m.tgExpired]
    split
    · exact m.abort_expired _
    · exact ih _

theorem writeAck (s : State) : writeAck (E s) = (writeAck s).map (Prod.map id E) := by
  rw [writeAck_eq, writeAck_eq, m.sclLow, m.sdaRelease, m.bitDelay]
  refine map_bind_of_commutes fun a => ?_
  rw [m.sclRelease, m.waitSclHigh]
  refine map_bind_of_commutes fun ⟨risen, b⟩ => ?_
  simp only [Prod.map, id, m.env, m.readSda, m.sclLow]
  cases risen <;> rfl

theorem opWrite (data : Byte) (s : State) : opWrite data (E s) = (opWrite data s).map (Prod.map id E) := by
  rw [opWrite_eq, opWrite_eq, m.setSr (m.tgStart .gp s), m.writeBits]
  refine map_bind_of_commutes fun ⟨sent, a⟩ => ?_
  cases sent with
  | false => rfl
  | true => exact m.writeAck a

theorem readBits (n : Nat) (s : State) : readBits n (E s) = (readBits n s).map (Prod.map id E) := by
  induction n generalizing s with
  | zero =>
    exact congrArg (fun u => Except.ok (true, u)) (m.setBitcnt rfl 0)
  | succ n ih =>
    rw [readBits_succ, readBits_succ, m.setBitcnt rfl, m.sclLow, m.sdaRelease, m.bitDelay]
    refine map_bind_of_commutes fun a => ?_
    rw [m.sclRelease, m.bitDelay]
    refine map_bind_of_commutes fun b => ?_
    rw [m.waitSclHigh]
    refine map_bind_of_commutes fun ⟨risen, c⟩ => ?_
    cases risen with
    | false => rfl
    | true =>
      show Machine.readBits n { (Machine.readSda (E c)).2 with sr := shiftIn (E c).sr (E c).env.sda.head } = _
      rw [m.setSr (m.readSda c), m.sr, m.env]
      exact ih _

theorem readAck (sendAck : Bool) (s : State) : readAck sendAck (E s) = (readAck sendAck s).map (Prod.map id E) := by
  rw [Machine.readAck, m.sclLow, m.sdaBit, m.bitDelay]
  refine map_bind_of_commutes fun a => ?_
  rw [m.sclRelease, m.waitSclHigh]
  refine map_bind_of_commutes fun ⟨risen, b⟩ => ?_
  simp only [Prod.map, id, m.sclLow]
  cases risen <;> rfl

theorem opRead (sendAck : Bool) (s : State) :
    opRead sendAck (E s) = (opRead sendAck s).map (Prod.map id (Prod.map id E)) := by
  rw [opRead_eq, opRead_eq, m.setSr (m.tgStart .gp s), m.readBits]
  refine map_bind_of_commutes fun ⟨received, a⟩ => ?_
  cases received with
  | false =>
    simp only [Prod.map, id, m.sr]
    rfl
  | true =>
    show (Machine.readAck sendAck (E a) >>= _) = _
    rw [m.readAck]
    refine map_bind_of_commutes fun ⟨r, b⟩ => ?_
    simp only [Prod.map, id, m.sr]
    rfl

theorem opStart (raw : Byte) (s : State) : opStart raw (E s) = (opStart raw s).map (Prod.map id E) := by
  rw [Machine.opStart, m.sdaLow, m.bitDelay]
  refine map_bind_of_commutes fun a => ?_
  rw [m.sclLow, m.bitDelay]
  exact map_bind_of_commutes (m.opWrite raw)

theorem opRstart (raw : Byte) (s : State) : opRstart raw (E s) = (opRstart raw s).map (Prod.map id E) := by
  rw [Machine.opRstart, m.sdaRelease, m.bitDelay]
  refine map_bind_of_commutes fun a => ?_
  rw [m.sclRelease, m.bitDelay]
  refine map_bind_of_commutes fun b => ?_
  rw [m.sdaLow, m.bitDelay]
  exact map_bind_of_commutes (m.opWrite raw)

theorem startWaitLoop (raw : Byte) (n : Nat) (s : State) :
    startWaitLoop raw n (E s) = (startWaitLoop raw n s).map (Prod.map id E) := by
  induction n generalizing s with
  | zero => rfl
  | succ n ih =>
    rw [startWaitLoop_succ, startWaitLoop_succ, m.env, m.tgExpired]
    split
    · rfl
    · rw [m.opStart]
      refine map_bind_of_commutes fun ⟨r, a⟩ => ?_
      cases r with
      | ack => rfl
      | nack =>
        show (Machine.opStop true (E a) >>= _) = _
        rw [m.opStop]
        exact map_bind_of_commutes fun ⟨_, b⟩ => ih b
      | timedOut =>
        show (Machine.opStop true (E a) >>= _) = _
        rw [m.opStop]
        exact map_bind_of_commutes fun _ => rfl

theorem opStartWait (raw : Byte) (s : State) : opStartWait raw (E s) = (opStartWait raw s).map (Prod.map id E) := by
  rw [Machine.opStartWait, m.env, m.tgStart]
  exact m.startWaitLoop raw _ _

/-- A bus primitive that reports its status. -/
theorem finish_status {op : State → Except Fault (Status × State)} {s : State}
    (h : op (E s) = (op s).map (Prod.map id E)) :
    finish (op (E s) >>= fun p => .ok (Machine.respond (respStatus p.1) p.2)) =
      mapNext E (finish (op s >>= fun p => .ok (Machine.respond (respStatus p.1) p.2))) := by
  rw [h, ← finish_map]
  exact congrArg finish (map_bind_of_commutes fun ⟨r, u⟩ => congrArg Except.ok (m.respond (respStatus r) u))

/-- The nine bus primitives do not read what is masked (R104). -/
theorem exec_busPrimitive {i : Instr} (hi : i.isBusPrimitive = true) (s : State) :
    exec i (E s) = mapNext E (exec i s) := by
  cases i with
  | stop stretch => exact m.finish_status (m.opStop stretch s)
  | startRaw raw => exact m.finish_status (m.opStart raw s)
  | rstartRaw raw => exact m.finish_status (m.opRstart raw s)
  | startwRaw raw => exact m.finish_status (m.opStartWait raw s)
  | start addr mode => exact m.finish_status (m.opStart _ s)
  | rstart addr mode => exact m.finish_status (m.opRstart _ s)
  | startw addr mode => exact m.finish_status (m.opStartWait _ s)
  | write data => exact m.finish_status (m.opWrite data s)
  | read sendAck =>
    rw [exec, execRead, m.opRead, exec, execRead, ← finish_map]
    exact congrArg finish (map_bind_of_commutes fun ⟨r, b, u⟩ => congrArg Except.ok (m.respond _ u))
  | _ => cases hi

end BusMask

/-! ### Transactions -/

/-- `E` also leaves alone what a transaction reads, and commutes with what it writes (R143 to R146). -/
structure TransactionMask (E : State → State) : Prop extends BusMask E where
  taddr (s : State) : (E s).taddr = s.taddr
  stopDeferred (s : State) : (E s).stopDeferred = s.stopDeferred
  txlen (s : State) : (E s).txlen = s.txlen
  rxlen (s : State) : (E s).rxlen = s.rxlen
  params (s : State) : (E s).params = s.params
  txByte (s : State) (k : Nat) : (E s).txByte k = s.txByte k
  setTxpos (s : State) (txpos : BitVec 8) : { E s with txpos := txpos } = E { s with txpos := txpos }
  releaseTxpos (s : State) : releaseTxpos (E s) = E (releaseTxpos s)
  enqueueRx (b : Byte) (s : State) : enqueueRx b (E s) = E (enqueueRx b s)
  close (s : State) (deferred : Bool) :
    { E s with stopDeferred := deferred, phase := .idle } = E { s with stopDeferred := deferred, phase := .idle }

/-- REQ_FROM before its address phase (R146). -/
def openRequest (addr : Addr) (s : State) : State :=
  { s with taddr := addr, dir := .read, phase := .receiving, rxlen := 0, rxpos := 0 }

/-- REQ_FROM from its address phase on (R146). -/
def serveRequest (addr : Addr) (count : BitVec 8) (sendStop : Bool) (s : State) : Except Fault State := do
  let s ← receive addr count s
  let s ← endTransaction sendStop s
  .ok (respond (respData s.rxlen) s)

theorem exec_reqFrom (addr : Addr) (count : BitVec 8) (sendStop : Bool) (s : State) :
    exec (.reqFrom addr count sendStop) s = finish (serveRequest addr count sendStop (openRequest addr s)) := rfl

namespace TransactionMask

variable {E : State → State} (m : TransactionMask E)
include m

theorem opTstart (raw : Byte) (s : State) : opTstart raw (E s) = (opTstart raw s).map (Prod.map id E) := by
  rw [Machine.opTstart, Machine.opTstart, m.stopDeferred]
  split
  · exact m.opRstart raw s
  · exact m.opStart raw s

theorem sendBytes (n k : Nat) (s : State) : sendBytes n k (E s) = (sendBytes n k s).map (Prod.map id E) := by
  induction n generalizing k s with
  | zero => rfl
  | succ n ih =>
    rw [Machine.sendBytes, m.setTxpos, m.txByte, m.opWrite]
    refine map_bind_of_commutes fun ⟨r, a⟩ => ?_
    cases r with
    | ack => exact ih (k + 1) a
    | nack => rfl
    | timedOut => rfl

theorem transmit (s : State) : transmit (E s) = (transmit s).map (Prod.map id E) := by
  rw [Machine.transmit, m.taddr, m.opTstart]
  refine map_bind_of_commutes fun ⟨r, a⟩ => ?_
  cases r with
  | ack =>
    show Machine.sendBytes (E a).txlen.toNat 0 (E a) = _
    rw [m.txlen]
    exact m.sendBytes _ 0 a
  | nack => rfl
  | timedOut => rfl

theorem endTransaction (sendStop : Bool) (s : State) :
    endTransaction sendStop (E s) = (endTransaction sendStop s).map E := by
  have closing (u : State) : Except.ok { E u with stopDeferred := !sendStop, phase := .idle } =
      (Except.ok { u with stopDeferred := !sendStop, phase := .idle } : Except Fault State).map E :=
    congrArg Except.ok (m.close u _)
  cases sendStop with
  | false => exact closing s
  | true =>
    show ((Machine.opStop true (E s) >>= fun p => .ok p.2) >>= _) = _
    rw [m.opStop, map_bind_of_commutes (F := Prod.map id E) (G := E) fun _ => rfl]
    exact map_bind_of_commutes closing

theorem receiveBytes (n : Nat) (s : State) : receiveBytes n (E s) = (receiveBytes n s).map E := by
  induction n generalizing s with
  | zero => rfl
  | succ n ih =>
    rw [Machine.receiveBytes, m.opRead]
    refine map_bind_of_commutes fun ⟨r, b, a⟩ => ?_
    cases r with
    | ack =>
      show Machine.receiveBytes n (Machine.enqueueRx b (E a)) = _
      rw [m.enqueueRx]
      exact ih _
    | nack => rfl
    | timedOut => rfl

theorem receive (addr : Addr) (count : BitVec 8) (s : State) :
    receive addr count (E s) = (receive addr count s).map E := by
  rw [Machine.receive, m.params, m.opTstart]
  refine map_bind_of_commutes fun ⟨r, a⟩ => ?_
  cases r with
  | ack => exact m.receiveBytes _ a
  | nack => rfl
  | timedOut => rfl

theorem exec_endTx (sendStop : Bool) (s : State) :
    exec (.endTx sendStop) (E s) = mapNext E (exec (.endTx sendStop) s) := by
  rw [exec, execEndTx, m.transmit, exec, execEndTx, ← finish_map]
  refine congrArg finish (map_bind_of_commutes fun ⟨code, a⟩ => ?_)
  show (Machine.endTransaction sendStop (E a) >>= _) = _
  rw [m.endTransaction]
  refine map_bind_of_commutes fun b => ?_
  rw [m.releaseTxpos, m.respond]
  rfl

theorem serveRequest (addr : Addr) (count : BitVec 8) (sendStop : Bool) (s : State) :
    serveRequest addr count sendStop (E s) = (serveRequest addr count sendStop s).map E := by
  rw [Machine.serveRequest, m.receive]
  refine map_bind_of_commutes fun a => ?_
  rw [m.endTransaction]
  refine map_bind_of_commutes fun b => ?_
  rw [m.rxlen, m.respond]
  rfl

end TransactionMask

/-! ### PULLUPS, DIR and PHASE -/

/-- The state with PULLUPS, DIR and PHASE at their reset values. -/
def State.hideUnread (s : State) : State := { s with pullups := false, dir := .write, phase := .idle }

theorem hideUnread_mask : TransactionMask State.hideUnread where
  env _ := rfl
  sr _ := rfl
  bitcnt _ := rfl
  draws _ := rfl
  dataPath _ _ _ _ := rfl
  sdaLow _ := rfl
  sdaRelease _ := rfl
  sclLow _ := rfl
  sclRelease _ := rfl
  bitDelay s := by
    rw [bitDelay, bitDelay, apply_ite (Except.map State.hideUnread)]
    rfl
  readSda _ := rfl
  readScl _ := rfl
  tgStart _ _ := rfl
  tgExpired _ _ := rfl
  respond _ _ := rfl
  taddr _ := rfl
  stopDeferred _ := rfl
  txlen _ := rfl
  rxlen _ := rfl
  params _ := rfl
  txByte _ _ := rfl
  setTxpos _ _ := rfl
  releaseTxpos _ := rfl
  enqueueRx _ _ := rfl
  close _ _ := rfl

/-- A command that does not read the hidden registers at all. -/
theorem hideUnread_of_commutes {i : Instr} {s : State}
    (h : exec i s.hideUnread = mapNext State.hideUnread (exec i s)) :
    mapNext State.hideUnread (exec i s.hideUnread) = mapNext State.hideUnread (exec i s) := by
  rw [h]
  exact mapNext_idem (E := State.hideUnread) (fun _ => rfl) _

/-- Hiding PULLUPS, DIR and PHASE before a command changes nothing else after it: either the command leaves them alone,
or it writes them whatever they were (BEGIN_TX, END_TX, REQ_FROM, CFG_PULLUPS, INIT). -/
theorem exec_hideUnread (i : Instr) (s : State) :
    mapNext State.hideUnread (exec i s.hideUnread) = mapNext State.hideUnread (exec i s) := by
  by_cases hi : i.isBusPrimitive = true
  · exact hideUnread_of_commutes (hideUnread_mask.exec_busPrimitive hi s)
  cases i with
  | beginTx addr => rfl
  | txPut data => exact mapNext_ite rfl rfl
  | endTx sendStop => exact hideUnread_of_commutes (hideUnread_mask.exec_endTx sendStop s)
  | reqFrom addr count sendStop =>
    have same : (openRequest addr s.hideUnread).hideUnread = (openRequest addr s).hideUnread := rfl
    rw [exec_reqFrom, exec_reqFrom, ← finish_map, ← finish_map, ← hideUnread_mask.serveRequest,
      ← hideUnread_mask.serveRequest, same]
  | rxGet => exact mapNext_ite rfl rfl
  | rxPeek => exact mapNext_ite rfl rfl
  | rxAvail => rfl
  | cfgPullups en => rfl
  | cfgDelay dur => rfl
  | cfgTimeout dur => rfl
  | init => rfl
  | _ => exact absurd rfl hi

/-- Settles O20: both sides are the command from the state with the three registers hidden. -/
theorem nothingReadsPullupsDirOrPhase : Obligations.NothingReadsPullupsDirOrPhase := by
  intro i s en di ph
  calc mapNext State.hideUnread (exec i { s with pullups := en, dir := di, phase := ph })
      = mapNext State.hideUnread (exec i s.hideUnread) := (exec_hideUnread i _).symm
    _ = mapNext State.hideUnread (exec i s) := exec_hideUnread i s

end Sys2Proof.Machine

/-! ## The actions of a command: the trace, the latches and the environment's answers (R17, R47, R49) -/

namespace Sys2Proof.Machine

/-- `t` is `s` after some actions, of which the trace keeps every one (R47): they leave the latches as they are in `t`
(R17), and the environment has answered those that ask (R49). As `TransRun`, for steps that also write the
configuration. -/
def AppendsActions (s t : State) : Prop :=
  ∃ ts, t.trace = s.trace ++ ts ∧ t.wires = s.wires.run ts ∧ t.env = ts.foldl Env.consume s.env

theorem TransRun.appends {s t : State} {ts : List Token} (h : TransRun s t ts) : AppendsActions s t :=
  ⟨ts, h.trace, h.wires, h.env⟩

theorem BusRun.appends {s t : State} {ts : List Token} (h : BusRun s t ts) : AppendsActions s t :=
  h.transRun.appends

/-- A step that writes only registers is no action. -/
theorem AppendsActions.of_same {s t : State} (trace : t.trace = s.trace) (wires : t.wires = s.wires)
    (env : t.env = s.env) : AppendsActions s t :=
  ⟨[], by simpa using trace, wires, env⟩

theorem AppendsActions.trans {a b c : State} (h : AppendsActions a b) (k : AppendsActions b c) :
    AppendsActions a c := by
  obtain ⟨xs, trace, wires, env⟩ := h
  obtain ⟨ys, trace', wires', env'⟩ := k
  exact ⟨xs ++ ys, by rw [trace', trace, List.append_assoc], by rw [wires', wires, run_append],
    by rw [env', env, List.foldl_append]⟩

theorem AppendsActions.respond {s u : State} (h : AppendsActions s u) (w : RespWord) :
    AppendsActions s (respond w u) :=
  h.trans (.of_same rfl rfl rfl)

/-! ### The operations of the bus primitives -/

theorem opStop_appends {stretch : Bool} {s t : State} {r : Status} (h : opStop stretch s = .ok (r, t)) :
    AppendsActions s t := by
  cases stretch with
  | false =>
    obtain ⟨_, run, -⟩ := opStop_forced_run h
    exact run.appends
  | true =>
    obtain ⟨_, _, run⟩ := opStop_shape h
    exact run.appends

theorem opWrite_appends {data : Byte} {s t : State} {r : Status} (h : opWrite data s = .ok (r, t)) :
    AppendsActions s t := by
  obtain ⟨_, _, run, -⟩ := opWrite_shape h
  exact run.appends

theorem opRead_appends {sendAck : Bool} {s t : State} {r : Status} {byte : Byte}
    (h : opRead sendAck s = .ok (r, byte, t)) : AppendsActions s t := by
  obtain ⟨_, _, _, run, -⟩ := opRead_shape h
  exact run.appends

theorem opStart_appends {raw : Byte} {s t : State} {r : Status} (h : opStart raw s = .ok (r, t)) :
    AppendsActions s t := by
  obtain ⟨_, _, run, -⟩ := opStart_run h
  exact run.appends

theorem opRstart_appends {raw : Byte} {s t : State} {r : Status} (h : opRstart raw s = .ok (r, t)) :
    AppendsActions s t := by
  obtain ⟨_, _, run, -⟩ := opRstart_run h
  exact run.appends

theorem opStartWait_appends {raw : Byte} {s t : State} {r : Status} (h : opStartWait raw s = .ok (r, t)) :
    AppendsActions s t := by
  obtain ⟨_, _, run, -⟩ := opStartWait_run h
  exact run.appends

/-! ### How a bus primitive ends -/

/-- A bus primitive that reports its status ends exactly when its operation does. -/
theorem finish_status_next {op : State → Except Fault (Status × State)} {s t : State} :
    finish (op s >>= fun p => .ok (respond (respStatus p.1) p.2)) = .next t ↔
      ∃ r u, op s = .ok (r, u) ∧ t = respond (respStatus r) u := by
  simp only [finish_next, bind_ok, Except.ok.injEq, Prod.exists, eq_comm (b := t)]

theorem exec_write_next {data : Byte} {s t : State} :
    exec (.write data) s = .next t ↔ ∃ r u, opWrite data s = .ok (r, u) ∧ t = respond (respStatus r) u :=
  finish_status_next (op := opWrite data)

theorem exec_read_next {sendAck : Bool} {s t : State} :
    exec (.read sendAck) s = .next t ↔ ∃ r byte u, opRead sendAck s = .ok (r, byte, u) ∧
      t = respond (if r = .ack then respData byte else respStatus .timedOut) u := by
  simp only [exec, execRead, finish_next, bind_ok, Except.ok.injEq, Prod.exists, eq_comm (b := t)]

theorem finish_status_appends {op : State → Except Fault (Status × State)} {s t : State}
    (appends : ∀ {r u}, op s = .ok (r, u) → AppendsActions s u)
    (h : finish (op s >>= fun p => .ok (respond (respStatus p.1) p.2)) = .next t) : AppendsActions s t := by
  obtain ⟨r, u, hop, rfl⟩ := finish_status_next.mp h
  exact (appends hop).respond _

/-! ### The transaction commands -/

theorem endTransaction_appends {sendStop : Bool} {s t : State} (h : endTransaction sendStop s = .ok t) :
    AppendsActions s t := by
  obtain ⟨u, ts, rfl, run, -⟩ := endTransaction_run h
  exact run.appends.trans (.of_same rfl rfl rfl)

theorem endTx_appends {sendStop : Bool} {s t : State} (h : exec (.endTx sendStop) s = .next t) :
    AppendsActions s t := by
  simp only [exec, execEndTx, finish_next, bind_ok] at h
  obtain ⟨⟨code, a⟩, ha, b, hb, he⟩ := h
  cases he
  obtain ⟨-, r, ts, us, -, run, -⟩ := transmit_run ha
  have released : AppendsActions b (releaseTxpos b) := .of_same rfl rfl rfl
  exact ((run.appends.trans (endTransaction_appends hb)).trans released).respond _

theorem receive_appends {addr : Addr} {count : BitVec 8} {s t : State} (h : receive addr count s = .ok t) :
    AppendsActions s t := by
  simp only [receive, bind_ok] at h
  obtain ⟨⟨r, a⟩, ha, h⟩ := h
  obtain ⟨ts, -, opened, -⟩ := opTstart_run ha
  split at h
  · obtain ⟨-, ⟨us, run⟩, -⟩ := receiveBytes_run h
    exact opened.appends.trans run.appends
  · cases h
    exact opened.appends

theorem reqFrom_appends {addr : Addr} {count : BitVec 8} {sendStop : Bool} {s t : State}
    (h : exec (.reqFrom addr count sendStop) s = .next t) : AppendsActions s t := by
  rw [exec_reqFrom] at h
  simp only [serveRequest, finish_next, bind_ok] at h
  obtain ⟨a, ha, b, hb, he⟩ := h
  cases he
  have opened : AppendsActions s (openRequest addr s) := .of_same rfl rfl rfl
  exact ((opened.trans (receive_appends ha)).trans (endTransaction_appends hb)).respond _

/-! ### Every command -/

/-- A command that chooses between two next states: TX_PUT, RX_GET and RX_PEEK by the room or the bytes left. -/
theorem appends_of_ite {c : Prop} [Decidable c] {s a b t : State}
    (h : (if c then .next a else .next b : Host.Outcome State Fault Refusal) = .next t)
    (ha : AppendsActions s a) (hb : AppendsActions s b) : AppendsActions s t := by
  split at h
  · cases h
    exact ha
  · cases h
    exact hb

theorem exec_appends {i : Instr} {s t : State} (h : exec i s = .next t) : AppendsActions s t := by
  cases i with
  | stop stretch => exact finish_status_appends opStop_appends h
  | startRaw raw => exact finish_status_appends opStart_appends h
  | rstartRaw raw => exact finish_status_appends opRstart_appends h
  | startwRaw raw => exact finish_status_appends opStartWait_appends h
  | start addr mode => exact finish_status_appends opStart_appends h
  | rstart addr mode => exact finish_status_appends opRstart_appends h
  | startw addr mode => exact finish_status_appends opStartWait_appends h
  | write data => exact finish_status_appends opWrite_appends h
  | read sendAck =>
    obtain ⟨r, byte, u, hread, rfl⟩ := exec_read_next.mp h
    exact (opRead_appends hread).respond _
  | endTx sendStop => exact endTx_appends h
  | reqFrom addr count sendStop => exact reqFrom_appends h
  | init =>
    cases h
    have released := (busRun_sclRelease s).trans (busRun_sdaRelease (sclRelease s))
    exact released.appends.trans (.of_same rfl rfl rfl)
  | txPut data => exact appends_of_ite h (.of_same rfl rfl rfl) (.of_same rfl rfl rfl)
  | rxGet => exact appends_of_ite h (.of_same rfl rfl rfl) (.of_same rfl rfl rfl)
  | rxPeek => exact appends_of_ite h (.of_same rfl rfl rfl) (.of_same rfl rfl rfl)
  | beginTx _ | rxAvail | cfgPullups _ | cfgDelay _ | cfgTimeout _ =>
    cases h
    exact .of_same rfl rfl rfl

/-- Settles O17, by the runs of the operations a command is made of. -/
theorem commandsOnlyAppendActions : Obligations.CommandsOnlyAppendActions :=
  fun _ _ _ h => exec_appends h

end Sys2Proof.Machine

/-! ## The data line at the releases of the clock (R42, R61) -/

namespace Sys2Proof.Machine

/-- Stretching the clock releases it no further time. -/
theorem LowSamples.clocked {ks : List Token} (h : LowSamples ks) (w : Wires) : w.clocked ks = [] := by
  induction ks generalizing w with
  | nil => rfl
  | cons k ks ih =>
    obtain ⟨hk, hks⟩ := List.forall_mem_cons.mp h
    rcases hk with rfl | rfl <;> exact ih hks w

/-- A data pulse of a byte write releases the clock once, over its bit. -/
theorem clocked_writePulse (w : Wires) (d : Duration) (expired bit : Bool) :
    w.clocked (writePulse d expired bit) = [latchOf bit] := by
  cases bit <;> rfl

theorem clocked_writePulses (w : Wires) (d : Duration) (bits : List Bool) :
    w.clocked (bits.flatMap (writePulse d false)) = bits.map latchOf := by
  induction bits generalizing w with
  | nil => rfl
  | cons bit bits ih => rw [List.flatMap_cons, clocked_append, clocked_writePulse, ih]; rfl

/-- The nine releases of a byte write that is not cut by a timeout. -/
theorem WriteShape.clocked {d t : Duration} {data : Byte} {r : Status} {ts : List Token}
    (h : WriteShape d t data r ts) (hr : r ≠ .timedOut) (w : Wires) :
    w.clocked ts = (bitsMsb data).map latchOf ++ [.rel] := by
  cases h with
  | complete nack hl => simp [Wires.clocked, Wires.after, clocked_append, clocked_writePulses, hl.clocked]
  | inData _ => exact absurd rfl hr
  | inAck _ => exact absurd rfl hr

/-- Every data pulse of a byte read releases the clock once, over a released data line. -/
theorem ReadPulses.clocked {d : Duration} {bs : List Bool} {ts : List Token} (h : ReadPulses d bs ts) (w : Wires) :
    w.clocked ts = List.replicate bs.length .rel := by
  induction h generalizing w with
  | none => rfl
  | pulse b hl _ ih => simp [Wires.clocked, Wires.after, clocked_append, hl.clocked, ih, List.replicate_succ]

/-- The nine releases of a byte read that completes. -/
theorem ReadShape.clocked {d t : Duration} {sendAck : Bool} {bs : List Bool} {ts : List Token}
    (h : ReadShape d t sendAck .ack bs ts) (w : Wires) :
    w.clocked ts = List.replicate 8 .rel ++ [latchOf (!sendAck)] := by
  cases h with
  | complete hb hp hl =>
    cases sendAck <;>
      simp [Wires.clocked, Wires.after, clocked_append, hp.clocked, hb, hl.clocked, dataToken, latchOf]

/-- The response that excludes a timed-out byte transfer (R64). -/
theorem respStatus_timedOut : respStatus .timedOut = 0x0200 := rfl

/-- Settles O36, by the shapes of the completed byte transfers. -/
theorem nineBitsOnTheWire : Obligations.NineBitsOnTheWire := by
  constructor
  · intro data s t h hresp
    obtain ⟨r, u, hop, rfl⟩ := exec_write_next.mp h
    obtain ⟨ts, shape, run, -⟩ := opWrite_shape hop
    have completed : r ≠ .timedOut := by
      rintro rfl
      exact hresp (congrArg some respStatus_timedOut)
    exact ⟨ts, run.trace, shape.clocked completed _⟩
  · intro sendAck s t h hresp
    obtain ⟨r, byte, u, hop, rfl⟩ := exec_read_next.mp h
    obtain ⟨bs, ts, shape, run, -⟩ := opRead_shape hop
    rcases shape.result with rfl | rfl
    · exact ⟨ts, run.trace, shape.clocked _⟩
    · exact absurd (congrArg some respStatus_timedOut) hresp

end Sys2Proof.Machine

/-! ## The decoder as rows and operands (R63, R66, R67) -/

namespace Sys2Proof

/-- The same command with its operands read from the fields of `w` (R63). -/
def Instr.reading (w : CmdWord) : Instr → Instr
  | .stop _ => .stop (fieldFlag w)
  | .startRaw _ => .startRaw (fieldByte w)
  | .rstartRaw _ => .rstartRaw (fieldByte w)
  | .startwRaw _ => .startwRaw (fieldByte w)
  | .start _ _ => .start (fieldAddr w) (fieldMode w)
  | .rstart _ _ => .rstart (fieldAddr w) (fieldMode w)
  | .startw _ _ => .startw (fieldAddr w) (fieldMode w)
  | .write _ => .write (fieldByte w)
  | .read _ => .read (fieldFlag w)
  | .beginTx _ => .beginTx (fieldAddr w)
  | .txPut _ => .txPut (fieldByte w)
  | .endTx _ => .endTx (fieldFlag w)
  | .reqFrom _ _ _ => .reqFrom (fieldAddr w) (fieldCount w) (fieldFlag w)
  | .rxGet => .rxGet
  | .rxPeek => .rxPeek
  | .rxAvail => .rxAvail
  | .cfgPullups _ => .cfgPullups (fieldFlag w)
  | .cfgDelay _ => .cfgDelay (fieldDur w)
  | .cfgTimeout _ => .cfgTimeout (fieldDur w)
  | .init => .init

@[simp] theorem row_reading (i : Instr) (w : CmdWord) : (i.reading w).row = i.row := by
  cases i <;> rfl

/-- The table lists exactly the rows of the commands (R66). -/
theorem mem_opcodeTable_iff {r : OpRow} : r ∈ opcodeTable ↔ ∃ i : Instr, i.row = r := by
  constructor
  · intro h
    simp only [opcodeTable, List.mem_append, List.mem_cons, List.not_mem_nil, or_false] at h
    rcases h with
      ((rfl | rfl | rfl | rfl | rfl | rfl | rfl | rfl | rfl) | (rfl | rfl | rfl | rfl | rfl | rfl | rfl)) |
        (rfl | rfl | rfl | rfl)
    all_goals exact ⟨_, rfl⟩
  · rintro ⟨i, rfl⟩
    cases i <;> simp [opcodeTable, Instr.row]

theorem row_mem_opcodeTable (i : Instr) : i.row ∈ opcodeTable := mem_opcodeTable_iff.mpr ⟨i, rfl⟩

/-- An opcode names its command, with the operands of the word (R66). -/
theorem commandOf_of_opcode {i : Instr} {w : CmdWord} (h : fieldOpc w = fieldOpc i.row.pattern) :
    commandOf w = some (i.reading w) := by
  rw [commandOf, h]
  cases i <;> rw [Instr.row] <;> rfl

/-- Every operand of the command an opcode names is read from the word. -/
theorem reading_of_commandOf {i : Instr} {w : CmdWord} (h : commandOf w = some i) : i.reading w = i := by
  unfold commandOf at h
  split at h <;> cases h <;> rfl

theorem fieldOpc_mask : ∀ r ∈ opcodeTable, fieldOpc r.mask = BitVec.allOnes 8 := by decide

/-- A word in a command's row has its opcode. -/
theorem fieldOpc_of_inRow {i : Instr} {w : CmdWord} (h : w &&& i.row.mask = i.row.pattern) :
    fieldOpc w = fieldOpc i.row.pattern := by
  have covers : fieldOpc i.row.mask = BitVec.allOnes 8 := fieldOpc_mask _ (row_mem_opcodeTable i)
  calc fieldOpc w = fieldOpc w &&& fieldOpc i.row.mask := by rw [covers, BitVec.and_allOnes]
    _ = fieldOpc (w &&& i.row.mask) := BitVec.extractLsb'_and.symm
    _ = fieldOpc i.row.pattern := by rw [h]

/-- A word in a command's row decodes to that command, with the operands of the word. -/
theorem decode_of_inRow {i : Instr} {w : CmdWord} (h : w &&& i.row.mask = i.row.pattern) :
    decode w = .ok (i.reading w) := by
  simp [decode, commandOf_of_opcode (fieldOpc_of_inRow h), h]

/-- All that the decoder accepts: the words of a command's row whose fields hold its operands (R66). -/
theorem decode_eq_ok_iff {w : CmdWord} {i : Instr} :
    decode w = .ok i ↔ w &&& i.row.mask = i.row.pattern ∧ i.reading w = i := by
  constructor
  · intro h
    unfold decode at h
    split at h
    next => cases h
    next named =>
      split at h
      next inRow =>
        cases h
        exact ⟨inRow, reading_of_commandOf named⟩
      next => cases h
  · rintro ⟨inRow, operands⟩
    rw [decode_of_inRow inRow, operands]

/-- Settles O3: the words of a row are the ones that decode to a command of the row. -/
theorem decodeFollowsMatchAndMask : Obligations.DecodeFollowsMatchAndMask := by
  intro w r
  constructor
  · rintro ⟨i, hd, rfl⟩
    exact ⟨row_mem_opcodeTable i, (decode_eq_ok_iff.mp hd).1⟩
  · rintro ⟨hr, inRow⟩
    obtain ⟨i, rfl⟩ := mem_opcodeTable_iff.mp hr
    exact ⟨i.reading w, decode_of_inRow inRow, row_reading i w⟩

end Sys2Proof

/-! ## The fields of an encoded word (R63, R68) -/

namespace Sys2Proof

theorem fieldAddr_or (v w : CmdWord) : fieldAddr (v ||| w) = fieldAddr v ||| fieldAddr w := BitVec.extractLsb'_or
theorem fieldCount_or (v w : CmdWord) : fieldCount (v ||| w) = fieldCount v ||| fieldCount w := BitVec.extractLsb'_or
theorem fieldByte_or (v w : CmdWord) : fieldByte (v ||| w) = fieldByte v ||| fieldByte w := BitVec.extractLsb'_or
theorem fieldDur_or (v w : CmdWord) : fieldDur (v ||| w) = fieldDur v ||| fieldDur w := BitVec.extractLsb'_or
theorem fieldFlag_or (v w : CmdWord) : fieldFlag (v ||| w) = (fieldFlag v || fieldFlag w) := BitVec.getLsbD_or

@[simp] theorem fieldAddr_addrBits (a : Addr) : fieldAddr (addrBits a) = a := by revert a; decide
@[simp] theorem fieldAddr_countBits (c : BitVec 8) : fieldAddr (countBits c) = 0 := by revert c; decide
@[simp] theorem fieldAddr_flagBits (b : Bool) : fieldAddr (flagBits b) = 0 := by cases b <;> rfl
@[simp] theorem fieldCount_addrBits (a : Addr) : fieldCount (addrBits a) = 0 := by revert a; decide
@[simp] theorem fieldCount_countBits (c : BitVec 8) : fieldCount (countBits c) = c := by revert c; decide
@[simp] theorem fieldCount_flagBits (b : Bool) : fieldCount (flagBits b) = 0 := by cases b <;> rfl
@[simp] theorem fieldFlag_addrBits (a : Addr) : fieldFlag (addrBits a) = false := by revert a; decide
@[simp] theorem fieldFlag_countBits (c : BitVec 8) : fieldFlag (countBits c) = false := by revert c; decide
@[simp] theorem fieldFlag_flagBits (b : Bool) : fieldFlag (flagBits b) = b := by cases b <;> rfl
@[simp] theorem fieldByte_byteBits (b : Byte) : fieldByte (byteBits b) = b := by
  simp [fieldByte, byteBits, BitVec.extractLsb'_setWidth_of_le]
@[simp] theorem fieldDur_durBits (d : Duration) : fieldDur (durBits d) = d := by
  simp [fieldDur, durBits, BitVec.extractLsb'_setWidth_of_le]

/-- A mode is the flag "read" (R60). -/
theorem modeBits_eq_flagBits (m : Mode) : modeBits m = flagBits (m = .read) := by cases m <;> rfl

theorem fieldMode_eq (w : CmdWord) : fieldMode w = if fieldFlag w then .read else .write := rfl

theorem mode_of_isRead (m : Mode) : (if m = .read then Mode.read else .write) = m := by cases m <;> rfl

/-- A command's word holds its operands in their fields, which the opcode and the other operands leave clear (R68). -/
theorem reading_encode (i : Instr) : i.reading (encode i) = i := by
  cases i <;>
    simp only [Instr.reading, encode, fieldAddr_or, fieldCount_or, fieldByte_or, fieldDur_or, fieldFlag_or,
      fieldMode_eq, modeBits_eq_flagBits, fieldAddr_addrBits, fieldAddr_countBits, fieldAddr_flagBits,
      fieldCount_addrBits, fieldCount_countBits, fieldCount_flagBits, fieldFlag_addrBits, fieldFlag_countBits,
      fieldFlag_flagBits, fieldByte_byteBits, fieldDur_durBits] <;>
    simp [fieldAddr, fieldCount, fieldByte, fieldDur, fieldFlag, mode_of_isRead]

/-- A command's word lies in its row of R66. -/
theorem encode_inRow (i : Instr) : encode i &&& i.row.mask = i.row.pattern := by
  cases i with
  | stop stretch => exact (Laws.EncodesInRow.stop stretch).1
  | startRaw raw => exact (Laws.EncodesInRow.startRaw raw).1
  | rstartRaw raw => exact (Laws.EncodesInRow.rstartRaw raw).1
  | startwRaw raw => exact (Laws.EncodesInRow.startwRaw raw).1
  | start addr mode => exact (Laws.EncodesInRow.start addr mode).1
  | rstart addr mode => exact (Laws.EncodesInRow.rstart addr mode).1
  | startw addr mode => exact (Laws.EncodesInRow.startw addr mode).1
  | write data => exact (Laws.EncodesInRow.write data).1
  | read sendAck => exact (Laws.EncodesInRow.read sendAck).1
  | beginTx addr => exact (Laws.EncodesInRow.beginTx addr).1
  | txPut data => exact (Laws.EncodesInRow.txPut data).1
  | endTx sendStop => exact (Laws.EncodesInRow.endTx sendStop).1
  | reqFrom addr count sendStop => exact (Laws.EncodesInRow.reqFrom addr count sendStop).1
  | rxGet => exact Laws.EncodesInRow.rxGet.1
  | rxPeek => exact Laws.EncodesInRow.rxPeek.1
  | rxAvail => exact Laws.EncodesInRow.rxAvail.1
  | cfgPullups en => exact (Laws.EncodesInRow.cfgPullups en).1
  | cfgDelay dur => exact (Laws.EncodesInRow.cfgDelay dur).1
  | cfgTimeout dur => exact (Laws.EncodesInRow.cfgTimeout dur).1
  | init => exact Laws.EncodesInRow.init.1

theorem decode_encode (i : Instr) : decode (encode i) = .ok i :=
  decode_eq_ok_iff.mpr ⟨encode_inRow i, reading_encode i⟩

/-- Settles O1: a command's word lies in its row, and its fields hold its operands. -/
theorem decodeReadsBackEveryEncodedCommand : Obligations.DecodeReadsBackEveryEncodedCommand :=
  fun i _ => decode_encode i

/-! ### The bits of a word that its fields hold -/

/-- A field put back in its place is the word under the field's mask. -/
theorem field_in_place (start len : Nat) (w : CmdWord) :
    (w.extractLsb' start len).setWidth 32 <<< start = w &&& ((BitVec.allOnes len).setWidth 32 <<< start) := by
  ext k hk
  simp only [BitVec.getElem_and, BitVec.getElem_shiftLeft, BitVec.getElem_setWidth, BitVec.getLsbD_extractLsb',
    BitVec.getLsbD_allOnes]
  by_cases below : k < start
  · simp [below]
  · simp [below, Nat.add_sub_cancel' (Nat.le_of_not_lt below), BitVec.getLsbD_eq_getElem hk, Bool.and_comm]

theorem addrBits_fieldAddr (w : CmdWord) : addrBits (fieldAddr w) = w &&& 0x00007F00 := field_in_place 8 7 w
theorem countBits_fieldCount (w : CmdWord) : countBits (fieldCount w) = w &&& 0x00FF0000 := field_in_place 16 8 w
theorem byteBits_fieldByte (w : CmdWord) : byteBits (fieldByte w) = w &&& 0x000000FF := by
  simpa [byteBits, fieldByte] using field_in_place 0 8 w
theorem durBits_fieldDur (w : CmdWord) : durBits (fieldDur w) = w &&& 0x0000FFFF := by
  simpa [durBits, fieldDur] using field_in_place 0 16 w
theorem flagBits_fieldFlag (w : CmdWord) : flagBits (fieldFlag w) = w &&& 0x00000001 :=
  BitVec.and_one_eq_setWidth_ofBool_getLsbD.symm
theorem modeBits_fieldMode (w : CmdWord) : modeBits (fieldMode w) = w &&& 0x00000001 := by
  rw [← flagBits_fieldFlag, modeBits_eq_flagBits, fieldMode_eq]
  cases fieldFlag w <;> rfl

/-- The operands of a command fill the bits that its mask leaves free (R66, R68). -/
theorem encode_reading (i : Instr) (w : CmdWord) :
    encode (i.reading w) = i.row.pattern ||| (w &&& ~~~i.row.mask) := by
  cases i <;> rw [Instr.row] <;>
    simp only [Instr.reading, encode, addrBits_fieldAddr, countBits_fieldCount, byteBits_fieldByte,
      durBits_fieldDur, flagBits_fieldFlag, modeBits_fieldMode, BitVec.or_assoc, ← BitVec.and_or_distrib_left,
      BitVec.ofNat_eq_ofNat, BitVec.reduceNot, BitVec.reduceOr, BitVec.and_zero, BitVec.or_zero]

/-- A word in a command's row is the word of that command with the operands of the word. -/
theorem encode_reading_of_inRow {i : Instr} {w : CmdWord} (h : w &&& i.row.mask = i.row.pattern) :
    encode (i.reading w) = w :=
  calc encode (i.reading w) = (w &&& i.row.mask) ||| (w &&& ~~~i.row.mask) := by rw [encode_reading, h]
    _ = w := by rw [← BitVec.and_or_distrib_left, BitVec.or_not_self, BitVec.and_allOnes]

/-- The types of the operands are as wide as their fields (R67). -/
theorem Instr.wellFormed_eq_true (i : Instr) : i.wellFormed = true := by
  cases i <;> simp only [Instr.wellFormed, Bool.and_eq_true, decide_eq_true_eq] <;> omega

/-- Settles O2: the bits under the mask are the row's, and the operands hold the others. -/
theorem everyDecodedWordIsItsEncoding : Obligations.EveryDecodedWordIsItsEncoding := by
  intro w i hd
  obtain ⟨inRow, operands⟩ := decode_eq_ok_iff.mp hd
  refine ⟨?_, Instr.wellFormed_eq_true i⟩
  rw [← encode_reading_of_inRow inRow, operands]

end Sys2Proof

/-! ## Illegal words (R67) -/

namespace Sys2Proof

theorem decode_error_iff {w : CmdWord} : (∃ e, decode w = .error e) ↔ ¬ ∃ i, decode w = .ok i := by
  cases decode w <;> simp

/-- Illegal words are those that no row of R66 matches. -/
theorem decode_error_iff_no_row {w : CmdWord} :
    (∃ e, decode w = .error e) ↔ ∀ r ∈ opcodeTable, w &&& r.mask ≠ r.pattern := by
  rw [decode_error_iff]
  constructor
  · intro illegal r hr inRow
    obtain ⟨i, hd, -⟩ := (decodeFollowsMatchAndMask w r).mpr ⟨hr, inRow⟩
    exact illegal ⟨i, hd⟩
  · rintro noRow ⟨i, hd⟩
    exact noRow _ (row_mem_opcodeTable i) (decode_eq_ok_iff.mp hd).1

end Sys2Proof

namespace Sys2Proof.Machine

/-- A step of a ready controller that presents an illegal word answers `0x8000` and does nothing else. -/
theorem step_illegal {s : State} {w : CmdWord} {rest : List HostEvent} {e : DecodeError} (hb : s.busy = false)
    (hh : s.host = .command w :: rest) (hd : decode w = .error e) :
    step s = .next { s with host := rest, resp := some 0x8000 } := by
  rw [step_command hh, presentCommand_ready hb, runCommand_illegal hd]
  have unchanged : { s with host := rest, resp := some 0x8000 } =
      { s with host := rest, busy := false, resp := some 0x8000 } := by rw [← hb]
  rw [unchanged]
  rfl

/-- Settles O4: an illegal word is one that does not decode, and `step_illegal` says what it does. -/
theorem illegalWordIsAnsweredAndDoesNothing : Obligations.IllegalWordIsAnsweredAndDoesNothing := by
  refine fun w => ⟨decode_error_iff_no_row, fun noRow s rest hb hh => ?_⟩
  obtain ⟨e, hd⟩ := decode_error_iff_no_row.mpr noRow
  exact step_illegal hb hh hd

end Sys2Proof.Machine

/-! ## The assembler and the raw address byte (R60, R65, R68, R69) -/

namespace Sys2Proof

/-! ### An operand that fits, in its place -/

theorem flagBits_toNat {n : Nat} (h : Asm.flagOk n = true) : (flagBits (Asm.flag n)).toNat = n := by
  have fits : n < 2 := of_decide_eq_true h
  interval_cases n <;> rfl

theorem modeBits_toNat {n : Nat} (h : Asm.flagOk n = true) : (modeBits (Asm.mode n)).toNat = n := by
  have fits : n < 2 := of_decide_eq_true h
  interval_cases n <;> rfl

theorem byteBits_toNat {n : Nat} (h : Asm.byteOk n = true) : (byteBits (.ofNat 8 n)).toNat = n := by
  have fits : n < 256 := of_decide_eq_true h
  simp only [byteBits, BitVec.toNat_setWidth, BitVec.toNat_ofNat]
  omega

theorem durBits_toNat {n : Nat} (h : Asm.durOk n = true) : (durBits (.ofNat 16 n)).toNat = n := by
  have fits : n < 65536 := of_decide_eq_true h
  simp only [durBits, BitVec.toNat_setWidth, BitVec.toNat_ofNat]
  omega

theorem addrBits_toNat {n : Nat} (h : Asm.addrOk n = true) : (addrBits (.ofNat 7 n)).toNat = n <<< 8 := by
  have fits : n < 128 := of_decide_eq_true h
  simp only [addrBits, BitVec.toNat_shiftLeft, BitVec.toNat_setWidth, BitVec.toNat_ofNat, Nat.shiftLeft_eq]
  omega

theorem countBits_toNat {n : Nat} (h : Asm.byteOk n = true) : (countBits (.ofNat 8 n)).toNat = n <<< 16 := by
  have fits : n < 256 := of_decide_eq_true h
  simp only [countBits, BitVec.toNat_shiftLeft, BitVec.toNat_setWidth, BitVec.toNat_ofNat, Nat.shiftLeft_eq]
  omega

/-- An operand that R69 lets out is 1, which fits its field. -/
theorem flagOk_getD {o : Option Nat} (h : o.all Asm.flagOk = true) : Asm.flagOk (o.getD 1) = true := by
  cases o with
  | none => rfl
  | some n => exact h

theorem flagBits_true : flagBits true = 1#32 := rfl
theorem flagBits_false : flagBits false = 0#32 := rfl

/-- Settles O5, operand by operand. -/
theorem writtenCommandsAssembleToTheirWords : Obligations.WrittenCommandsAssembleToTheirWords := by
  intro a h
  cases a <;>
    simp only [Asm.wellFormed, Bool.and_eq_true] at h <;>
    simp [Asm.expand, Asm.words, encode, h, BitVec.toNat_or, flagBits_toNat, modeBits_toNat, byteBits_toNat,
      durBits_toNat, addrBits_toNat, countBits_toNat, flagOk_getD, flagBits_true, flagBits_false]

/-- Settles O6, word by word. -/
theorem knownWordsDecode : Obligations.KnownWordsDecode := by
  unfold Obligations.KnownWordsDecode
  decide

end Sys2Proof

namespace Sys2Proof.Machine

@[simp] theorem rawAddr_rawByte (addr : Addr) (mode : Mode) : rawAddr (rawByte addr mode) = addr :=
  BitVec.extractLsb'_append_eq_left

theorem mode_bit_injective : Function.Injective Mode.bit := by
  intro m n h
  cases m <;> cases n <;> simp_all [Mode.bit]

/-- The direction part is bit 0 of the raw byte. -/
theorem rawMode_bit (raw : Byte) : (rawMode raw).bit = raw.extractLsb' 0 1 := by
  rw [← BitVec.setWidth_eq_extractLsb' (by decide), BitVec.setWidth_one, rawMode]
  cases raw.getLsbD 0 <;> rfl

@[simp] theorem rawMode_rawByte (addr : Addr) (mode : Mode) : rawMode (rawByte addr mode) = mode := by
  have same : (rawMode (rawByte addr mode)).bit = mode.bit := by
    rw [rawMode_bit]
    exact BitVec.extractLsb'_append_eq_right
  exact mode_bit_injective same

@[simp] theorem rawByte_rawAddr_rawMode (raw : Byte) : rawByte (rawAddr raw) (rawMode raw) = raw := by
  rw [rawByte, rawMode_bit]
  exact BitVec.extractLsb'_append_extractLsb'

/-- Settles O7: `{ADDR, MODE}` is a concatenation, of which the two parts are read back. -/
theorem rawByteIsAddressThenDirection : Obligations.RawByteIsAddressThenDirection :=
  ⟨fun addr mode => ⟨BitVec.toNat_append addr mode.bit, rawAddr_rawByte addr mode, rawMode_rawByte addr mode⟩,
    rawByte_rawAddr_rawMode⟩

/-- Settles O39: an address form performs the operation of its raw form on `{ADDR, MODE}`. -/
theorem addressFormsAreTheRawForms : Obligations.AddressFormsAreTheRawForms :=
  fun _ _ _ => ⟨rfl, rfl, rfl⟩

end Sys2Proof.Machine

/-! ## The responses a command can give (R19, R20, R64, R191, R192) -/

namespace Sys2Proof.Machine

/-! ### The response words -/

theorem respDone_eq : respDone = 0x0000 := rfl

theorem respStatus_cases (r : Status) : respStatus r = 0x0000 ∨ respStatus r = 0x0100 ∨ respStatus r = 0x0200 := by
  cases r <;> decide

theorem respStatus_of_not_nack {r : Status} (h : r = .ack ∨ r = .timedOut) :
    respStatus r = 0x0000 ∨ respStatus r = 0x0200 := by
  rcases h with rfl | rfl <;> decide

theorem respTx_cases (c : TxStatus) :
    respTx c = 0x0000 ∨ respTx c = 0x0200 ∨ respTx c = 0x0300 ∨ respTx c = 0x0400 := by
  cases c <;> decide

@[simp] theorem respData_toNat (data : Byte) : (respData data).toNat = data.toNat := by
  exact (BitVec.toNat_append _ data).trans (by simp)

theorem respFlag_true_toNat (data : Byte) : (respFlag true data).toNat = 0x0800 + data.toNat := by
  revert data
  decide

theorem respFlag_true_range (data : Byte) :
    0x0800 ≤ (respFlag true data).toNat ∧ (respFlag true data).toNat < 0x0900 := by
  rw [respFlag_true_toNat]
  omega

/-! ### The results of the operations -/

/-- Only a STOP that waits can time out, and none reports NACK (R93). -/
theorem opStop_result {stretch : Bool} {s t : State} {r : Status} (h : opStop stretch s = .ok (r, t)) :
    r = .ack ∨ stretch = true ∧ r = .timedOut := by
  cases stretch with
  | false => exact .inl (opStop_forced_run h).1
  | true =>
    obtain ⟨_, shape, -⟩ := opStop_shape h
    exact shape.result.imp_right fun timedOut => ⟨rfl, timedOut⟩

/-- A NACK is retried, so START-with-wait reports none (R99, R191). -/
theorem opStartWait_result {raw : Byte} {s t : State} {r : Status} (h : opStartWait raw s = .ok (r, t)) :
    r = .ack ∨ r = .timedOut := by
  obtain ⟨_, shape, -⟩ := opStartWait_run h
  exact shape.result

/-- The count REQ_FROM answers with is that of the bytes it stored (R146). -/
theorem reqFrom_count {addr : Addr} {count : BitVec 8} {sendStop : Bool} {s t : State}
    (h : exec (.reqFrom addr count sendStop) s = .next t) :
    ∃ n : Byte, t.resp = some (respData n) ∧ n.toNat ≤ min count.toNat s.params.rxCap := by
  rw [exec_reqFrom] at h
  simp only [serveRequest, finish_next, bind_ok] at h
  obtain ⟨a, ha, b, hb, he⟩ := h
  cases he
  obtain ⟨-, bytes, fits, stored⟩ := receive_buffers ha
  obtain ⟨-, kept, -⟩ := endTransaction_kept hb
  have fits' : bytes.length ≤ min count.toNat s.params.rxCap := fits
  have cursor : b.rxlen.toNat = bytes.length :=
    calc b.rxlen.toNat = (s.buffers.receive bytes).rxlen.toNat := congrArg (·.rxlen.toNat) (kept.trans stored)
      _ = bytes.length := receive_rxlen s.buffers (by omega)
  exact ⟨b.rxlen, rfl, cursor ▸ fits'⟩

/-! ### Every command -/

/-- The state answers a command with one of its responses. -/
def Responds (i : Instr) (p : Params) (t : State) : Prop := ∃ w, t.resp = some w ∧ i.mayAnswer p w

theorem responds_respond {i : Instr} {p : Params} {w : RespWord} {u : State} (h : i.mayAnswer p w) :
    Responds i p (respond w u) := ⟨w, rfl, h⟩

/-- A bus primitive answers with the status of its operation. -/
theorem finish_status_responds {op : State → Except Fault (Status × State)} {i : Instr} {p : Params} {s t : State}
    (answers : ∀ {r u}, op s = .ok (r, u) → i.mayAnswer p (respStatus r))
    (h : finish (op s >>= fun q => .ok (respond (respStatus q.1) q.2)) = .next t) : Responds i p t := by
  obtain ⟨r, u, hop, rfl⟩ := finish_status_next.mp h
  exact responds_respond (answers hop)

theorem exec_responds {i : Instr} {s t : State} (h : exec i s = .next t) : Responds i s.params t := by
  cases i with
  | stop stretch =>
    refine finish_status_responds (fun hop => ?_) h
    rcases opStop_result hop with rfl | ⟨rfl, rfl⟩
    · exact .inl rfl
    · exact .inr ⟨rfl, rfl⟩
  | startRaw raw => exact finish_status_responds (fun _ => respStatus_cases _) h
  | rstartRaw raw => exact finish_status_responds (fun _ => respStatus_cases _) h
  | startwRaw raw => exact finish_status_responds (fun hop => respStatus_of_not_nack (opStartWait_result hop)) h
  | start addr mode => exact finish_status_responds (fun _ => respStatus_cases _) h
  | rstart addr mode => exact finish_status_responds (fun _ => respStatus_cases _) h
  | startw addr mode => exact finish_status_responds (fun hop => respStatus_of_not_nack (opStartWait_result hop)) h
  | write data => exact finish_status_responds (fun _ => respStatus_cases _) h
  | read sendAck =>
    obtain ⟨r, byte, u, -, rfl⟩ := exec_read_next.mp h
    apply responds_respond
    split
    next => exact .inl (by simpa using byte.isLt)
    next => exact .inr respStatus_timedOut
  | endTx sendStop =>
    simp only [exec, execEndTx, finish_next, bind_ok] at h
    obtain ⟨⟨code, a⟩, -, b, -, he⟩ := h
    cases he
    exact responds_respond (respTx_cases code)
  | reqFrom addr count sendStop =>
    obtain ⟨n, resp, bound⟩ := reqFrom_count h
    exact ⟨_, resp, by simpa [Instr.mayAnswer] using bound⟩
  | txPut data =>
    simp only [exec, execTxPut] at h
    split at h <;> cases h
    · exact responds_respond (.inr rfl)
    · exact responds_respond (.inl rfl)
  | rxGet =>
    simp only [exec, execRxGet] at h
    split at h <;> cases h
    · exact responds_respond (.inr (respFlag_true_range _))
    · exact responds_respond (.inl rfl)
  | rxPeek =>
    simp only [exec, execRxPeek] at h
    split at h <;> cases h
    · exact responds_respond (.inr (respFlag_true_range _))
    · exact responds_respond (.inl rfl)
  | rxAvail =>
    cases h
    exact responds_respond (by simpa [Instr.mayAnswer] using (s.rxlen - s.rxpos).isLt)
  | beginTx _ | cfgPullups _ | cfgDelay _ | cfgTimeout _ | init =>
    cases h
    exact responds_respond respDone_eq

/-- Settles O13, by the result of the operation each command performs. -/
theorem everyResponseIsOneTheCommandCanGive : Obligations.EveryResponseIsOneTheCommandCanGive :=
  fun _ _ _ h => ⟨(exec_effect h).ready, exec_responds h⟩

end Sys2Proof.Machine

/-! ## The registers no bus primitive touches (R104) -/

namespace Sys2Proof.Machine

theorem SameOffBus.respond {s t : State} (h : SameOffBus s t) (w : RespWord) : SameOffBus s (respond w t) :=
  h.trans (by constructor <;> rfl)

/-- The transaction state of `c` in the place of that of `s`: the registers of R104. -/
def State.withTransactionOf (c s : State) : State :=
  { s with phase := c.phase, taddr := c.taddr, dir := c.dir, stopDeferred := c.stopDeferred, txbuf := c.txbuf,
           txlen := c.txlen, rxbuf := c.rxbuf, rxlen := c.rxlen, rxpos := c.rxpos }

theorem withTransactionOf_mask (c : State) : BusMask c.withTransactionOf where
  env _ := rfl
  sr _ := rfl
  bitcnt _ := rfl
  draws _ := rfl
  dataPath _ _ _ _ := rfl
  sdaLow _ := rfl
  sdaRelease _ := rfl
  sclLow _ := rfl
  sclRelease _ := rfl
  bitDelay s := by
    rw [bitDelay, bitDelay, apply_ite (Except.map c.withTransactionOf)]
    rfl
  readSda _ := rfl
  readScl _ := rfl
  tgStart _ _ := rfl
  tgExpired _ _ := rfl
  respond _ _ := rfl

/-- Settles O19: the frame of a bus primitive, and a transaction state written before it or after it. -/
theorem busPrimitivesIgnoreTheTransactionState : Obligations.BusPrimitivesIgnoreTheTransactionState := by
  refine fun i s hi => ⟨fun t h => ?_, fun ph ta di sd tb tl rb rl rp => ?_⟩
  · obtain ⟨u, w, off, rfl⟩ := exec_busPrimitive_off hi h
    exact off.respond w
  · exact BusMask.exec_busPrimitive (withTransactionOf_mask
      { s with phase := ph, taddr := ta, dir := di, stopDeferred := sd, txbuf := tb, txlen := tl, rxbuf := rb,
               rxlen := rl, rxpos := rp }) hi s

end Sys2Proof.Machine

/-! ## The clock wait has no iteration limit of its own (R92, assumption 1) -/

namespace Sys2Proof.Machine

/-- The state after a low clock sample and the guard's answer: where the next iteration of a clock wait starts. -/
def afterLowSample (g : Guard) (s : State) : State := (tgExpired g (readScl s).2).2

@[simp] theorem afterLowSample_scl (g : Guard) (s : State) : (afterLowSample g s).env.scl = s.env.scl.tail := by
  cases g <;> rfl

@[simp] theorem afterLowSample_guard (g : Guard) (s : State) :
    (afterLowSample g s).env.guard g = (s.env.guard g).tail := by
  cases g <;> rfl

@[simp] theorem readScl_guard (g : Guard) (s : State) : (readScl s).2.env.guard g = s.env.guard g := by
  cases g <;> rfl

/-- A clock wait goes on after a low sample while the guard has not expired (R92). -/
theorem waitLoop_goes_on {g : Guard} {s : State} (low : s.env.scl.head = false)
    (running : (s.env.guard g).head = false) (n : Nat) :
    waitLoop g (n + 1) s = waitLoop g n (afterLowSample g s) := by
  rw [waitLoop_succ, readScl_guard, low, running]
  rfl

/-- A clock wait that ends in its first iteration does not depend on how many are allowed (R92). -/
theorem waitLoop_ends {g : Guard} {s : State} (h : s.env.scl.head = true ∨ (s.env.guard g).head = true) (n m : Nat) :
    waitLoop g (n + 1) s = waitLoop g (m + 1) s := by
  rw [waitLoop_succ, waitLoop_succ, readScl_guard]
  rcases h with h | h <;> simp [h]

/-- A clock that never rises and a guard that never expires (U9). -/
theorem waitLoop_stuck {g : Guard} {s : State} (low : s.env.scl.AllAre false)
    (running : (s.env.guard g).AllAre false) (n : Nat) : waitLoop g n s = .error .clockNeverRises := by
  induction n generalizing s with
  | zero => rfl
  | succ n ih =>
    rw [waitLoop_goes_on (allAre_head low) (allAre_head running)]
    exact ih (by simpa using allAre_tail low) (by simpa using allAre_tail running)

theorem waitSclHigh_stuck {g : Guard} {s : State} (low : s.env.scl.AllAre false)
    (running : (s.env.guard g).AllAre false) : waitSclHigh g s = .error .clockNeverRises :=
  waitLoop_stuck low running _

/-- A clock wait that ends ends the same way when more iterations are allowed. -/
theorem waitLoop_mono {g : Guard} {n m : Nat} {s : State} {r : Bool × State} (h : waitLoop g n s = .ok r)
    (le : n ≤ m) : waitLoop g m s = .ok r := by
  induction n generalizing s m with
  | zero => cases h
  | succ n ih =>
    obtain ⟨m, rfl⟩ := Nat.exists_eq_add_of_lt le
    by_cases ends : s.env.scl.head = true ∨ (s.env.guard g).head = true
    · exact (waitLoop_ends ends _ _).trans h
    · obtain ⟨low, running⟩ : s.env.scl.head = false ∧ (s.env.guard g).head = false := by simpa using ends
      rw [waitLoop_goes_on low running] at h ⊢
      exact ih h (by omega)

theorem allAre_of_nil {a : Answers} {b : Bool} (pending : a.pending = []) (head : a.head = b) : a.AllAre b :=
  ⟨by simp [pending], by rw [← head_of_nil a pending, head]⟩

/-- The iterations that settle a clock wait are enough for every one that ends: each takes a pending answer, and when
there is none left the wait never ends. -/
theorem waitLoop_settled {g : Guard} {n : Nat} {s : State} {r : Bool × State} (h : waitLoop g n s = .ok r) :
    waitLoop g (waitFuel g s) s = .ok r := by
  induction n generalizing s with
  | zero => cases h
  | succ n ih =>
    by_cases ends : s.env.scl.head = true ∨ (s.env.guard g).head = true
    · exact (waitLoop_ends ends _ _).trans h
    · obtain ⟨low, running⟩ : s.env.scl.head = false ∧ (s.env.guard g).head = false := by simpa using ends
      by_cases used : s.env.scl.pending = [] ∧ (s.env.guard g).pending = []
      · rw [waitLoop_stuck (allAre_of_nil used.1 low) (allAre_of_nil used.2 running)] at h
        cases h
      · rw [waitFuel, waitLoop_goes_on low running]
        rw [waitLoop_goes_on low running] at h
        refine waitLoop_mono (ih h) ?_
        have left : s.env.scl.pending.length ≠ 0 ∨ (s.env.guard g).pending.length ≠ 0 := by
          simpa [imp_iff_not_or] using used
        simp only [waitFuel, afterLowSample_scl, afterLowSample_guard, tail_length]
        omega

/-- Settles O24, by `waitLoop_settled`. -/
theorem clockWaitHasNoLimitOfItsOwn : Obligations.ClockWaitHasNoLimitOfItsOwn :=
  fun _ _ _ _ h => waitLoop_settled h

end Sys2Proof.Machine

/-! ## The answers a list of actions records (R49): an operation that is given them performs the actions -/

namespace Sys2Proof.Machine

/-- The inputs the environment answers at (R32, R33). -/
inductive Input where
  | scl
  | sda
  | gp
  | go
  | delay
deriving DecidableEq

/-- The answers still to come at an input. -/
@[simp] def Env.input (e : Env) : Input → Answers
  | .scl => e.scl
  | .sda => e.sda
  | .gp => e.gp
  | .go => e.go
  | .delay => e.delayDone

/-- The answer an action records at an input, none when it does not ask there. A delay in a trace has been done. -/
def Token.answers : Token → Input → List Bool
  | .readScl b, i => if i = .scl then [b] else []
  | .readSda b, i => if i = .sda then [b] else []
  | .tgQuery .gp b, i => if i = .gp then [b] else []
  | .tgQuery .go b, i => if i = .go then [b] else []
  | .delay _, i => if i = .delay then [true] else []
  | .sdaLow, _ => []
  | .sdaRelease, _ => []
  | .sclLow, _ => []
  | .sclRelease, _ => []
  | .tgStart _ _, _ => []

@[simp] theorem answers_readScl (b : Bool) (i : Input) :
    (Token.readScl b).answers i = if i = .scl then [b] else [] := rfl
@[simp] theorem answers_readSda (b : Bool) (i : Input) :
    (Token.readSda b).answers i = if i = .sda then [b] else [] := rfl
@[simp] theorem answers_tgQuery_gp (b : Bool) (i : Input) :
    (Token.tgQuery .gp b).answers i = if i = .gp then [b] else [] := rfl
@[simp] theorem answers_tgQuery_go (b : Bool) (i : Input) :
    (Token.tgQuery .go b).answers i = if i = .go then [b] else [] := rfl
@[simp] theorem answers_delay (d : Duration) (i : Input) :
    (Token.delay d).answers i = if i = .delay then [true] else [] := rfl
@[simp] theorem answers_sdaLow (i : Input) : Token.sdaLow.answers i = [] := rfl
@[simp] theorem answers_sdaRelease (i : Input) : Token.sdaRelease.answers i = [] := rfl
@[simp] theorem answers_sclLow (i : Input) : Token.sclLow.answers i = [] := rfl
@[simp] theorem answers_sclRelease (i : Input) : Token.sclRelease.answers i = [] := rfl
@[simp] theorem answers_tgStart (g : Guard) (d : Duration) (i : Input) : (Token.tgStart g d).answers i = [] := rfl
@[simp] theorem answers_dataToken (b : Bool) (i : Input) : (dataToken b).answers i = [] := by cases b <;> rfl

/-- The answers a list of actions records at an input, in order. -/
def answers (ts : List Token) (i : Input) : List Bool := ts.flatMap (·.answers i)

/-- The environment's next answers are the ones the actions record. -/
def Env.Grants (e : Env) (ts : List Token) : Prop := ∀ i, (e.input i).Begins (answers ts i)

/-! ### Lists of answers -/

@[simp] theorem begins_nil (a : Answers) : a.Begins [] := rfl

@[simp] theorem begins_cons (a : Answers) (b : Bool) (bs : List Bool) :
    a.Begins (b :: bs) ↔ a.head = b ∧ a.tail.Begins bs := by
  simp [Answers.Begins]

theorem begins_append (a : Answers) (xs ys : List Bool) :
    a.Begins (xs ++ ys) ↔ a.Begins xs ∧ (a.drop xs.length).Begins ys := by
  rw [Answers.Begins, List.length_append, take_add]
  exact List.append_eq_append_iff_of_size_eq_left (take_length a xs.length)

theorem allAre_begins {a : Answers} {b : Bool} (h : a.AllAre b) {bs : List Bool} (same : ∀ x ∈ bs, x = b) :
    a.Begins bs := by
  rw [Answers.Begins, allAre_take h]
  exact (List.eq_replicate_of_mem same).symm

@[simp] theorem answers_nil (i : Input) : answers [] i = [] := rfl

@[simp] theorem answers_cons (t : Token) (ts : List Token) (i : Input) :
    answers (t :: ts) i = t.answers i ++ answers ts i := rfl

@[simp] theorem answers_append (xs ys : List Token) (i : Input) :
    answers (xs ++ ys) i = answers xs i ++ answers ys i := by
  simp [answers]

/-! ### What the environment grants -/

theorem tail_eq_drop (a : Answers) : a.tail = a.drop 1 := drop_tail a 0

theorem consume_input (e : Env) (t : Token) (i : Input) :
    (e.consume t).input i = (e.input i).drop (t.answers i).length := by
  cases t with
  | tgQuery g b => cases g <;> cases i <;> simp [Env.consume, tail_eq_drop]
  | _ => cases i <;> simp [Env.consume, tail_eq_drop]

theorem foldl_consume_input (e : Env) (ts : List Token) (i : Input) :
    (ts.foldl Env.consume e).input i = (e.input i).drop (answers ts i).length := by
  induction ts generalizing e with
  | nil => rfl
  | cons t ts ih => rw [List.foldl_cons, ih, consume_input, drop_drop, answers_cons, List.length_append]

theorem grants_append (e : Env) (xs ys : List Token) :
    e.Grants (xs ++ ys) ↔ e.Grants xs ∧ (xs.foldl Env.consume e).Grants ys := by
  simp only [Env.Grants, answers_append, begins_append, foldl_consume_input, forall_and]

theorem Env.Grants.append_nil {e : Env} {ts : List Token} (h : e.Grants ts) : e.Grants (ts ++ []) := by
  rwa [List.append_nil]

/-- After a run the environment grants the actions that come next. -/
theorem BusRun.grants {s t : State} {xs ys : List Token} (run : BusRun s t xs) (h : s.env.Grants (xs ++ ys)) :
    t.env.Grants ys := by
  rw [run.env]
  exact ((grants_append _ _ _).mp h).2

theorem Env.Grants.readScl {e : Env} {b : Bool} {ts : List Token} (h : e.Grants (.readScl b :: ts)) :
    e.scl.head = b := ((begins_cons _ _ _).mp (h .scl)).1

theorem Env.Grants.readSda {e : Env} {b : Bool} {ts : List Token} (h : e.Grants (.readSda b :: ts)) :
    e.sda.head = b := ((begins_cons _ _ _).mp (h .sda)).1

theorem Env.Grants.delay {e : Env} {d : Duration} {ts : List Token} (h : e.Grants (.delay d :: ts)) :
    e.delayDone.head = true := ((begins_cons _ _ _).mp (h .delay)).1

theorem Env.Grants.tgQuery {e : Env} {g : Guard} {b : Bool} {ts : List Token} (h : e.Grants (.tgQuery g b :: ts)) :
    (e.guard g).head = b := by
  cases g
  · exact ((begins_cons _ _ _).mp (h .gp)).1
  · exact ((begins_cons _ _ _).mp (h .go)).1

/-! ### The shared operations -/

theorem busRun_sampled {s : State} {high : Bool} (h : s.env.scl.head = high) :
    BusRun s (readScl s).2 [.readScl high] := h ▸ busRun_readScl s

theorem busRun_asked {g : Guard} {s : State} {expired : Bool} (h : (s.env.guard g).head = expired) :
    BusRun s (tgExpired g s).2 [.tgQuery g expired] := h ▸ busRun_tgExpired g s

/-- A delay that is granted, whatever its duration: the environment is not shown it. -/
theorem bitDelay_granted {s : State} {d : Duration} {ts : List Token} (h : s.env.Grants (.delay d :: ts)) :
    ∃ t, bitDelay s = .ok t ∧ t.env.Grants ts :=
  ⟨_, bitDelay_done h.delay, ((grants_append _ [.delay d] ts).mp h).2⟩

theorem stopOpen_granted {s : State} {ts : List Token}
    (h : s.env.Grants ([.sclLow, .delay s.delay, .sdaLow, .delay s.delay, .sclRelease] ++ ts)) :
    ∃ t, stopOpen s = .ok t ∧ BusRun s t [.sclLow, .delay s.delay, .sdaLow, .delay s.delay, .sclRelease] := by
  obtain ⟨a, ha, ga⟩ := bitDelay_granted ((busRun_sclLow s).grants h)
  obtain ⟨b, hb, -⟩ := bitDelay_granted ((busRun_sdaLow a).grants ga)
  have ends : stopOpen s = .ok (sclRelease b) := by simp [stopOpen, ha, hb]
  exact ⟨_, ends, (stopOpen_run ends).1⟩

theorem stopClose_granted {s : State} {ts : List Token}
    (h : s.env.Grants ([.delay s.delay, .sdaRelease, .delay s.delay] ++ ts)) :
    ∃ t, stopClose s = .ok t ∧ BusRun s t [.delay s.delay, .sdaRelease, .delay s.delay] := by
  obtain ⟨a, ha, ga⟩ := bitDelay_granted h
  obtain ⟨b, hb, -⟩ := bitDelay_granted ((busRun_sdaRelease a).grants ga)
  have ends : stopClose s = .ok b := by simp [stopClose, ha, hb]
  exact ⟨_, ends, (stopClose_run ends).1⟩

theorem opStopForced_granted {s : State} {ts : List Token} (h : s.env.Grants (stopTokens s.delay ++ ts)) :
    ∃ t, opStopForced s = .ok t ∧ BusRun s t (stopTokens s.delay) := by
  obtain ⟨a, ha, opened⟩ := stopOpen_granted (ts := [.delay s.delay, .sdaRelease, .delay s.delay] ++ ts) h
  have ga := opened.grants h
  rw [← opened.off.delay] at ga
  obtain ⟨b, hb, -⟩ := stopClose_granted ga
  have ends : opStopForced s = .ok b := by simp [opStopForced, ha, hb]
  exact ⟨_, ends, (opStopForced_run ends).1⟩

theorem abort_granted {s : State} {ts : List Token} (h : s.env.Grants (stopTokens s.delay ++ ts)) :
    ∃ t, abort s = .ok t ∧ BusRun s t (stopTokens s.delay) := by
  obtain ⟨a, ha, -⟩ := opStopForced_granted h
  obtain ⟨t, ends⟩ : ∃ t, abort s = .ok t := ⟨_, by simp only [abort, ha, ok_bind]; rfl⟩
  exact ⟨t, ends, abort_run ends⟩

/-! ### The clock wait (R92) -/

theorem stretchTokens_low (k : Nat) : LowSamples (stretchTokens k) := by
  induction k with
  | zero => exact fun _ h => absurd h (List.not_mem_nil)
  | succ k ih =>
    rintro t (_ | ⟨_, _ | ⟨_, h⟩⟩)
    · exact .inl rfl
    · exact .inr rfl
    · exact ih t h

theorem busRun_afterLowSample {g : Guard} {s : State} (low : s.env.scl.head = false)
    (running : (s.env.guard g).head = false) :
    BusRun s (afterLowSample g s) [.readScl false, .tgQuery g false] :=
  (busRun_sampled low).trans (busRun_asked ((readScl_guard g s).symm ▸ running))

/-- The low samples of a stretched clock, each an iteration of its wait. -/
theorem waitLoop_stretched (k n : Nat) {s : State} {ts : List Token} (h : s.env.Grants (stretchTokens k ++ ts)) :
    ∃ a, BusRun s a (stretchTokens k) ∧ waitLoop .gp (n + k) s = waitLoop .gp n a := by
  induction k generalizing s with
  | zero => exact ⟨s, .refl s, rfl⟩
  | succ k ih =>
    have low : s.env.scl.head = false := h.readScl
    have running : (s.env.guard .gp).head = false := ((busRun_sampled low).grants h).tgQuery
    have run := busRun_afterLowSample low running
    obtain ⟨a, rest, goes⟩ := ih (run.grants h)
    exact ⟨a, run.trans rest, (waitLoop_goes_on low running (n + k)).trans goes⟩

/-- The iteration that ends a clock wait. -/
theorem waitLoop_last {risen : Bool} {s : State} {ts : List Token} (h : s.env.Grants (waitEnd risen s.delay ++ ts)) :
    ∃ t, waitLoop .gp 1 s = .ok (risen, t) ∧ BusRun s t (waitEnd risen s.delay) := by
  rw [waitLoop_succ, readScl_guard]
  cases risen with
  | true =>
    have high : s.env.scl.head = true := h.readScl
    exact ⟨_, by rw [high]; rfl, busRun_sampled high⟩
  | false =>
    have low : s.env.scl.head = false := h.readScl
    have expired : (s.env.guard .gp).head = true := ((busRun_sampled low).grants h).tgQuery
    have asked := (busRun_sampled low).trans (busRun_asked (g := .gp) (s := (readScl s).2) expired)
    obtain ⟨t, ht, aborted⟩ := abort_granted (asked.grants h)
    exact ⟨t, by rw [low, expired, ht]; rfl, asked.trans aborted⟩

theorem waitSclHigh_granted (k : Nat) {risen : Bool} {s : State} {ts : List Token}
    (h : s.env.Grants (stretchTokens k ++ (waitEnd risen s.delay ++ ts))) :
    ∃ t, waitSclHigh .gp s = .ok (risen, t) ∧ BusRun s t (stretchTokens k ++ waitEnd risen s.delay) := by
  obtain ⟨a, stretched, goes⟩ := waitLoop_stretched k 1 h
  have ga := stretched.grants h
  rw [← stretched.off.delay] at ga
  obtain ⟨t, ht, last⟩ := waitLoop_last ga
  rw [stretched.off.delay] at last
  exact ⟨t, waitLoop_settled (goes.trans ht), stretched.trans last⟩

end Sys2Proof.Machine

/-! ## STOP that is granted its answers (R93, R94) -/

namespace Sys2Proof.Machine

/-- The actions of `op_stop(1)` up to its clock wait (R93). -/
def stopWaitOpening (d t : Duration) : List Token :=
  [.tgStart .gp t, .sclLow, .delay d, .sdaLow, .delay d, .sclRelease]

theorem stopWaitTokens_eq (d t : Duration) (k : Nat) :
    stopWaitTokens d t k =
      stopWaitOpening d t ++ (stretchTokens k ++ waitEnd true d) ++ [.delay d, .sdaRelease, .delay d] := by
  simp [stopWaitTokens, stopWaitOpening, waitEnd]

theorem stopExpiredTokens_eq (d t : Duration) (k : Nat) :
    stopExpiredTokens d t k = stopWaitOpening d t ++ (stretchTokens k ++ waitEnd false d) := by
  simp [stopExpiredTokens, stopWaitOpening, waitEnd]

theorem opStop_stretch_eq (s : State) :
    opStop true s = (stopOpen (tgStart .gp s) >>= waitSclHigh .gp >>= fun p =>
      if p.1 then (stopClose p.2 >>= fun c => .ok (.ack, c)) else .ok (.timedOut, p.2)) := by
  rw [bind_assoc]
  rfl

/-- The opening of `op_stop(1)` and its clock wait, which ends as `risen` says after `k` low samples. -/
theorem stopWait_granted {risen : Bool} {s : State} {k : Nat} {ts : List Token}
    (h : s.env.Grants (stopWaitOpening s.delay s.timeout ++ (stretchTokens k ++ waitEnd risen s.delay) ++ ts)) :
    ∃ a, (stopOpen (tgStart .gp s) >>= waitSclHigh .gp) = .ok (risen, a) ∧
      BusRun s a (stopWaitOpening s.delay s.timeout ++ (stretchTokens k ++ waitEnd risen s.delay)) := by
  rw [List.append_assoc, List.append_assoc] at h
  have started := busRun_tgStart .gp s
  obtain ⟨a, ha, opened⟩ := stopOpen_granted (started.grants h)
  have ready := started.trans opened
  have ga := ready.grants h
  rw [← ready.off.delay] at ga
  obtain ⟨b, hb, waited⟩ := waitSclHigh_granted k ga
  rw [ready.off.delay] at waited
  exact ⟨b, by rw [ha, ok_bind, hb], ready.trans waited⟩

/-- `op_stop(1)` completes when it is granted the answers of its actions after `k` low samples. -/
theorem opStop_granted {s : State} {k : Nat} {ts : List Token}
    (h : s.env.Grants (stopWaitTokens s.delay s.timeout k ++ ts)) :
    ∃ t, opStop true s = .ok (.ack, t) ∧ BusRun s t (stopWaitTokens s.delay s.timeout k) := by
  rw [stopWaitTokens_eq, List.append_assoc] at h
  obtain ⟨a, ha, waited⟩ := stopWait_granted h
  have ga := waited.grants h
  rw [← waited.off.delay] at ga
  obtain ⟨t, ht, closed⟩ := stopClose_granted ga
  rw [waited.off.delay] at closed
  refine ⟨t, ?_, stopWaitTokens_eq .. ▸ waited.trans closed⟩
  rw [opStop_stretch_eq, ha, ok_bind, if_pos rfl, ht, ok_bind]

/-- `op_stop(1)` times out when it is granted the answers of those actions. -/
theorem opStop_granted_timeout {s : State} {k : Nat} {ts : List Token}
    (h : s.env.Grants (stopExpiredTokens s.delay s.timeout k ++ ts)) :
    ∃ t, opStop true s = .ok (.timedOut, t) ∧ BusRun s t (stopExpiredTokens s.delay s.timeout k) := by
  rw [stopExpiredTokens_eq] at h ⊢
  obtain ⟨a, ha, waited⟩ := stopWait_granted h
  exact ⟨a, by rw [opStop_stretch_eq, ha]; rfl, waited⟩

/-! ### What a STOP leaves of the data path -/

theorem stopOpen_bitcnt {s t : State} (h : stopOpen s = .ok t) : t.bitcnt = s.bitcnt := by
  simp only [stopOpen, bind_ok, Except.ok.injEq] at h
  obtain ⟨a, ha, b, hb, rfl⟩ := h
  obtain ⟨-, -, -, first⟩ := bitDelay_run ha
  obtain ⟨-, -, -, second⟩ := bitDelay_run hb
  exact second.trans first

theorem stopClose_bitcnt {s t : State} (h : stopClose s = .ok t) : t.bitcnt = s.bitcnt := by
  simp only [stopClose, bind_ok] at h
  obtain ⟨a, ha, hb⟩ := h
  obtain ⟨-, -, -, first⟩ := bitDelay_run ha
  obtain ⟨-, -, -, second⟩ := bitDelay_run hb
  exact second.trans first

/-- A STOP that waits and completes writes neither `SR` nor `BITCNT` (R94). -/
theorem opStop_data {s t : State} (h : opStop true s = .ok (.ack, t)) : t.sr = s.sr ∧ t.bitcnt = s.bitcnt := by
  simp only [opStop_stretch_eq, bind_ok] at h
  obtain ⟨⟨risen, b⟩, ⟨a, ha, hb⟩, hc⟩ := h
  obtain ⟨low, -, -, kept⟩ := waitSclHigh_run hb
  cases risen with
  | false => cases hc
  | true =>
    obtain ⟨c, closed, hc⟩ := bind_ok.mp hc
    cases hc
    obtain ⟨sr, bitcnt, -⟩ := kept rfl
    constructor
    · calc t.sr = b.sr := (stopClose_run closed).2
        _ = a.sr := sr
        _ = s.sr := (stopOpen_run ha).2
    · calc t.bitcnt = b.bitcnt := stopClose_bitcnt closed
        _ = a.bitcnt := bitcnt
        _ = (tgStart .gp s).bitcnt := stopOpen_bitcnt ha

/-! ### How a bus primitive has ended -/

@[simp] theorem respond_wires (w : RespWord) (s : State) : (respond w s).wires = s.wires := rfl

theorem BusRun.ends {s u : State} {ts : List Token} (run : BusRun s u ts) (w : RespWord) : Ends s (respond w u) ts w :=
  ⟨run.trace, run.wires, run.env, rfl, rfl⟩

/-- A command that ends as its operation does. -/
theorem finish_status_ok {op : State → Except Fault (Status × State)} {s u : State} {r : Status}
    (h : op s = .ok (r, u)) :
    finish (op s >>= fun p => .ok (respond (respStatus p.1) p.2)) = .next (respond (respStatus r) u) :=
  finish_status_next.mpr ⟨r, u, h, rfl⟩

/-! ### The answers of a STOP, and the shapes its actions have -/

/-- The answers of `k` low clock samples that are not the last, at each input. -/
@[simp] def stretchAnswers (k : Nat) : Input → List Bool
  | .scl => List.replicate k false
  | .gp => List.replicate k false
  | .sda => []
  | .go => []
  | .delay => []

@[simp] theorem answers_stretchTokens (k : Nat) (i : Input) : answers (stretchTokens k) i = stretchAnswers k i := by
  induction k with
  | zero => cases i <;> rfl
  | succ k ih => cases i <;> simp [stretchTokens, ih, List.replicate_succ]

theorem stopWaitTokens_shape (d t : Duration) (k : Nat) : StopShape d t .ack (stopWaitTokens d t k) := by
  simpa [stopWaitTokens] using StopShape.complete (d := d) (t := t) (stretchTokens_low k)

theorem stopExpiredTokens_shape (d t : Duration) (k : Nat) : StopShape d t .timedOut (stopExpiredTokens d t k) := by
  simpa [stopExpiredTokens, waitEnd] using StopShape.expired (d := d) (t := t) (stretchTokens_low k)

theorem grants_stopTokens {e : Env} (delays : e.delayDone.Begins (List.replicate 4 true)) (d : Duration) :
    e.Grants (stopTokens d) := by
  intro i
  cases i with
  | delay => exact delays
  | _ => exact begins_nil _

theorem grants_stopWaitTokens {e : Env} {k : Nat} (delays : e.delayDone.Begins (List.replicate 4 true))
    (scl : e.scl.Begins (List.replicate k false ++ [true])) (gp : e.gp.Begins (List.replicate k false))
    (d t : Duration) : e.Grants (stopWaitTokens d t k) := by
  intro i
  cases i with
  | delay => simpa [stopWaitTokens] using delays
  | scl => simpa [stopWaitTokens] using scl
  | gp => simpa [stopWaitTokens] using gp
  | _ => simp [stopWaitTokens]

theorem grants_stopExpiredTokens {e : Env} {k : Nat} (delays : e.delayDone.Begins (List.replicate 6 true))
    (scl : e.scl.Begins (List.replicate (k + 1) false)) (gp : e.gp.Begins (List.replicate k false ++ [true]))
    (d t : Duration) : e.Grants (stopExpiredTokens d t k) := by
  intro i
  cases i with
  | delay => simpa [stopExpiredTokens, stopTokens] using delays
  | scl => simpa [stopExpiredTokens, stopTokens, List.replicate_succ'] using scl
  | gp => simpa [stopExpiredTokens, stopTokens] using gp
  | _ => simp [stopExpiredTokens, stopTokens]

/-- Settles O27: the environment grants the actions of the STOP, with or without the wait. -/
theorem stopCompletes : Obligations.StopCompletes := by
  constructor
  · intro s delays
    obtain ⟨u, ends, run⟩ := opStopForced_granted (grants_stopTokens delays s.delay).append_nil
    obtain ⟨-, sr, bitcnt⟩ := opStopForced_run ends
    have stopped : opStop false s = .ok (.ack, u) := by simp [opStop, ends]
    exact ⟨_, finish_status_ok stopped, run.ends _, run.off.respond _, run.wires, sr, bitcnt⟩
  · intro s k delays scl gp
    obtain ⟨u, stopped, run⟩ := opStop_granted (grants_stopWaitTokens delays scl gp s.delay s.timeout).append_nil
    obtain ⟨sr, bitcnt⟩ := opStop_data stopped
    have released := run.wires.trans ((stopWaitTokens_shape s.delay s.timeout k).run _)
    exact ⟨_, finish_status_ok stopped, run.ends _, run.off.respond _, released, sr, bitcnt⟩

/-- Settles O28: the environment grants the actions of the STOP that expires. -/
theorem stopTimesOut : Obligations.StopTimesOut := by
  intro s k delays scl gp
  obtain ⟨u, stopped, run⟩ := opStop_granted_timeout
    (grants_stopExpiredTokens delays scl gp s.delay s.timeout).append_nil
  have released := run.wires.trans ((stopExpiredTokens_shape s.delay s.timeout k).run _)
  exact ⟨_, finish_status_ok stopped, run.ends _, run.off.respond _, released⟩

end Sys2Proof.Machine

/-! ## Byte writes that are granted their answers (R120 to R122) -/

namespace Sys2Proof.Machine

/-! ### The data pulses -/

/-- One data pulse, up to the guard's answer. -/
theorem writeBits_pulse {n : Nat} {s : State} {expired : Bool} {ts : List Token}
    (h : s.env.Grants (writePulse s.delay expired (s.sr.getLsbD n) ++ ts)) :
    ∃ a, BusRun s a (writePulse s.delay expired (s.sr.getLsbD n)) ∧ a.sr = s.sr ∧
      writeBits (n + 1) s = if expired then (abort a >>= fun u => .ok (false, u)) else writeBits n a := by
  have low := (busRun_dataPath s s.sr (BitVec.ofNat 4 (n + 1)) s.draws).trans (busRun_sclLow _)
  have driven := low.trans (busRun_sdaBit (s.sr.getLsbD n) _)
  obtain ⟨a, ha, ga⟩ := bitDelay_granted (driven.grants h)
  obtain ⟨b, hb, gb⟩ := bitDelay_granted ((busRun_sclRelease a).grants ga)
  have answered : b.env.gp.head = expired := gb.tgQuery
  obtain ⟨-, first, sr, -⟩ := bitDelay_run ha
  obtain ⟨-, second, sr', -⟩ := bitDelay_run hb
  have run := ((driven.trans first).trans ((busRun_sclRelease a).trans second)).trans (busRun_tgExpired .gp b)
  rw [driven.off.delay, sclRelease_delay, (driven.trans first).off.delay, guard_gp, answered] at run
  refine ⟨_, run, ?_, by rw [writeBits_succ, ha, ok_bind, hb, ok_bind, answered]⟩
  calc b.sr = a.sr := sr'
    _ = _ := sr
    _ = s.sr := by cases s.sr.getLsbD n <;> rfl

theorem bitsMsb_eq_lowBits (data : Byte) {n : Nat} (all : n = 8) : bitsMsb data = lowBits data n := by
  rw [all, lowBits_eight]

/-- The first `m` of `n + m` data pulses. -/
theorem writeBits_pulses {n m : Nat} {s : State} {ts : List Token}
    (h : s.env.Grants (((lowBits s.sr (n + m)).take m).flatMap (writePulse s.delay false) ++ ts)) :
    ∃ a, BusRun s a (((lowBits s.sr (n + m)).take m).flatMap (writePulse s.delay false)) ∧ a.sr = s.sr ∧
      writeBits (n + m) s = writeBits n a := by
  induction m generalizing s with
  | zero => exact ⟨s, .refl s, rfl, rfl⟩
  | succ m ih =>
    have bits : (lowBits s.sr (n + (m + 1))).take (m + 1) = s.sr.getLsbD (n + m) :: (lowBits s.sr (n + m)).take m := rfl
    rw [bits, List.flatMap_cons, List.append_assoc] at h
    obtain ⟨a, pulse, sr, goes⟩ := writeBits_pulse h
    have ga := pulse.grants h
    rw [← pulse.off.delay, ← sr] at ga
    obtain ⟨b, rest, sr', goes'⟩ := ih ga
    rw [pulse.off.delay, sr] at rest
    refine ⟨b, ?_, sr'.trans sr, goes.trans goes'⟩
    rw [bits, List.flatMap_cons]
    exact pulse.trans rest

/-! ### op_write up to its acknowledge pulse -/

/-- The guard is started and the first `m` bits of the byte are sent (R120). -/
def writeOpening (d t : Duration) (data : Byte) (m : Nat) : List Token :=
  .tgStart .gp t :: ((bitsMsb data).take m).flatMap (writePulse d false)

theorem opWrite_opens {data : Byte} {s : State} (n : Nat) {m : Nat} {ts : List Token} (all : n + m = 8)
    (h : s.env.Grants (writeOpening s.delay s.timeout data m ++ ts)) :
    ∃ a, BusRun s a (writeOpening s.delay s.timeout data m) ∧ a.sr = data ∧
      opWrite data s = (writeBits n a >>= fun p => if p.1 then writeAck p.2 else .ok (.timedOut, p.2)) := by
  have started := (busRun_tgStart .gp s).trans
    (busRun_dataPath (tgStart .gp s) data (tgStart .gp s).bitcnt (tgStart .gp s).draws)
  rw [writeOpening, bitsMsb_eq_lowBits data all] at h ⊢
  obtain ⟨a, pulses, sr, goes⟩ := writeBits_pulses (started.grants h)
  exact ⟨a, started.trans pulses, sr, by rw [opWrite_eq, ← goes, all]⟩

/-! ### The acknowledge pulse -/

/-- The acknowledge pulse up to its clock wait (R120). -/
def ackOpening (d : Duration) : List Token := [.sclLow, .sdaRelease, .delay d, .sclRelease]

theorem writeAck_waits {risen : Bool} {s : State} {k : Nat} {ts : List Token}
    (h : s.env.Grants (ackOpening s.delay ++ (stretchTokens k ++ waitEnd risen s.delay) ++ ts)) :
    ∃ a, BusRun s a (ackOpening s.delay ++ (stretchTokens k ++ waitEnd risen s.delay)) ∧
      writeAck s = if risen then .ok (if a.env.sda.head then .nack else .ack, sclLow (readSda a).2)
        else .ok (.timedOut, a) := by
  rw [List.append_assoc, List.append_assoc] at h
  have released := (busRun_sclLow s).trans (busRun_sdaRelease _)
  obtain ⟨a, ha, -⟩ := bitDelay_granted (released.grants h)
  obtain ⟨-, delayed, -⟩ := bitDelay_run ha
  have opened := (released.trans delayed).trans (busRun_sclRelease a)
  have ga := opened.grants h
  rw [← opened.off.delay] at ga
  obtain ⟨b, hb, waited⟩ := waitSclHigh_granted k ga
  rw [opened.off.delay] at waited
  exact ⟨b, opened.trans waited, by rw [writeAck_eq, ha, ok_bind, hb, ok_bind]⟩

/-! ### op_write -/

theorem writeTokens_eq (d t : Duration) (data : Byte) (nack : Bool) (k : Nat) :
    writeTokens d t data nack k = writeOpening d t data 8 ++
      (ackOpening d ++ (stretchTokens k ++ waitEnd true d) ++ [.readSda nack, .sclLow]) := by
  simp [writeTokens, writeOpening, ackOpening, waitEnd, bitsMsb]

theorem writeAckExpiredTokens_eq (d t : Duration) (data : Byte) (k : Nat) :
    writeAckExpiredTokens d t data k =
      writeOpening d t data 8 ++ (ackOpening d ++ (stretchTokens k ++ waitEnd false d)) := by
  simp [writeAckExpiredTokens, writeOpening, ackOpening, waitEnd, bitsMsb]

theorem drop_lowBits (sr : Byte) (n m : Nat) : (lowBits sr (n + m)).drop m = lowBits sr n := by
  induction m with
  | zero => rfl
  | succ m ih => exact ih

/-- The bits that are left after the first `i`: the next is bit `n`. -/
theorem drop_bitsMsb (data : Byte) {n i : Nat} (all : n + 1 + i = 8) :
    (bitsMsb data).drop i = data.getLsbD n :: lowBits data n := by
  rw [bitsMsb_eq_lowBits data all, drop_lowBits, lowBits]

theorem writeExpiredTokens_eq (d t : Duration) (data : Byte) {n i : Nat} (all : n + 1 + i = 8) :
    writeExpiredTokens d t data i =
      writeOpening d t data i ++ (writePulse d true (data.getLsbD n) ++ stopTokens d) := by
  simp [writeExpiredTokens, writeOpening, drop_bitsMsb data all]

/-- All eight bits are sent; `op_write` goes on with its acknowledge pulse. -/
theorem opWrite_sends {data : Byte} {s : State} {ts : List Token}
    (h : s.env.Grants (writeOpening s.delay s.timeout data 8 ++ ts)) :
    ∃ a, BusRun s a (writeOpening s.delay s.timeout data 8) ∧ opWrite data s = writeAck a := by
  obtain ⟨a, opened, -, goes⟩ := opWrite_opens 0 rfl h
  exact ⟨_, by simpa using opened.trans (busRun_dataPath a a.sr 0 a.draws), goes⟩

/-- A byte write that is granted the answers of its nine pulses, with `k` low samples in the last. -/
theorem opWrite_granted {data : Byte} {s : State} {nack : Bool} {k : Nat} {ts : List Token}
    (h : s.env.Grants (writeTokens s.delay s.timeout data nack k ++ ts)) :
    ∃ t, opWrite data s = .ok (if nack then .nack else .ack, t) ∧
      BusRun s t (writeTokens s.delay s.timeout data nack k) := by
  rw [writeTokens_eq] at h ⊢
  rw [List.append_assoc, List.append_assoc] at h
  obtain ⟨a, opened, goes⟩ := opWrite_sends h
  have ga := opened.grants h
  rw [← opened.off.delay] at ga
  obtain ⟨b, waited, acknowledges⟩ := writeAck_waits ga
  have sampled : b.env.sda.head = nack := (waited.grants ga).readSda
  have finished := waited.trans ((busRun_readSda b).trans (busRun_sclLow _))
  rw [sampled, opened.off.delay] at finished
  exact ⟨_, by rw [goes, acknowledges, if_pos rfl, sampled], opened.trans finished⟩

/-- A byte write that is granted the answers of its pulses up to a timeout in the acknowledge pulse. -/
theorem opWrite_granted_ackTimeout {data : Byte} {s : State} {k : Nat} {ts : List Token}
    (h : s.env.Grants (writeAckExpiredTokens s.delay s.timeout data k ++ ts)) :
    ∃ t, opWrite data s = .ok (.timedOut, t) ∧ BusRun s t (writeAckExpiredTokens s.delay s.timeout data k) := by
  rw [writeAckExpiredTokens_eq] at h ⊢
  rw [List.append_assoc] at h
  obtain ⟨a, opened, goes⟩ := opWrite_sends h
  have ga := opened.grants h
  rw [← opened.off.delay] at ga
  obtain ⟨t, waited, times⟩ := writeAck_waits ga
  rw [opened.off.delay] at waited
  exact ⟨t, goes.trans times, opened.trans waited⟩

/-- A byte write that is granted the answers of its pulses up to a timeout after data pulse `i`. -/
theorem opWrite_granted_pulseTimeout {data : Byte} {s : State} {i : Nat} (hi : i < 8) {ts : List Token}
    (h : s.env.Grants (writeExpiredTokens s.delay s.timeout data i ++ ts)) :
    ∃ t, opWrite data s = .ok (.timedOut, t) ∧ BusRun s t (writeExpiredTokens s.delay s.timeout data i) := by
  obtain ⟨n, all⟩ : ∃ n, n + 1 + i = 8 := ⟨7 - i, by omega⟩
  rw [writeExpiredTokens_eq _ _ _ all] at h ⊢
  rw [List.append_assoc, List.append_assoc] at h
  obtain ⟨a, opened, sr, goes⟩ := opWrite_opens (n + 1) all h
  have ga := opened.grants h
  rw [← opened.off.delay, ← sr] at ga
  obtain ⟨b, pulse, -, expires⟩ := writeBits_pulse ga
  have gb := pulse.grants ga
  rw [← pulse.off.delay] at gb
  obtain ⟨t, ht, aborted⟩ := abort_granted gb
  have last := pulse.trans aborted
  rw [pulse.off.delay, sr, opened.off.delay] at last
  exact ⟨t, by rw [goes, expires, if_pos rfl, ht]; rfl, opened.trans last⟩

/-- A byte write that is granted the answers of its pulses up to a timeout in pulse `i` (R121, R199). -/
theorem opWrite_granted_timeout {data : Byte} {s : State} {i k : Nat} {ts : List Token}
    (h : s.env.Grants (writeTimeoutTokens s.delay s.timeout data i k ++ ts)) :
    ∃ t, opWrite data s = .ok (.timedOut, t) ∧ BusRun s t (writeTimeoutTokens s.delay s.timeout data i k) := by
  unfold writeTimeoutTokens at h ⊢
  split at h
  next hi =>
    rw [if_pos hi]
    exact opWrite_granted_pulseTimeout hi h
  next hi =>
    rw [if_neg hi]
    exact opWrite_granted_ackTimeout h

/-! ### The shapes and the answers of these actions -/

theorem writeTokens_shape (d t : Duration) (data : Byte) (nack : Bool) (k : Nat) :
    WriteShape d t data (if nack then .nack else .ack) (writeTokens d t data nack k) := by
  simpa [writeTokens] using WriteShape.complete (d := d) (t := t) (data := data) nack (stretchTokens_low k)

/-- The answers of an `op_write` that ends with an acknowledge sample, at each input. -/
@[simp] def writeAnswers (nack : Bool) (k : Nat) : Input → List Bool
  | .scl => List.replicate k false ++ [true]
  | .sda => [nack]
  | .gp => List.replicate (8 + k) false
  | .go => []
  | .delay => List.replicate 17 true

theorem answers_writeTokens (d t : Duration) (data : Byte) (nack : Bool) (k : Nat) (i : Input) :
    answers (writeTokens d t data nack k) i = writeAnswers nack k i := by
  cases i <;> simp [writeTokens, bitsMsb, writePulse, List.replicate_add]

/-- The answers of data pulses whose guard has not expired, at each input. -/
@[simp] def pulseAnswers (n : Nat) : Input → List Bool
  | .gp => List.replicate n false
  | .delay => List.replicate (2 * n) true
  | .scl => []
  | .sda => []
  | .go => []

theorem answers_writePulses (d : Duration) (bits : List Bool) (i : Input) :
    answers (bits.flatMap (writePulse d false)) i = pulseAnswers bits.length i := by
  induction bits with
  | nil => cases i <;> rfl
  | cons b bits ih => cases i <;> simp [writePulse, ih, List.replicate_succ, Nat.mul_succ]

/-- The answers of an `op_write` that times out in pulse `i`, at each input. -/
@[simp] def writeTimeoutAnswers (i k : Nat) : Input → List Bool
  | .scl => writeTimeoutScl i k
  | .sda => []
  | .gp => writeTimeoutGp i k
  | .go => []
  | .delay => List.replicate (if i < 8 then 2 * i + 6 else 21) true

theorem answers_writeTimeoutTokens (d t : Duration) (data : Byte) (i k : Nat) (input : Input) :
    answers (writeTimeoutTokens d t data i k) input = writeTimeoutAnswers i k input := by
  unfold writeTimeoutTokens
  split
  next hi =>
    obtain ⟨n, all⟩ : ∃ n, n + 1 + i = 8 := ⟨7 - i, by omega⟩
    have length : ((bitsMsb data).take i).length = i := by simp [bitsMsb]; omega
    rw [writeExpiredTokens_eq d t data all, writeOpening]
    cases input <;>
      simp [answers_writePulses, length, writePulse, stopTokens, writeTimeoutScl, writeTimeoutGp, hi,
        List.replicate_add]
  next hi =>
    cases input <;>
      simp [writeAckExpiredTokens, bitsMsb, writePulse, stopTokens, writeTimeoutScl, writeTimeoutGp, hi,
        List.replicate_add, List.replicate_succ']

end Sys2Proof.Machine

/-! ## START and REPEATED-START that are granted their answers (R95 to R98, R101, R102) -/

namespace Sys2Proof.Machine

/-- The opening of `op_start`, after which it is `op_write` (R95). -/
theorem opStart_opens {s : State} {ts : List Token} (h : s.env.Grants (startTokens s.delay ++ ts)) :
    ∃ a, BusRun s a (startTokens s.delay) ∧ ∀ raw, opStart raw s = opWrite raw a := by
  have fallen := busRun_sdaLow s
  obtain ⟨a, ha, ga⟩ := bitDelay_granted (fallen.grants h)
  obtain ⟨b, hb, -⟩ := bitDelay_granted ((busRun_sclLow a).grants ga)
  have first := fallen.trans (bitDelay_run ha).2.1
  have second := (busRun_sclLow a).trans (bitDelay_run hb).2.1
  rw [sclLow_delay, first.off.delay] at second
  exact ⟨b, first.trans second, fun raw => by rw [opStart, ha, ok_bind, hb, ok_bind]⟩

/-- The opening of `op_rstart`, after which it is `op_write` (R97). -/
theorem opRstart_opens {s : State} {ts : List Token} (h : s.env.Grants (rstartTokens s.delay ++ ts)) :
    ∃ a, BusRun s a (rstartTokens s.delay) ∧ ∀ raw, opRstart raw s = opWrite raw a := by
  have released := busRun_sdaRelease s
  obtain ⟨a, ha, ga⟩ := bitDelay_granted (released.grants h)
  obtain ⟨b, hb, gb⟩ := bitDelay_granted ((busRun_sclRelease a).grants ga)
  obtain ⟨c, hc, -⟩ := bitDelay_granted ((busRun_sdaLow b).grants gb)
  have first := released.trans (bitDelay_run ha).2.1
  have second := (busRun_sclRelease a).trans (bitDelay_run hb).2.1
  rw [sclRelease_delay, first.off.delay] at second
  have both := first.trans second
  have third := (busRun_sdaLow b).trans (bitDelay_run hc).2.1
  rw [sdaLow_delay, both.off.delay] at third
  exact ⟨c, both.trans third, fun raw => by rw [opRstart, ha, ok_bind, hb, ok_bind, hc, ok_bind]⟩

/-- A byte write after an opening that leaves the durations alone. -/
theorem opWrite_after {raw : Byte} {s a : State} {opening : List Token} {nack : Bool} {k : Nat} {ts : List Token}
    (opened : BusRun s a opening)
    (h : s.env.Grants (opening ++ (writeTokens s.delay s.timeout raw nack k ++ ts))) :
    ∃ t, opWrite raw a = .ok (if nack then .nack else .ack, t) ∧
      BusRun s t (opening ++ writeTokens s.delay s.timeout raw nack k) := by
  have ga := opened.grants h
  rw [← opened.off.delay, ← opened.off.timeout] at ga
  obtain ⟨t, ht, written⟩ := opWrite_granted ga
  rw [opened.off.delay, opened.off.timeout] at written
  exact ⟨t, ht, opened.trans written⟩

theorem opStart_granted {raw : Byte} {s : State} {nack : Bool} {k : Nat} {ts : List Token}
    (h : s.env.Grants (startTokens s.delay ++ writeTokens s.delay s.timeout raw nack k ++ ts)) :
    ∃ t, opStart raw s = .ok (if nack then .nack else .ack, t) ∧
      BusRun s t (startTokens s.delay ++ writeTokens s.delay s.timeout raw nack k) := by
  rw [List.append_assoc] at h
  obtain ⟨a, opened, goes⟩ := opStart_opens h
  rw [goes]
  exact opWrite_after opened h

theorem opRstart_granted {raw : Byte} {s : State} {nack : Bool} {k : Nat} {ts : List Token}
    (h : s.env.Grants (rstartTokens s.delay ++ writeTokens s.delay s.timeout raw nack k ++ ts)) :
    ∃ t, opRstart raw s = .ok (if nack then .nack else .ack, t) ∧
      BusRun s t (rstartTokens s.delay ++ writeTokens s.delay s.timeout raw nack k) := by
  rw [List.append_assoc] at h
  obtain ⟨a, opened, goes⟩ := opRstart_opens h
  rw [goes]
  exact opWrite_after opened h

/-- A START whose byte write times out in pulse `i`. -/
theorem opStart_granted_timeout {raw : Byte} {s : State} {i k : Nat} {ts : List Token}
    (h : s.env.Grants (startTokens s.delay ++ writeTimeoutTokens s.delay s.timeout raw i k ++ ts)) :
    ∃ t, opStart raw s = .ok (.timedOut, t) ∧
      BusRun s t (startTokens s.delay ++ writeTimeoutTokens s.delay s.timeout raw i k) := by
  rw [List.append_assoc] at h
  obtain ⟨a, opened, goes⟩ := opStart_opens h
  have ga := opened.grants h
  rw [← opened.off.delay, ← opened.off.timeout] at ga
  obtain ⟨t, ht, written⟩ := opWrite_granted_timeout ga
  rw [opened.off.delay, opened.off.timeout] at written
  exact ⟨t, (goes raw).trans ht, opened.trans written⟩

/-! ### The commands -/

/-- An address form is the raw form of its byte (R65). -/
theorem exec_start_form {i : Instr} {raw : Byte} (h : i = .startRaw raw ∨ i = .start (rawAddr raw) (rawMode raw))
    (s : State) : exec i s = exec (.startRaw raw) s := by
  rcases h with rfl | rfl
  · rfl
  · rw [(addressFormsAreTheRawForms _ _ s).1, rawByte_rawAddr_rawMode]

theorem exec_rstart_form {i : Instr} {raw : Byte} (h : i = .rstartRaw raw ∨ i = .rstart (rawAddr raw) (rawMode raw))
    (s : State) : exec i s = exec (.rstartRaw raw) s := by
  rcases h with rfl | rfl
  · rfl
  · rw [(addressFormsAreTheRawForms _ _ s).2.1, rawByte_rawAddr_rawMode]

theorem exec_startw_form {i : Instr} {raw : Byte} (h : i = .startwRaw raw ∨ i = .startw (rawAddr raw) (rawMode raw))
    (s : State) : exec i s = exec (.startwRaw raw) s := by
  rcases h with rfl | rfl
  · rfl
  · rw [(addressFormsAreTheRawForms _ _ s).2.2, rawByte_rawAddr_rawMode]

theorem answers_startTokens (d : Duration) (i : Input) :
    answers (startTokens d) i = if i = .delay then List.replicate 2 true else [] := by
  cases i <;> rfl

theorem answers_rstartTokens (d : Duration) (i : Input) :
    answers (rstartTokens d) i = if i = .delay then List.replicate 3 true else [] := by
  cases i <;> rfl

/-- The answers a byte write needs after `n` delays of an opening. -/
theorem grants_opening_writeTokens {e : Env} {opening : List Token} {n : Nat} {nack : Bool} {k : Nat}
    (opens : ∀ i, answers opening i = if i = .delay then List.replicate n true else [])
    (delays : e.delayDone.Begins (List.replicate (n + 17) true)) (gp : e.gp.Begins (List.replicate (8 + k) false))
    (scl : e.scl.Begins (List.replicate k false ++ [true])) (sda : e.sda.Begins [nack])
    (d t : Duration) (raw : Byte) : e.Grants (opening ++ writeTokens d t raw nack k) := by
  intro i
  rw [answers_append, answers_writeTokens, opens]
  cases i with
  | scl => exact scl
  | sda => exact sda
  | gp => exact gp
  | go => exact begins_nil _
  | delay => rwa [List.replicate_add] at delays

theorem respStatus_acknowledge (nack : Bool) :
    respStatus (if nack then .nack else .ack) = if nack then 0x0100 else 0x0000 := by
  cases nack <;> rfl

theorem acknowledge_ne_timedOut (nack : Bool) : (if nack then Status.nack else .ack) ≠ .timedOut := by
  cases nack <;> simp

/-- The latches a byte write leaves when it is not timed out, whatever they were (R122). -/
theorem run_writeTokens (w : Wires) (d t : Duration) (data : Byte) (nack : Bool) (k : Nat) :
    w.run (writeTokens d t data nack k) = ⟨.rel, .low⟩ := by
  rw [(writeTokens_shape d t data nack k).run, if_neg (acknowledge_ne_timedOut nack)]

/-- The end of a command that opens a byte write and sees it acknowledged or not (R96, R98). -/
theorem acknowledged_ends {op : State → Except Fault (Status × State)} {opening : List Token} {s u : State}
    {raw : Byte} {nack : Bool} {k : Nat} (ends : op s = .ok (if nack then .nack else .ack, u))
    (run : BusRun s u (opening ++ writeTokens s.delay s.timeout raw nack k)) (sr : u.sr = raw)
    (bitcnt : u.bitcnt = 0) :
    ∃ t, finish (op s >>= fun p => .ok (respond (respStatus p.1) p.2)) = .next t ∧
      Ends s t (opening ++ writeTokens s.delay s.timeout raw nack k) (if nack then 0x0100 else 0x0000) ∧
      SameOffBus s t ∧ t.sr = raw ∧ t.bitcnt = 0 ∧ t.wires = ⟨.rel, .low⟩ := by
  rw [← respStatus_acknowledge]
  refine ⟨_, finish_status_ok ends, run.ends _, run.off.respond _, sr, bitcnt, ?_⟩
  rw [respond_wires, run.wires, run_append, run_writeTokens]

/-- Settles O37: the environment grants the actions of the START and its byte write. -/
theorem startCompletes : Obligations.StartCompletes := by
  intro s raw nack k delays gp scl sda i hi
  obtain ⟨u, started, run⟩ := opStart_granted (grants_opening_writeTokens (answers_startTokens s.delay) delays
    gp scl sda s.delay s.timeout raw).append_nil
  obtain ⟨-, -, -, data⟩ := opStart_run started
  obtain ⟨sr, bitcnt⟩ := data (acknowledge_ne_timedOut nack)
  rw [exec_start_form hi]
  exact acknowledged_ends (op := opStart raw) started run sr bitcnt

/-- Settles O38 in the same way, after the opening of REPEATED-START. -/
theorem repeatedStartCompletes : Obligations.RepeatedStartCompletes := by
  intro s raw nack k delays gp scl sda i hi
  obtain ⟨u, started, run⟩ := opRstart_granted (grants_opening_writeTokens (answers_rstartTokens s.delay) delays
    gp scl sda s.delay s.timeout raw).append_nil
  obtain ⟨-, -, -, data⟩ := opRstart_run started
  obtain ⟨sr, bitcnt⟩ := data (acknowledge_ne_timedOut nack)
  rw [exec_rstart_form hi]
  exact acknowledged_ends (op := opRstart raw) started run sr bitcnt

end Sys2Proof.Machine

/-! ## START-with-wait has no bound of its own on its attempts (R99, assumption 1) -/

namespace Sys2Proof.Machine

/-! ### Attempts that are not acknowledged -/

/-- An attempt is made from `s`, it is not acknowledged, and its STOP ends in `t` (R99). -/
def Refused (raw : Byte) (s t : State) : Prop :=
  s.env.go.head = false ∧
    ∃ a r, opStart raw (tgExpired .go s).2 = .ok (.nack, a) ∧ opStop true a = .ok (r, t)

/-- An attempt is made while GO has not expired. -/
theorem startWaitLoop_attempt {s : State} (running : s.env.go.head = false) (raw : Byte) (n : Nat) :
    startWaitLoop raw (n + 1) s = (opStart raw (tgExpired .go s).2 >>= fun p =>
      match p.1 with
      | .ack => .ok (.ack, p.2)
      | .nack => opStop true p.2 >>= fun q => startWaitLoop raw n q.2
      | .timedOut => opStop true p.2 >>= fun q => .ok (.timedOut, q.2)) := by
  rw [startWaitLoop_succ, running]
  rfl

theorem Refused.retries {raw : Byte} {s t : State} (h : Refused raw s t) (n : Nat) :
    startWaitLoop raw (n + 1) s = startWaitLoop raw n t := by
  obtain ⟨running, a, r, started, stopped⟩ := h
  rw [startWaitLoop_attempt running, started, ok_bind]
  show (opStop true a >>= _) = _
  rw [stopped, ok_bind]

/-- The loop ends with its first attempt, however many are allowed, or that attempt is refused and it goes on. -/
theorem startWaitLoop_ends_or_retries {raw : Byte} {n : Nat} {s : State} {r : Status × State}
    (h : startWaitLoop raw (n + 1) s = .ok r) :
    (∀ m, startWaitLoop raw (m + 1) s = .ok r) ∨ ∃ t, Refused raw s t ∧ startWaitLoop raw n t = .ok r := by
  cases running : s.env.go.head with
  | true =>
    left
    intro m
    rw [startWaitLoop_succ, running] at h ⊢
    exact h
  | false =>
    rw [startWaitLoop_attempt running] at h
    obtain ⟨⟨status, a⟩, started, h⟩ := bind_ok.mp h
    cases status with
    | nack =>
      obtain ⟨⟨result, t⟩, stopped, h⟩ := bind_ok.mp h
      exact .inr ⟨t, ⟨running, a, result, started, stopped⟩, h⟩
    | _ =>
      left
      intro m
      rw [startWaitLoop_attempt running, started]
      exact h

theorem startWaitLoop_mono {raw : Byte} {n m : Nat} {s : State} {r : Status × State}
    (h : startWaitLoop raw n s = .ok r) (le : n ≤ m) : startWaitLoop raw m s = .ok r := by
  induction n generalizing s m with
  | zero => cases h
  | succ n ih =>
    obtain ⟨m, rfl⟩ := Nat.exists_eq_add_of_lt le
    rcases startWaitLoop_ends_or_retries h with ends | ⟨t, refused, h⟩
    · exact ends _
    · rw [refused.retries]
      exact ih h (by omega)

/-! ### Every attempt takes an answer at each input -/

theorem WriteShape.asks {d t : Duration} {raw : Byte} {ts : List Token} (h : WriteShape d t raw .nack ts) (i : Input) :
    i = .go ∨ answers ts i ≠ [] := by
  generalize hr : Status.nack = r at h
  cases h with
  | complete nack hl => cases i <;> simp [bitsMsb, writePulse]
  | inData _ => cases hr
  | inAck _ => cases hr

/-- After a refused attempt each input has fewer answers pending, if it had any. -/
theorem Refused.takes_answers {raw : Byte} {s t : State} (h : Refused raw s t) (i : Input) :
    (t.env.input i).pending.length ≤ (s.env.input i).pending.length - 1 := by
  obtain ⟨running, a, r, started, stopped⟩ := h
  obtain ⟨ts, written, start, -⟩ := opStart_run started
  obtain ⟨us, -, stop⟩ := opStop_shape stopped
  have asked := busRun_asked (g := .go) running
  have run := (asked.trans start).trans stop
  rw [run.env, foldl_consume_input, drop_pending, List.length_drop]
  have taken : 0 < (answers ([.tgQuery .go false] ++ (startTokens (tgExpired .go s).2.delay ++ ts) ++ us) i).length := by
    rw [List.length_pos_iff]
    rcases written.asks i with rfl | asks
    · simp
    · simp [asks]
  omega

/-! ### A START under constant answers -/

theorem allAre_rest {a : Answers} (pending : a.pending = []) : a.AllAre a.rest := by
  simp [Answers.AllAre, pending]

theorem BusRun.allAre {s t : State} {ts : List Token} (run : BusRun s t ts) {i : Input} {b : Bool}
    (h : (s.env.input i).AllAre b) : (t.env.input i).AllAre b := by
  rw [run.env, foldl_consume_input]
  exact allAre_drop h _

/-- A clock that never rises stops a byte write in its acknowledge pulse when the guard never expires (U9). -/
theorem writeAck_stuck {s : State} (delays : s.env.delayDone.AllAre true) (gp : s.env.gp.AllAre false)
    (scl : s.env.scl.AllAre false) : writeAck s = .error .clockNeverRises := by
  obtain ⟨a, ha⟩ : ∃ a, bitDelay (sdaRelease (sclLow s)) = .ok a := ⟨_, bitDelay_done (allAre_head delays)⟩
  obtain ⟨-, delayed, -⟩ := bitDelay_run ha
  have stuck : waitSclHigh .gp (sclRelease a) = .error .clockNeverRises :=
    waitSclHigh_stuck (delayed.allAre (i := .scl) scl) (delayed.allAre (i := .gp) gp)
  rw [writeAck_eq, ha, ok_bind, stuck, error_bind]

theorem opWrite_stuck {s : State} (delays : s.env.delayDone.AllAre true) (gp : s.env.gp.AllAre false)
    (scl : s.env.scl.AllAre false) (data : Byte) : opWrite data s = .error .clockNeverRises := by
  have grants : s.env.Grants (writeOpening s.delay s.timeout data 8) := by
    intro i
    cases i with
    | delay => exact allAre_begins delays (by simp [writeOpening, answers_writePulses])
    | gp => exact allAre_begins gp (by simp [writeOpening, answers_writePulses])
    | _ => simp [writeOpening, answers_writePulses]
  obtain ⟨a, sent, goes⟩ := opWrite_sends grants.append_nil
  rw [goes]
  exact writeAck_stuck (sent.allAre (i := .delay) delays) (sent.allAre (i := .gp) gp) (sent.allAre (i := .scl) scl)

theorem grants_startTokens {e : Env} (delays : e.delayDone.AllAre true) (d : Duration) :
    e.Grants (startTokens d) := by
  intro i
  cases i with
  | delay => exact allAre_begins delays (by simp [startTokens])
  | _ => exact begins_nil _

theorem opStart_stuck {s : State} (delays : s.env.delayDone.AllAre true) (gp : s.env.gp.AllAre false)
    (scl : s.env.scl.AllAre false) (raw : Byte) : opStart raw s = .error .clockNeverRises := by
  obtain ⟨a, opened, goes⟩ := opStart_opens (grants_startTokens delays s.delay).append_nil
  rw [goes]
  exact opWrite_stuck (opened.allAre (i := .delay) delays) (opened.allAre (i := .gp) gp)
    (opened.allAre (i := .scl) scl) raw

/-- A guard that expires at once ends a START after its first data pulse. -/
theorem opStart_expires {s : State} (delays : s.env.delayDone.AllAre true) (gp : s.env.gp.AllAre true)
    (raw : Byte) : ∃ t, opStart raw s = .ok (.timedOut, t) := by
  have grants : s.env.Grants (startTokens s.delay ++ writeTimeoutTokens s.delay s.timeout raw 0 0) := by
    intro i
    rw [answers_append, answers_writeTimeoutTokens]
    cases i with
    | delay => exact allAre_begins delays (by simp [startTokens])
    | gp => exact allAre_begins gp (by simp [startTokens, writeTimeoutGp])
    | _ => exact begins_nil _
  obtain ⟨t, ht, -⟩ := opStart_granted_timeout grants.append_nil
  exact ⟨t, ht⟩

/-- A START whose byte write nothing disturbs is acknowledged or not as SDA is sampled. -/
theorem opStart_quiet {s : State} (quiet : s.env.Quiet) (raw : Byte) :
    ∃ t, opStart raw s = .ok (if s.env.sda.head then .nack else .ack, t) := by
  have grants : s.env.Grants (startTokens s.delay ++ writeTokens s.delay s.timeout raw s.env.sda.head 0) :=
    grants_opening_writeTokens (answers_startTokens s.delay)
      (allAre_begins quiet.delays (by simp)) (allAre_begins quiet.gp (by simp)) (allAre_begins quiet.scl (by simp))
      (by simp) _ _ _
  obtain ⟨t, ht, -⟩ := opStart_granted grants.append_nil
  exact ⟨t, ht⟩

/-- With no answers pending, an attempt is refused only by an environment that refuses every attempt: the bus is quiet,
no slave acknowledges and GO never expires. -/
theorem Refused.environment {raw : Byte} {s t : State} (h : Refused raw s t)
    (settled : ∀ i, (s.env.input i).pending = []) :
    s.env.Quiet ∧ s.env.sda.AllAre true ∧ s.env.go.AllAre false := by
  obtain ⟨running, a, r, started, -⟩ := h
  have delays : s.env.delayDone.AllAre true := by
    obtain ⟨_, first, -⟩ := bind_ok.mp started
    exact allAre_of_nil (settled .delay) (bitDelay_run first).1
  have gp : s.env.gp.AllAre false := by
    have constant := allAre_rest (settled .gp)
    cases value : (s.env.input .gp).rest with
    | false => exact value ▸ constant
    | true =>
      obtain ⟨_, expires⟩ := opStart_expires (s := (tgExpired .go s).2) delays (value ▸ constant) raw
      cases expires.symm.trans started
  have scl : s.env.scl.AllAre true := by
    have constant := allAre_rest (settled .scl)
    cases value : (s.env.input .scl).rest with
    | true => exact value ▸ constant
    | false =>
      have stuck := opStart_stuck (s := (tgExpired .go s).2) delays gp (value ▸ constant) raw
      cases stuck.symm.trans started
  have quiet : s.env.Quiet := ⟨scl, gp, delays⟩
  have sda : s.env.sda.AllAre true := by
    refine allAre_of_nil (settled .sda) ?_
    obtain ⟨_, sampled⟩ := opStart_quiet (s := (tgExpired .go s).2) ⟨scl, gp, delays⟩ raw
    have same := sampled.symm.trans started
    cases value : s.env.sda.head with
    | true => rfl
    | false => simp [value] at same
  exact ⟨quiet, sda, allAre_of_nil (settled .go) running⟩

/-! ### Refused attempts that are granted their answers -/

/-- One attempt that is not acknowledged, with its STOP (R99). -/
def refusedTokens (d t : Duration) (raw : Byte) : List Token :=
  .tgQuery .go false :: startTokens d ++ writeTokens d t raw true 0 ++ stopWaitTokens d t 0

theorem nackAttempts_succ (d t : Duration) (raw : Byte) (k : Nat) :
    nackAttempts d t raw (k + 1) = refusedTokens d t raw ++ nackAttempts d t raw k := rfl

theorem refused_granted {raw : Byte} {s : State} {ts : List Token}
    (h : s.env.Grants (refusedTokens s.delay s.timeout raw ++ ts)) :
    ∃ t, Refused raw s t ∧ BusRun s t (refusedTokens s.delay s.timeout raw) := by
  rw [refusedTokens, List.append_assoc] at h
  have running : s.env.go.head = false := h.tgQuery
  have asked := busRun_asked (g := .go) running
  obtain ⟨a, started, start⟩ := opStart_granted (s := (tgExpired .go s).2) (asked.grants h)
  have attempted := asked.trans start
  have ga := attempted.grants h
  rw [← attempted.off.delay, ← attempted.off.timeout] at ga
  obtain ⟨t, stopped, stop⟩ := opStop_granted ga
  rw [attempted.off.delay, attempted.off.timeout] at stop
  exact ⟨t, ⟨running, a, _, started, stopped⟩, attempted.trans stop⟩

/-- The loop after `k` refused attempts (R99). -/
theorem startWaitLoop_refused {raw : Byte} (k n : Nat) {s : State} {ts : List Token}
    (h : s.env.Grants (nackAttempts s.delay s.timeout raw k ++ ts)) :
    ∃ t, BusRun s t (nackAttempts s.delay s.timeout raw k) ∧
      startWaitLoop raw (n + k) s = startWaitLoop raw n t := by
  induction k generalizing s with
  | zero => exact ⟨s, .refl s, rfl⟩
  | succ k ih =>
    rw [nackAttempts_succ, List.append_assoc] at h
    obtain ⟨a, refused, run⟩ := refused_granted h
    have ga := run.grants h
    rw [← run.off.delay, ← run.off.timeout] at ga
    obtain ⟨t, rest, goes⟩ := ih ga
    rw [run.off.delay, run.off.timeout] at rest
    exact ⟨t, run.trans rest, (refused.retries (n + k)).trans goes⟩

/-- The answers of `n` refused attempts, at each input. -/
@[simp] def refusedAnswers (n : Nat) : Input → List Bool
  | .scl => List.replicate (2 * n) true
  | .sda => List.replicate n true
  | .gp => List.replicate (8 * n) false
  | .go => List.replicate n false
  | .delay => List.replicate (23 * n) true

theorem answers_refusedTokens (d t : Duration) (raw : Byte) (i : Input) :
    answers (refusedTokens d t raw) i = refusedAnswers 1 i := by
  simp only [refusedTokens, answers_append, answers_writeTokens]
  cases i <;> rfl

theorem answers_nackAttempts (d t : Duration) (raw : Byte) (n : Nat) (i : Input) :
    answers (nackAttempts d t raw n) i = refusedAnswers n i := by
  induction n with
  | zero => cases i <;> rfl
  | succ n ih =>
    rw [nackAttempts_succ, answers_append, answers_refusedTokens, ih]
    cases i <;> simp only [refusedAnswers, ← List.replicate_add] <;> congr 1 <;> omega

/-- Every attempt is refused and GO never expires (U9). -/
theorem startWaitLoop_stuck {s : State} (quiet : s.env.Quiet) (sda : s.env.sda.AllAre true)
    (go : s.env.go.AllAre false) (raw : Byte) (n : Nat) : startWaitLoop raw n s = .error .retryNeverEnds := by
  have grants : s.env.Grants (nackAttempts s.delay s.timeout raw n) := by
    intro i
    rw [answers_nackAttempts]
    cases i with
    | scl => exact allAre_begins quiet.scl (by simp)
    | sda => exact allAre_begins sda (by simp)
    | gp => exact allAre_begins quiet.gp (by simp)
    | go => exact allAre_begins go (by simp)
    | delay => exact allAre_begins quiet.delays (by simp)
  obtain ⟨t, -, goes⟩ := startWaitLoop_refused n 0 grants.append_nil
  rw [Nat.zero_add] at goes
  exact goes

/-! ### The attempts that settle a START-with-wait -/

/-- The attempts that settle a START-with-wait are enough for every one that ends: each takes a pending answer, and when
there is none left every attempt is refused. -/
theorem startWaitLoop_settled {raw : Byte} {n : Nat} {s : State} {r : Status × State}
    (h : startWaitLoop raw n s = .ok r) : startWaitLoop raw (retryFuel s.env) s = .ok r := by
  induction n generalizing s with
  | zero => cases h
  | succ n ih =>
    rcases startWaitLoop_ends_or_retries h with ends | ⟨t, refused, rest⟩
    · exact ends _
    by_cases settled : ∀ i, (s.env.input i).pending = []
    · obtain ⟨quiet, sda, go⟩ := refused.environment settled
      rw [startWaitLoop_stuck quiet sda go] at h
      cases h
    · rw [retryFuel, refused.retries]
      refine startWaitLoop_mono (ih rest) ?_
      have scl := refused.takes_answers .scl
      have sda := refused.takes_answers .sda
      have gp := refused.takes_answers .gp
      have go := refused.takes_answers .go
      have delay := refused.takes_answers .delay
      obtain ⟨i, pending⟩ := not_forall.mp settled
      have left : 0 < (s.env.input i).pending.length := List.length_pos_iff.mpr pending
      simp only [Env.input] at scl sda gp go delay
      simp only [retryFuel]
      cases i <;> simp only [Env.input] at left <;> omega

/-- Settles O25, by `startWaitLoop_settled`. -/
theorem startWaitHasNoLimitOfItsOwn : Obligations.StartWaitHasNoLimitOfItsOwn :=
  fun _ _ _ _ h => startWaitLoop_settled h

end Sys2Proof.Machine

/-! ## How START-with-wait ends after `n` refused attempts (R99, R100, R103) -/

namespace Sys2Proof.Machine

/-- GO is started and `n` attempts are refused. -/
def triedTokens (d t : Duration) (raw : Byte) (n : Nat) : List Token :=
  .tgStart .go t :: nackAttempts d t raw n

/-- After `n` refused attempts the next iteration of the loop decides. -/
theorem opStartWait_tries {raw : Byte} {n : Nat} {s : State} {ts : List Token}
    (h : s.env.Grants (triedTokens s.delay s.timeout raw n ++ ts)) :
    ∃ a, BusRun s a (triedTokens s.delay s.timeout raw n) ∧
      ∀ r, startWaitLoop raw 1 a = .ok r → opStartWait raw s = .ok r := by
  have started := busRun_tgStart .go s
  obtain ⟨a, refused, goes⟩ := startWaitLoop_refused n 1 (started.grants h)
  exact ⟨a, started.trans refused, fun r hr => startWaitHasNoLimitOfItsOwn raw _ s r (goes.trans hr)⟩

theorem answers_triedTokens (d t : Duration) (raw : Byte) (n : Nat) (i : Input) :
    answers (triedTokens d t raw n) i = refusedAnswers n i :=
  answers_nackAttempts d t raw n i

/-! ### The iteration that ends the loop -/

theorem startWaitLoop_gives_up {s : State} (expired : s.env.go.head = true) (raw : Byte) (n : Nat) :
    ∃ t, startWaitLoop raw (n + 1) s = .ok (.timedOut, t) ∧ BusRun s t [.tgQuery .go true] := by
  exact ⟨_, by rw [startWaitLoop_succ, expired]; rfl, busRun_asked (g := .go) expired⟩

theorem startWaitLoop_acknowledged {raw : Byte} {s : State} {ts : List Token} (n : Nat)
    (h : s.env.Grants (.tgQuery .go false :: startTokens s.delay ++
      writeTokens s.delay s.timeout raw false 0 ++ ts)) :
    ∃ t, startWaitLoop raw (n + 1) s = .ok (.ack, t) ∧
      BusRun s t (.tgQuery .go false :: startTokens s.delay ++ writeTokens s.delay s.timeout raw false 0) := by
  have running : s.env.go.head = false := h.tgQuery
  have asked := busRun_asked (g := .go) running
  obtain ⟨t, started, start⟩ := opStart_granted (s := (tgExpired .go s).2) (asked.grants h)
  exact ⟨t, by rw [startWaitLoop_attempt running, started]; rfl, asked.trans start⟩

theorem startWaitLoop_fatal {raw : Byte} {s : State} {i k : Nat} {ts : List Token} (n : Nat)
    (h : s.env.Grants (.tgQuery .go false :: startTokens s.delay ++ writeTimeoutTokens s.delay s.timeout raw i k ++
      stopWaitTokens s.delay s.timeout 0 ++ ts)) :
    ∃ t, startWaitLoop raw (n + 1) s = .ok (.timedOut, t) ∧
      BusRun s t (.tgQuery .go false :: startTokens s.delay ++ writeTimeoutTokens s.delay s.timeout raw i k ++
        stopWaitTokens s.delay s.timeout 0) := by
  rw [List.append_assoc] at h
  have running : s.env.go.head = false := h.tgQuery
  have asked := busRun_asked (g := .go) running
  obtain ⟨a, started, start⟩ := opStart_granted_timeout (s := (tgExpired .go s).2) (asked.grants h)
  have attempted := asked.trans start
  have ga := attempted.grants h
  rw [← attempted.off.delay, ← attempted.off.timeout] at ga
  obtain ⟨t, stopped, stop⟩ := opStop_granted ga
  rw [attempted.off.delay, attempted.off.timeout] at stop
  refine ⟨t, ?_, attempted.trans stop⟩
  rw [startWaitLoop_attempt running, started, ok_bind]
  show (opStop true a >>= _) = _
  rw [stopped, ok_bind]

/-! ### The latches -/

theorem run_refusedTokens (w : Wires) (d t : Duration) (raw : Byte) :
    w.run (refusedTokens d t raw) = ⟨.rel, .rel⟩ := by
  rw [refusedTokens, run_append, (stopWaitTokens_shape d t 0).run]

/-- Every refused attempt leaves both lines released. -/
theorem run_triedTokens (w : Wires) (d t : Duration) (raw : Byte) (n : Nat) :
    w.run (triedTokens d t raw n) = if n = 0 then w else ⟨.rel, .rel⟩ := by
  show w.run (nackAttempts d t raw n) = _
  induction n generalizing w with
  | zero => rfl
  | succ n ih =>
    rw [nackAttempts_succ, run_append, run_refusedTokens, ih]
    simp

/-! ### The commands -/

theorem respStatus_ack : respStatus .ack = 0x0000 := rfl

/-- Settles O40: the refused attempts are granted, then the one that is acknowledged. -/
theorem startWaitRetriesUntilAcknowledged : Obligations.StartWaitRetriesUntilAcknowledged := by
  intro s raw n quiet go sda i hi
  have grants : s.env.Grants (triedTokens s.delay s.timeout raw n ++
      (.tgQuery .go false :: startTokens s.delay ++ writeTokens s.delay s.timeout raw false 0)) := by
    intro i
    rw [answers_append, answers_append, answers_triedTokens, answers_writeTokens]
    cases i with
    | scl => exact allAre_begins quiet.scl (by simp [startTokens])
    | sda => exact sda
    | gp => exact allAre_begins quiet.gp (by simp [startTokens])
    | go => simpa [startTokens, List.replicate_succ'] using go
    | delay => exact allAre_begins quiet.delays (by simp [startTokens])
  obtain ⟨a, tried, decides⟩ := opStartWait_tries grants
  have ga := tried.grants grants
  rw [← tried.off.delay, ← tried.off.timeout] at ga
  obtain ⟨u, ends, last⟩ := startWaitLoop_acknowledged 0 ga.append_nil
  rw [tried.off.delay, tried.off.timeout] at last
  have run := tried.trans last
  have acknowledged := decides _ ends
  obtain ⟨-, -, -, data⟩ := opStartWait_run acknowledged
  obtain ⟨sr, -⟩ := data rfl
  rw [exec_startw_form hi]
  refine ⟨_, finish_status_ok (op := opStartWait raw) acknowledged, ?_, run.off.respond _, sr, ?_⟩
  · simpa [triedTokens, respStatus_ack] using run.ends (respStatus .ack)
  · rw [respond_wires, run.wires, run_append, run_append, run_writeTokens]

/-- Settles O41: the refused attempts are granted, then GO answers "expired". -/
theorem startWaitGivesUpWhenGuardExpires : Obligations.StartWaitGivesUpWhenGuardExpires := by
  intro s raw n quiet go sda i hi
  have grants : s.env.Grants (triedTokens s.delay s.timeout raw n ++ [.tgQuery .go true]) := by
    intro i
    rw [answers_append, answers_triedTokens]
    cases i with
    | scl => exact allAre_begins quiet.scl (by simp)
    | sda => simpa using sda
    | gp => exact allAre_begins quiet.gp (by simp)
    | go => exact go
    | delay => exact allAre_begins quiet.delays (by simp)
  obtain ⟨a, tried, decides⟩ := opStartWait_tries grants
  obtain ⟨u, ends, last⟩ := startWaitLoop_gives_up (tried.grants grants).tgQuery raw 0
  have run := tried.trans last
  rw [exec_startw_form hi]
  refine ⟨_, finish_status_ok (op := opStartWait raw) (decides _ ends), run.ends _, run.off.respond _, ?_⟩
  rw [respond_wires, run.wires, run_append, run_triedTokens]
  rfl

/-- Settles O42: the refused attempts are granted, then one whose byte write times out, and its STOP. -/
theorem startWaitTreatsTimeoutAsFatal : Obligations.StartWaitTreatsTimeoutAsFatal := by
  intro s raw n i k hi go sda delays gp scl j hj
  have grants : s.env.Grants (triedTokens s.delay s.timeout raw n ++
      (.tgQuery .go false :: startTokens s.delay ++ writeTimeoutTokens s.delay s.timeout raw i k ++
        stopWaitTokens s.delay s.timeout 0)) := by
    intro input
    simp only [answers_append, answers_triedTokens, answers_writeTimeoutTokens]
    cases input with
    | scl => simpa [startTokens, stopWaitTokens] using scl
    | sda => simpa [startTokens, stopWaitTokens] using sda
    | gp => simpa [startTokens, stopWaitTokens] using gp
    | go => simpa [startTokens, stopWaitTokens, List.replicate_succ'] using go
    | delay => exact allAre_begins delays (by simp [startTokens, stopWaitTokens])
  obtain ⟨a, tried, decides⟩ := opStartWait_tries grants
  have ga := tried.grants grants
  rw [← tried.off.delay, ← tried.off.timeout] at ga
  obtain ⟨u, ends, last⟩ := startWaitLoop_fatal 0 ga.append_nil
  rw [tried.off.delay, tried.off.timeout] at last
  have run := tried.trans last
  rw [exec_startw_form hj]
  refine ⟨_, finish_status_ok (op := opStartWait raw) (decides _ ends), ?_, run.off.respond _, ?_⟩
  · simpa [triedTokens, respStatus_timedOut] using run.ends (respStatus .timedOut)
  · rw [respond_wires, run.wires, run_append, run_append, (stopWaitTokens_shape s.delay s.timeout 0).run]

end Sys2Proof.Machine

/-! ## The START and STOP conditions of the bus primitives (R62, R105, R226, R227) -/

namespace Sys2Proof.Machine

/-! ### Conditions of the shapes -/

/-- Stretching the clock changes no line. -/
theorem LowSamples.conditions {ks : List Token} (h : LowSamples ks) (w : Wires) : w.conditions ks = [] := by
  induction ks generalizing w with
  | nil => rfl
  | cons k ks ih =>
    obtain ⟨hk, hks⟩ := List.forall_mem_cons.mp h
    rcases hk with rfl | rfl <;> exact ih hks w

/-- The forced STOP makes one STOP, whatever the lines were (R93). -/
@[simp] theorem conditions_stopTokens (w : Wires) (d : Duration) : w.conditions (stopTokens d) = [.stop] := by
  simp [stopTokens, Wires.conditions, Wires.condition, Wires.after]

@[simp] theorem conditions_waitEnd_false (w : Wires) (d : Duration) : w.conditions (waitEnd false d) = [.stop] := by
  simp [waitEnd, Wires.conditions, Wires.condition, Wires.after]

/-- SDA changes with the clock low in a data pulse of a byte write (R120). -/
@[simp] theorem conditions_writePulse (w : Wires) (d : Duration) (expired bit : Bool) :
    w.conditions (writePulse d expired bit) = [] := by
  cases bit <;> simp [writePulse, dataToken, Wires.conditions, Wires.condition, Wires.after]

@[simp] theorem conditions_writePulses (w : Wires) (d : Duration) (bits : List Bool) :
    w.conditions (bits.flatMap (writePulse d false)) = [] := by
  induction bits generalizing w with
  | nil => rfl
  | cons bit bits ih => rw [List.flatMap_cons, conditions_append, conditions_writePulse, ih]; rfl

/-- A byte write makes no condition but the STOP of its timeout (R226). -/
theorem WriteShape.conditions {d t : Duration} {data : Byte} {r : Status} {ts : List Token}
    (h : WriteShape d t data r ts) (w : Wires) : w.conditions ts = if r = .timedOut then [.stop] else [] := by
  cases h with
  | complete nack hl =>
    rw [if_neg (acknowledge_ne_timedOut nack)]
    simp [conditions_append, Wires.conditions, Wires.condition, Wires.after, hl.conditions]
  | inData hx => simp [conditions_append, Wires.conditions, Wires.condition]
  | inAck hl => simp [conditions_append, Wires.conditions, Wires.condition, Wires.after, hl.conditions]

theorem ReadPulses.conditions {d : Duration} {bs : List Bool} {ts : List Token} (h : ReadPulses d bs ts) (w : Wires) :
    w.conditions ts = [] := by
  induction h generalizing w with
  | none => rfl
  | pulse b hl _ ih => simp [Wires.conditions, Wires.condition, Wires.after, conditions_append, hl.conditions, ih]

/-- A byte read makes no condition but the STOP of its timeout (R226). -/
theorem ReadShape.conditions {d t : Duration} {sendAck : Bool} {r : Status} {bs : List Bool} {ts : List Token}
    (h : ReadShape d t sendAck r bs ts) (w : Wires) : w.conditions ts = if r = .timedOut then [.stop] else [] := by
  cases h with
  | complete hb hp hl =>
    cases sendAck <;> simp [conditions_append, Wires.conditions, Wires.condition, Wires.after, dataToken, hp.conditions,
      hl.conditions]
  | inData hb hp hl =>
    simp [conditions_append, Wires.conditions, Wires.condition, Wires.after, hp.conditions, hl.conditions]
  | inAck hb hp hl =>
    cases sendAck <;> simp [conditions_append, Wires.conditions, Wires.condition, Wires.after, dataToken, hp.conditions,
      hl.conditions]

/-- A STOP makes one STOP, however it ends (R93). -/
theorem StopShape.conditions {d t : Duration} {r : Status} {ts : List Token} (h : StopShape d t r ts) (w : Wires) :
    w.conditions ts = [.stop] := by
  cases h with
  | complete hl =>
    simp [conditions_append, Wires.conditions, Wires.condition, Wires.after, hl.conditions, hl.run]
  | expired hl => simp [conditions_append, Wires.conditions, Wires.condition, Wires.after, hl.conditions]

/-- The opening of START makes a START from an idle bus only (R95, R227). -/
theorem conditions_startTokens (w : Wires) (d : Duration) :
    w.conditions (startTokens d) = if w = ⟨.rel, .rel⟩ then [.start] else [] := by
  obtain ⟨sda, scl⟩ := w
  simp [startTokens, Wires.conditions, Wires.condition]

/-- The opening of REPEATED-START makes a START, after a STOP when SDA was low with the clock released (R97). -/
theorem conditions_rstartTokens (w : Wires) (d : Duration) :
    w.conditions (rstartTokens d) = (if w = ⟨.low, .rel⟩ then [.stop] else []) ++ [.start] := by
  obtain ⟨sda, scl⟩ := w
  simp [rstartTokens, Wires.conditions, Wires.condition, Wires.after]

/-! ### START-with-wait -/

/-- A byte write does not ask GO. -/
theorem WriteShape.asks_no_go {d t : Duration} {data : Byte} {r : Status} {ts : List Token}
    (h : WriteShape d t data r ts) (b : Bool) : Token.tgQuery .go b ∉ ts := by
  have pulse : ∀ e bit, Token.tgQuery .go b ∉ writePulse d e bit := by
    intro e bit
    cases bit <;> simp [writePulse, dataToken]
  cases h with
  | complete nack hl => simp [pulse, hl.not_mem]
  | inData _ => simp [pulse, stopTokens]
  | inAck hl => simp [pulse, hl.not_mem, waitEnd, stopTokens]

/-- A STOP does not ask GO. -/
theorem StopShape.asks_no_go {d t : Duration} {r : Status} {ts : List Token} (h : StopShape d t r ts) (b : Bool) :
    Token.tgQuery .go b ∉ ts := by
  cases h with
  | complete hl => simp [hl.not_mem]
  | expired hl => simp [hl.not_mem, waitEnd, stopTokens]

/-- Every START-with-wait that is not given up makes an attempt. -/
theorem StartWaitShape.attempts {d t : Duration} {raw : Byte} {r : Status} {ts : List Token}
    (h : StartWaitShape d t raw r ts) (ends : r = .ack ∨ Token.tgQuery .go true ∉ ts) :
    0 < ts.count (.tgQuery .go false) := by
  cases h with
  | expired => simp at ends
  | _ => simp

theorem count_attempt {xs us : List Token} (none : ∀ b, Token.tgQuery .go b ∉ xs) :
    (Token.tgQuery .go false :: (xs ++ us)).count (.tgQuery .go false) = us.count (.tgQuery .go false) + 1 := by
  simp [List.count_append, List.count_eq_zero.mpr (none false)]

theorem startWaitConditions_acked {xs : List Token} (none : ∀ b, Token.tgQuery .go b ∉ xs) :
    startWaitConditions (.tgQuery .go false :: xs) true = [.start] := by
  have count := count_attempt (us := []) none
  rw [List.append_nil] at count
  simp [startWaitConditions, count]

theorem startWaitConditions_fatal {xs : List Token} (none : ∀ b, Token.tgQuery .go b ∉ xs) :
    startWaitConditions (.tgQuery .go false :: xs) false = [.start, .stop, .stop] := by
  have count := count_attempt (us := []) none
  rw [List.append_nil] at count
  simp [startWaitConditions, count, none true]

/-- A refused attempt before the others adds its START and its STOP. -/
theorem startWaitConditions_retried {xs us : List Token} {acked : Bool} (none : ∀ b, Token.tgQuery .go b ∉ xs)
    (attempts : acked = true ∨ Token.tgQuery .go true ∉ us → 0 < us.count (.tgQuery .go false)) :
    startWaitConditions (.tgQuery .go false :: (xs ++ us)) acked =
      .start :: .stop :: startWaitConditions us acked := by
  have member : Token.tgQuery .go true ∈ Token.tgQuery .go false :: (xs ++ us) ↔ Token.tgQuery .go true ∈ us := by
    simp [none true]
  rw [startWaitConditions, count_attempt none, if_congr member rfl rfl, startWaitConditions]
  cases acked with
  | true =>
    obtain ⟨n, count⟩ := Nat.exists_eq_add_one.mpr (attempts (.inl rfl))
    simp [count, List.replicate_succ]
  | false =>
    by_cases gaveUp : Token.tgQuery .go true ∈ us
    · simp [gaveUp, List.replicate_succ]
    · obtain ⟨n, count⟩ := Nat.exists_eq_add_one.mpr (attempts (.inr gaveUp))
      simp [gaveUp, count, List.replicate_succ]

/-- An attempt from any bus: its START when the bus is idle, and the rest with both lines low. -/
theorem conditions_attempt (w : Wires) (d : Duration) (ts : List Token) :
    w.conditions (.tgQuery .go false :: (startTokens d ++ ts)) =
      (if w = ⟨.rel, .rel⟩ then [.start] else []) ++ (⟨.low, .low⟩ : Wires).conditions ts := by
  rw [← conditions_startTokens w d]
  exact conditions_append w (startTokens d) ts

/-- START-with-wait from an idle bus makes the conditions of its attempts (R99, R105). -/
theorem StartWaitShape.conditions_idle {d t : Duration} {raw : Byte} {r : Status} {ts : List Token}
    (h : StartWaitShape d t raw r ts) :
    (⟨.rel, .rel⟩ : Wires).conditions ts = startWaitConditions ts (decide (r = .ack)) := by
  induction h with
  | expired => rfl
  | @acked ts written =>
    have none : ∀ b, Token.tgQuery .go b ∉ startTokens d ++ ts := by simp [startTokens, written.asks_no_go]
    rw [conditions_attempt, written.conditions]
    exact (startWaitConditions_acked none).symm
  | @retried r r' ts ss us written stopped rest ih =>
    have none : ∀ b, Token.tgQuery .go b ∉ startTokens d ++ ts ++ ss := by
      simp [startTokens, written.asks_no_go, stopped.asks_no_go]
    rw [startWaitConditions_retried none (fun ends => rest.attempts (by simpa using ends)), ← ih,
      List.append_assoc, List.append_assoc, conditions_attempt]
    simp [conditions_append, written.conditions, stopped.conditions, stopped.run]
  | @fatal r' ts ss written stopped =>
    have none : ∀ b, Token.tgQuery .go b ∉ startTokens d ++ ts ++ ss := by
      simp [startTokens, written.asks_no_go, stopped.asks_no_go]
    rw [List.append_assoc, conditions_attempt, conditions_append, written.conditions, stopped.conditions,
      ← List.append_assoc]
    exact (startWaitConditions_fatal none).symm

/-- From a bus that is not idle, START-with-wait makes those conditions but for the first START (R227). -/
theorem StartWaitShape.conditions {d t : Duration} {raw : Byte} {r : Status} {ts : List Token}
    (h : StartWaitShape d t raw r ts) (w : Wires) :
    w.conditions ts = if w = ⟨.rel, .rel⟩ then startWaitConditions ts (decide (r = .ack))
      else (startWaitConditions ts (decide (r = .ack))).tail := by
  rw [← h.conditions_idle]
  split
  next idle => rw [idle]
  next busy =>
    have attempt (ts : List Token) : w.conditions (.tgQuery .go false :: (startTokens d ++ ts)) =
        ((⟨.rel, .rel⟩ : Wires).conditions (.tgQuery .go false :: (startTokens d ++ ts))).tail := by
      rw [conditions_attempt, conditions_attempt, if_neg busy]
      rfl
    cases h with
    | expired => rfl
    | acked _ => exact attempt _
    | retried _ _ _ =>
      rw [List.append_assoc, List.append_assoc]
      exact attempt _
    | fatal _ _ =>
      rw [List.append_assoc]
      exact attempt _

/-! ### The commands -/

theorem respStatus_eq_timedOut (r : Status) : some (respStatus r) = some 0x0200 ↔ r = .timedOut := by
  cases r <;> decide

theorem respStatus_beq_ack (r : Status) : (some (respStatus r) == some 0x0000) = decide (r = .ack) := by
  cases r <;> rfl

theorem exec_stop_conditions {stretch : Bool} {s t : State} (h : exec (.stop stretch) s = .next t) :
    ∃ ts, t.trace = s.trace ++ ts ∧ s.wires.conditions ts = [.stop] := by
  obtain ⟨r, u, stopped, rfl⟩ := (finish_status_next (op := opStop stretch)).mp h
  cases stretch with
  | false =>
    obtain ⟨-, run, -⟩ := opStop_forced_run stopped
    exact ⟨_, run.trace, conditions_stopTokens _ _⟩
  | true =>
    obtain ⟨ts, shape, run⟩ := opStop_shape stopped
    exact ⟨ts, run.trace, shape.conditions _⟩

theorem exec_startRaw_conditions {raw : Byte} {s t : State} (h : exec (.startRaw raw) s = .next t) :
    ∃ ts, t.trace = s.trace ++ ts ∧ s.wires.conditions ts = (if s.wires = ⟨.rel, .rel⟩ then [.start] else []) ++
      (if t.resp = some 0x0200 then [.stop] else []) := by
  obtain ⟨r, u, started, rfl⟩ := (finish_status_next (op := opStart raw)).mp h
  obtain ⟨ts, shape, run, -⟩ := opStart_run started
  refine ⟨_, run.trace, ?_⟩
  rw [conditions_append, conditions_startTokens, shape.conditions]
  simp only [respond_resp, respStatus_eq_timedOut]

theorem exec_rstartRaw_conditions {raw : Byte} {s t : State} (h : exec (.rstartRaw raw) s = .next t) :
    ∃ ts, t.trace = s.trace ++ ts ∧ s.wires.conditions ts = (if s.wires = ⟨.low, .rel⟩ then [.stop] else []) ++
      .start :: (if t.resp = some 0x0200 then [.stop] else []) := by
  obtain ⟨r, u, started, rfl⟩ := (finish_status_next (op := opRstart raw)).mp h
  obtain ⟨ts, shape, run, -⟩ := opRstart_run started
  refine ⟨_, run.trace, ?_⟩
  rw [conditions_append, conditions_rstartTokens, shape.conditions, List.append_assoc]
  simp only [respond_resp, respStatus_eq_timedOut]
  rfl

theorem exec_write_conditions {data : Byte} {s t : State} (h : exec (.write data) s = .next t) :
    ∃ ts, t.trace = s.trace ++ ts ∧ s.wires.conditions ts = if t.resp = some 0x0200 then [.stop] else [] := by
  obtain ⟨r, u, written, rfl⟩ := exec_write_next.mp h
  obtain ⟨ts, shape, run, -⟩ := opWrite_shape written
  refine ⟨ts, run.trace, ?_⟩
  rw [shape.conditions]
  simp only [respond_resp, respStatus_eq_timedOut]

/-- A byte that is read is no TIMEDOUT. -/
theorem respData_ne_timedOut (data : Byte) : respData data ≠ 0x0200 := by
  intro same
  have value := congrArg BitVec.toNat same
  rw [respData_toNat] at value
  exact absurd (value ▸ data.isLt) (by decide)

theorem exec_read_conditions {sendAck : Bool} {s t : State} (h : exec (.read sendAck) s = .next t) :
    ∃ ts, t.trace = s.trace ++ ts ∧ s.wires.conditions ts = if t.resp = some 0x0200 then [.stop] else [] := by
  obtain ⟨r, byte, u, received, rfl⟩ := exec_read_next.mp h
  obtain ⟨bs, ts, shape, run, -⟩ := opRead_shape received
  refine ⟨ts, run.trace, ?_⟩
  rw [shape.conditions]
  rcases shape.result with rfl | rfl
  · simpa using respData_ne_timedOut byte
  · simp [respStatus_timedOut]

theorem exec_startwRaw_conditions {raw : Byte} {s t : State} (h : exec (.startwRaw raw) s = .next t) :
    ∃ ts, t.trace = s.trace ++ ts ∧ s.wires.conditions ts =
      if s.wires = ⟨.rel, .rel⟩ then startWaitConditions ts (t.resp == some 0x0000)
      else (startWaitConditions ts (t.resp == some 0x0000)).tail := by
  obtain ⟨r, u, waited, rfl⟩ := (finish_status_next (op := opStartWait raw)).mp h
  obtain ⟨ts, shape, run, -⟩ := opStartWait_run waited
  refine ⟨_, run.trace, ?_⟩
  have started : startWaitConditions (.tgStart .go s.timeout :: ts) = startWaitConditions ts := by
    funext acked
    simp [startWaitConditions]
  rw [started, respond_resp, respStatus_beq_ack]
  exact shape.conditions s.wires

/-- Settles O43, by the shapes of the actions of each bus primitive. -/
theorem commandsMakeTheirBusConditions : Obligations.CommandsMakeTheirBusConditions := by
  intro i s t h
  cases i with
  | stop stretch =>
    obtain ⟨ts, trace, made⟩ := exec_stop_conditions h
    exact ⟨ts, trace, fun _ => made, by simp, by simp, by simp, by simp⟩
  | startRaw raw | start addr mode =>
    obtain ⟨ts, trace, made⟩ := exec_startRaw_conditions h
    exact ⟨ts, trace, by simp, fun _ => made, by simp, by simp, by simp⟩
  | rstartRaw raw | rstart addr mode =>
    obtain ⟨ts, trace, made⟩ := exec_rstartRaw_conditions h
    exact ⟨ts, trace, by simp, by simp, fun _ => made, by simp, by simp⟩
  | write data =>
    obtain ⟨ts, trace, made⟩ := exec_write_conditions h
    exact ⟨ts, trace, by simp, by simp, by simp, fun _ => made, by simp⟩
  | read sendAck =>
    obtain ⟨ts, trace, made⟩ := exec_read_conditions h
    exact ⟨ts, trace, by simp, by simp, by simp, fun _ => made, by simp⟩
  | startwRaw raw | startw addr mode =>
    obtain ⟨ts, trace, made⟩ := exec_startwRaw_conditions h
    exact ⟨ts, trace, by simp, by simp, by simp, by simp, fun _ => made⟩
  | _ =>
    obtain ⟨ts, trace, -⟩ := exec_appends h
    exact ⟨ts, trace, by simp, by simp, by simp, by simp, by simp⟩

end Sys2Proof.Machine

/-! ## The shift register (R11, R126) -/

namespace Sys2Proof.Machine

theorem shiftIn_getLsbD_zero (sr : Byte) (b : Bool) : (shiftIn sr b).getLsbD 0 = b :=
  BitVec.getLsbD_append.trans (by simp)

theorem shiftIn_getLsbD_succ (sr : Byte) (b : Bool) {k : Nat} (hk : k < 7) :
    (shiftIn sr b).getLsbD (k + 1) = sr.getLsbD k :=
  BitVec.getLsbD_append.trans (by simp [hk])

theorem shiftAll_append (sr : Byte) (xs ys : List Bool) : shiftAll sr (xs ++ ys) = shiftAll (shiftAll sr xs) ys :=
  List.foldl_append

/-- A shift moves the low bits up by one place and puts the new bit below them. -/
theorem lowBits_shiftIn (sr : Byte) (b : Bool) {n : Nat} (hn : n < 8) :
    lowBits (shiftIn sr b) (n + 1) = lowBits sr n ++ [b] := by
  induction n with
  | zero => exact congrArg ([·]) (shiftIn_getLsbD_zero sr b)
  | succ n ih => rw [lowBits, ih (by omega), shiftIn_getLsbD_succ sr b (by omega)]; rfl

/-- The bits shifted in, up to eight of them, are the low bits of the register, in order of arrival. -/
theorem lowBits_shiftAll (sr : Byte) {bs : List Bool} (hbs : bs.length ≤ 8) :
    lowBits (shiftAll sr bs) bs.length = bs := by
  induction bs using List.reverseRecOn with
  | nil => rfl
  | append_singleton bs b ih =>
    rw [List.length_append, List.length_singleton] at hbs ⊢
    have shifted : shiftAll sr (bs ++ [b]) = shiftIn (shiftAll sr bs) b := shiftAll_append sr bs [b]
    rw [shifted, lowBits_shiftIn _ _ (by omega), ih (by omega)]

theorem bitsMsb_shiftAll (sr : Byte) {bs : List Bool} (hbs : bs.length = 8) : bitsMsb (shiftAll sr bs) = bs := by
  rw [bitsMsb_eq_lowBits _ hbs]
  exact lowBits_shiftAll sr hbs.le

theorem bitsMsb_length (b : Byte) : (bitsMsb b).length = 8 := rfl

/-- A byte is its eight bits. -/
theorem bitsMsb_injective : Function.Injective bitsMsb := by
  intro a b same
  simp only [bitsMsb, List.cons.injEq, and_true] at same
  refine BitVec.eq_of_getLsbD_eq fun i hi => ?_
  interval_cases i <;> simp only [same]

theorem shiftAll_bitsMsb (sr data : Byte) : shiftAll sr (bitsMsb data) = data :=
  bitsMsb_injective (bitsMsb_shiftAll sr rfl)

/-- Settles O35, by the bits of one shift, of eight, and by the shape of the data pulses of a byte write. -/
theorem shiftRegisterArithmetic : Obligations.ShiftRegisterArithmetic := by
  refine ⟨fun sr b => ⟨shiftIn_getLsbD_zero sr b, fun _ => shiftIn_getLsbD_succ sr b⟩,
    fun sr _ => bitsMsb_shiftAll sr, fun s t h => ?_⟩
  obtain ⟨-, run, sr, -⟩ | ⟨no, -⟩ := writeBits_run h
  · exact ⟨sr, _, run.trace, clocked_writePulses _ _ _⟩
  · cases no

end Sys2Proof.Machine

/-! ## WRITE and `op_write` (R120 to R122) -/

namespace Sys2Proof.Machine

/-! ### The command -/

theorem opWrite_timedOut_wires {data : Byte} {s t : State} (h : opWrite data s = .ok (.timedOut, t)) :
    t.wires = ⟨.rel, .rel⟩ := by
  obtain ⟨ts, shape, run, -⟩ := opWrite_shape h
  exact run.wires.trans (shape.run s.wires)

/-- Settles O29: the environment grants the actions of the byte write. -/
theorem writeCompletes : Obligations.WriteCompletes := by
  intro s data nack k delays gp scl sda
  obtain ⟨u, written, run⟩ := opWrite_granted (grants_opening_writeTokens (opening := []) (n := 0)
    (by simp) delays gp scl sda s.delay s.timeout data).append_nil
  obtain ⟨-, -, -, kept⟩ := opWrite_shape written
  obtain ⟨sr, bitcnt⟩ := kept (acknowledge_ne_timedOut nack)
  exact acknowledged_ends (op := opWrite data) (opening := []) written run sr bitcnt

/-- WRITE times out in pulse `i` when it is granted the answers up to there (R121). -/
theorem exec_write_timesOut {data : Byte} {s : State} {i k : Nat}
    (grants : ∀ input, (s.env.input input).Begins (writeTimeoutAnswers i k input)) :
    ∃ t, exec (.write data) s = .next t ∧ Ends s t (writeTimeoutTokens s.delay s.timeout data i k) 0x0200 ∧
      SameOffBus s t ∧ t.wires = ⟨.rel, .rel⟩ := by
  have granted : s.env.Grants (writeTimeoutTokens s.delay s.timeout data i k) :=
    fun input => answers_writeTimeoutTokens .. ▸ grants input
  obtain ⟨u, written, run⟩ := opWrite_granted_timeout granted.append_nil
  have released := opWrite_timedOut_wires written
  exact ⟨_, finish_status_ok (op := opWrite data) written, run.ends _, run.off.respond _, released⟩

/-- Settles O30: the environment grants the actions up to the expiry in a data pulse or in the acknowledge pulse. -/
theorem writeTimesOut : Obligations.WriteTimesOut := by
  constructor
  · intro s data i hi delays gp
    have times := exec_write_timesOut (data := data) (s := s) (i := i) (k := 0) fun input => by
      cases input <;> simp [writeTimeoutScl, writeTimeoutGp, hi, delays, gp]
    rwa [writeTimeoutTokens, if_pos hi] at times
  · intro s data k delays gp scl
    exact exec_write_timesOut (data := data) (i := 8) fun input => match input with
      | .scl => scl
      | .gp => gp
      | .delay => delays
      | .sda | .go => begins_nil _

/-! ### What a list of actions samples and clocks -/

/-- The samples of SDA in a list of actions are the answers it records there. -/
theorem sampledBits_eq_answers (ts : List Token) : sampledBits ts = answers ts .sda := by
  induction ts with
  | nil => rfl
  | cons t ts ih =>
    cases t with
    | tgQuery g b => cases g <;> exact ih
    | readSda b => exact congrArg (b :: ·) ih
    | _ => exact ih

/-- There is one bit on the wire for each release of the clock. -/
theorem clocked_length (w : Wires) (ts : List Token) : (w.clocked ts).length = ts.count .sclRelease := by
  induction ts generalizing w with
  | nil => rfl
  | cons t ts ih =>
    rw [Wires.clocked, List.length_append, ih, List.count_cons, add_comm]
    by_cases released : t = .sclRelease <;> simp [released]

/-- Stretching the clock samples no data. -/
theorem LowSamples.answers_sda {ks : List Token} (h : LowSamples ks) : answers ks .sda = [] := by
  induction ks with
  | nil => rfl
  | cons k ks ih =>
    obtain ⟨hk, hks⟩ := List.forall_mem_cons.mp h
    rcases hk with rfl | rfl <;> exact ih hks

/-- A byte write that is not cut by a timeout samples SDA once, in its acknowledge pulse. -/
theorem WriteShape.sampled {d t : Duration} {data : Byte} {r : Status} {ts : List Token}
    (h : WriteShape d t data r ts) (hr : r ≠ .timedOut) : ∃ nack, answers ts .sda = [nack] := by
  cases h with
  | complete nack low => exact ⟨nack, by simp [answers_writePulses, low.answers_sda]⟩
  | inData _ => exact absurd rfl hr
  | inAck _ => exact absurd rfl hr

/-- Settles O31, by the shape of the actions of a byte write. -/
theorem byteWritePostcondition : Obligations.ByteWritePostcondition := by
  intro data s t r h
  obtain ⟨ts, shape, run, -⟩ := opWrite_shape h
  refine ⟨ts, run.trace, fun answered => ?_, fun expired => ?_⟩
  · have completed : r ≠ .timedOut := by rcases answered with rfl | rfl <;> decide
    have wires : t.wires = ⟨.rel, .low⟩ := by rw [run.wires, shape.run, if_neg completed]
    obtain ⟨nack, sampled⟩ := shape.sampled completed
    refine ⟨congrArg Wires.scl wires, congrArg Wires.sda wires, ?_, ?_⟩
    · rw [← clocked_length s.wires, shape.clocked completed]; rfl
    · rw [sampledBits_eq_answers, sampled]; rfl
  · subst expired
    have wires := opWrite_timedOut_wires h
    obtain ⟨before, stopped⟩ := shape.endsWithStop
    exact ⟨⟨before, stopped.symm⟩, congrArg Wires.scl wires, congrArg Wires.sda wires⟩

end Sys2Proof.Machine

/-! ## Byte reads that are granted their answers (R123, R124) -/

namespace Sys2Proof.Machine

/-! ### The data pulses -/

/-- A data pulse of a byte read up to its clock wait (R123). -/
def readOpening (d : Duration) : List Token := [.sclLow, .sdaRelease, .delay d, .sclRelease, .delay d]

theorem readPulse_eq (d : Duration) (bit : Bool) :
    readPulse d bit = readOpening d ++ (stretchTokens 0 ++ waitEnd true d) ++ [.readSda bit] := rfl

/-- The clock wait of a data pulse, which ends as `risen` says after `k` low samples. -/
theorem readBits_waits {risen : Bool} {n k : Nat} {s : State} {ts : List Token}
    (h : s.env.Grants (readOpening s.delay ++ (stretchTokens k ++ waitEnd risen s.delay) ++ ts)) :
    ∃ a, BusRun s a (readOpening s.delay ++ (stretchTokens k ++ waitEnd risen s.delay)) ∧
      (risen = true → a.sr = s.sr) ∧
      readBits (n + 1) s =
        if risen then readBits n { (readSda a).2 with sr := shiftIn a.sr a.env.sda.head } else .ok (false, a) := by
  rw [List.append_assoc, List.append_assoc] at h
  have low := (busRun_dataPath s s.sr (BitVec.ofNat 4 (n + 1)) s.draws).trans (busRun_sclLow _)
  have released := low.trans (busRun_sdaRelease _)
  obtain ⟨a, ha, ga⟩ := bitDelay_granted (released.grants h)
  obtain ⟨b, hb, -⟩ := bitDelay_granted ((busRun_sclRelease a).grants ga)
  obtain ⟨-, first, sr, -⟩ := bitDelay_run ha
  obtain ⟨-, second, sr', -⟩ := bitDelay_run hb
  have half := released.trans first
  have opened := half.trans ((busRun_sclRelease a).trans second)
  rw [released.off.delay, sclRelease_delay, half.off.delay] at opened
  have gb := opened.grants h
  rw [← opened.off.delay] at gb
  obtain ⟨c, hc, waited⟩ := waitSclHigh_granted k gb
  obtain ⟨-, -, -, kept⟩ := waitSclHigh_run hc
  rw [opened.off.delay] at waited
  refine ⟨c, opened.trans waited, fun high => ?_, by rw [readBits_succ, ha, ok_bind, hb, ok_bind, hc, ok_bind]⟩
  calc c.sr = b.sr := (kept high).1
    _ = a.sr := sr'
    _ = s.sr := sr

/-- A data pulse whose clock is not stretched. -/
theorem readBits_pulse {n : Nat} {bit : Bool} {s : State} {ts : List Token}
    (h : s.env.Grants (readPulse s.delay bit ++ ts)) :
    ∃ a, BusRun s a (readPulse s.delay bit) ∧ a.sr = shiftIn s.sr bit ∧ readBits (n + 1) s = readBits n a := by
  rw [readPulse_eq] at h ⊢
  rw [List.append_assoc] at h
  obtain ⟨a, waited, sr, goes⟩ := readBits_waits (n := n) h
  have sampled : a.env.sda.head = bit := (waited.grants h).readSda
  rw [if_pos rfl, sr rfl, sampled] at goes
  have read := (busRun_readSda a).trans
    (busRun_dataPath (readSda a).2 (shiftIn s.sr bit) (readSda a).2.bitcnt (readSda a).2.draws)
  rw [sampled] at read
  exact ⟨_, waited.trans read, rfl, goes⟩

theorem readBits_pulses {n : Nat} {bits : List Bool} {s : State} {ts : List Token}
    (h : s.env.Grants (bits.flatMap (readPulse s.delay) ++ ts)) :
    ∃ a, BusRun s a (bits.flatMap (readPulse s.delay)) ∧ a.sr = shiftAll s.sr bits ∧
      readBits (n + bits.length) s = readBits n a := by
  induction bits generalizing s with
  | nil => exact ⟨s, .refl s, rfl, rfl⟩
  | cons bit bits ih =>
    rw [List.flatMap_cons, List.append_assoc] at h
    obtain ⟨a, pulse, sr, goes⟩ := readBits_pulse (n := n + bits.length) h
    have ga := pulse.grants h
    rw [← pulse.off.delay] at ga
    obtain ⟨b, rest, sr', goes'⟩ := ih ga
    rw [pulse.off.delay] at rest
    exact ⟨b, pulse.trans rest, by rw [sr', sr]; rfl, goes.trans goes'⟩

/-! ### op_read up to its acknowledge pulse -/

/-- The guard is started and the bits `bits` are read (R123). -/
def readBeginning (d t : Duration) (bits : List Bool) : List Token := .tgStart .gp t :: bits.flatMap (readPulse d)

theorem opRead_opens {sendAck : Bool} {s : State} (n : Nat) {bits : List Bool} {ts : List Token}
    (all : n + bits.length = 8) (h : s.env.Grants (readBeginning s.delay s.timeout bits ++ ts)) :
    ∃ a, BusRun s a (readBeginning s.delay s.timeout bits) ∧ a.sr = shiftAll 0 bits ∧
      opRead sendAck s = (readBits n a >>= fun p =>
        if p.1 then (readAck sendAck p.2 >>= fun q => .ok (q.1, q.2.sr, q.2)) else .ok (.timedOut, p.2.sr, p.2)) := by
  have started := (busRun_tgStart .gp s).trans
    (busRun_dataPath (tgStart .gp s) 0 (tgStart .gp s).bitcnt (tgStart .gp s).draws)
  obtain ⟨a, pulses, sr, goes⟩ := readBits_pulses (n := n) (started.grants h)
  exact ⟨a, started.trans pulses, sr, by rw [opRead_eq, ← goes, all]⟩

/-- All eight bits are read; `op_read` goes on with its acknowledge pulse. -/
theorem opRead_receives {sendAck : Bool} {data : Byte} {s : State} {ts : List Token}
    (h : s.env.Grants (readBeginning s.delay s.timeout (bitsMsb data) ++ ts)) :
    ∃ a, BusRun s a (readBeginning s.delay s.timeout (bitsMsb data)) ∧ a.sr = data ∧
      opRead sendAck s = (readAck sendAck a >>= fun q => .ok (q.1, q.2.sr, q.2)) := by
  obtain ⟨a, opened, sr, goes⟩ := opRead_opens 0 rfl h
  have received := opened.trans (busRun_dataPath a a.sr 0 a.draws)
  rw [List.append_nil] at received
  exact ⟨_, received, sr.trans (shiftAll_bitsMsb 0 data), goes⟩

/-! ### The acknowledge pulse -/

/-- The acknowledge pulse up to its clock wait (R123). -/
def readAckOpening (d : Duration) (sendAck : Bool) : List Token :=
  [.sclLow, dataToken (!sendAck), .delay d, .sclRelease]

theorem readAck_eq (sendAck : Bool) (s : State) :
    readAck sendAck s = (bitDelay (sdaBit (!sendAck) (sclLow s)) >>= fun a =>
      waitSclHigh .gp (sclRelease a) >>= fun p =>
        if p.1 then .ok (.ack, sclLow p.2) else .ok (.timedOut, p.2)) := rfl

theorem readAck_waits {risen sendAck : Bool} {s : State} {k : Nat} {ts : List Token}
    (h : s.env.Grants (readAckOpening s.delay sendAck ++ (stretchTokens k ++ waitEnd risen s.delay) ++ ts)) :
    ∃ a, BusRun s a (readAckOpening s.delay sendAck ++ (stretchTokens k ++ waitEnd risen s.delay)) ∧
      readAck sendAck s = if risen then .ok (.ack, sclLow a) else .ok (.timedOut, a) := by
  rw [List.append_assoc, List.append_assoc] at h
  have driven := (busRun_sclLow s).trans (busRun_sdaBit (!sendAck) _)
  obtain ⟨a, ha, -⟩ := bitDelay_granted (driven.grants h)
  obtain ⟨-, delayed, -⟩ := bitDelay_run ha
  rw [driven.off.delay] at delayed
  have opened := (driven.trans delayed).trans (busRun_sclRelease a)
  have ga := opened.grants h
  rw [← opened.off.delay] at ga
  obtain ⟨b, hb, waited⟩ := waitSclHigh_granted k ga
  rw [opened.off.delay] at waited
  exact ⟨b, opened.trans waited, by rw [readAck_eq, ha, ok_bind, hb, ok_bind]⟩

/-! ### op_read -/

theorem readTokens_eq (d t : Duration) (data : Byte) (sendAck : Bool) :
    readTokens d t data sendAck = readBeginning d t (bitsMsb data) ++
      (readAckOpening d sendAck ++ (stretchTokens 0 ++ waitEnd true d) ++ [.sclLow]) := rfl

/-- A byte read that is granted the answers of its nine pulses without stretching. -/
theorem opRead_granted {sendAck : Bool} {data : Byte} {s : State} {ts : List Token}
    (h : s.env.Grants (readTokens s.delay s.timeout data sendAck ++ ts)) :
    ∃ t, opRead sendAck s = .ok (.ack, data, t) ∧ BusRun s t (readTokens s.delay s.timeout data sendAck) := by
  rw [readTokens_eq] at h ⊢
  rw [List.append_assoc, List.append_assoc] at h
  obtain ⟨a, opened, sr, goes⟩ := opRead_receives h
  have ga := opened.grants h
  rw [← opened.off.delay] at ga
  obtain ⟨b, waited, acknowledges⟩ := readAck_waits ga
  rw [if_pos rfl] at acknowledges
  rw [opened.off.delay] at waited
  have byte : (sclLow b).sr = data := by
    obtain ⟨-, -, ⟨-, kept, -⟩ | ⟨no, -⟩⟩ := readAck_run acknowledges
    · exact kept.trans sr
    · cases no
  exact ⟨_, by rw [goes, acknowledges, ok_bind, byte], opened.trans (waited.trans (busRun_sclLow b))⟩

/-- The pulse of a byte read whose clock wait expires after `k` low samples and one more (R124). -/
def readExpiry (d : Duration) (opening : List Token) (k : Nat) : List Token :=
  opening ++ (stretchTokens k ++ waitEnd false d)

theorem readExpiredTokens_data (d t : Duration) (data : Byte) (sendAck : Bool) {i : Nat} (hi : i < 8) (k : Nat) :
    readExpiredTokens d t data sendAck i k =
      readBeginning d t ((bitsMsb data).take i) ++ readExpiry d (readOpening d) k := by
  simp [readExpiredTokens, readBeginning, readExpiry, readOpening, waitEnd, hi]

theorem readExpiredTokens_ack (d t : Duration) (data : Byte) (sendAck : Bool) (k : Nat) :
    readExpiredTokens d t data sendAck 8 k =
      readBeginning d t (bitsMsb data) ++ readExpiry d (readAckOpening d sendAck) k := by
  simp [readExpiredTokens, readBeginning, readExpiry, readAckOpening, waitEnd, bitsMsb]

theorem take_bitsMsb_length (data : Byte) {i : Nat} (hi : i ≤ 8) : ((bitsMsb data).take i).length = i := by
  simpa [bitsMsb_length] using hi

/-- A byte read that is granted the answers of its pulses up to a clock wait that expires in pulse `i` (R124, R199). -/
theorem opRead_granted_timeout {sendAck : Bool} {data : Byte} {s : State} {i k : Nat} (hi : i ≤ 8) {ts : List Token}
    (h : s.env.Grants (readExpiredTokens s.delay s.timeout data sendAck i k ++ ts)) :
    ∃ byte t, opRead sendAck s = .ok (.timedOut, byte, t) ∧
      BusRun s t (readExpiredTokens s.delay s.timeout data sendAck i k) := by
  rcases Nat.lt_or_eq_of_le hi with inData | rfl
  · obtain ⟨n, all⟩ : ∃ n, n + 1 + i = 8 := ⟨7 - i, by omega⟩
    rw [readExpiredTokens_data _ _ _ _ inData, readExpiry] at h ⊢
    rw [List.append_assoc] at h
    obtain ⟨a, opened, -, goes⟩ := opRead_opens (n + 1) (by rw [take_bitsMsb_length data hi, all]) h
    have ga := opened.grants h
    rw [← opened.off.delay] at ga
    obtain ⟨b, waited, -, expires⟩ := readBits_waits (n := n) ga
    rw [opened.off.delay] at waited
    exact ⟨b.sr, b, by rw [goes, expires]; rfl, opened.trans waited⟩
  · rw [readExpiredTokens_ack, readExpiry] at h ⊢
    rw [List.append_assoc] at h
    obtain ⟨a, opened, -, goes⟩ := opRead_receives h
    have ga := opened.grants h
    rw [← opened.off.delay] at ga
    obtain ⟨b, waited, expires⟩ := readAck_waits ga
    rw [opened.off.delay] at waited
    exact ⟨b.sr, b, by rw [goes, expires]; rfl, opened.trans waited⟩

/-! ### The answers of these actions -/

/-- The answers of data pulses whose clock is not stretched, at each input. -/
@[simp] def readPulseAnswers (bits : List Bool) : Input → List Bool
  | .scl => List.replicate bits.length true
  | .sda => bits
  | .gp => []
  | .go => []
  | .delay => List.replicate (2 * bits.length) true

theorem answers_readBeginning (d t : Duration) (bits : List Bool) (i : Input) :
    answers (readBeginning d t bits) i = readPulseAnswers bits i := by
  rw [readBeginning, answers_cons, answers_tgStart, List.nil_append]
  induction bits with
  | nil => cases i <;> rfl
  | cons b bits ih => cases i <;> simp [readPulse, ih, List.replicate_succ, Nat.mul_succ]

/-- The answers of a pulse whose clock wait expires, after an opening with `n` delays. -/
@[simp] def readExpiryAnswers (n k : Nat) : Input → List Bool
  | .scl => List.replicate (k + 1) false
  | .sda => []
  | .gp => List.replicate k false ++ [true]
  | .go => []
  | .delay => List.replicate (n + 4) true

theorem answers_readExpiry {d : Duration} {opening : List Token} {n : Nat}
    (opens : ∀ i, answers opening i = if i = .delay then List.replicate n true else []) (k : Nat) (i : Input) :
    answers (readExpiry d opening k) i = readExpiryAnswers n k i := by
  cases i <;> simp [readExpiry, opens, waitEnd, stopTokens, List.replicate_succ']

theorem answers_readOpening (d : Duration) (i : Input) :
    answers (readOpening d) i = if i = .delay then List.replicate 2 true else [] := by
  cases i <;> rfl

theorem answers_readAckOpening (d : Duration) (sendAck : Bool) (i : Input) :
    answers (readAckOpening d sendAck) i = if i = .delay then List.replicate 1 true else [] := by
  cases i <;> simp [readAckOpening]

/-- The answers of a byte read that times out in pulse `i`, at each input. -/
@[simp] def readTimeoutAnswers (data : Byte) (i k : Nat) : Input → List Bool
  | .scl => List.replicate i true ++ List.replicate (k + 1) false
  | .sda => (bitsMsb data).take i
  | .gp => List.replicate k false ++ [true]
  | .go => []
  | .delay => List.replicate (if i < 8 then 2 * i + 6 else 21) true

theorem answers_readExpiredTokens (d t : Duration) (data : Byte) (sendAck : Bool) {i : Nat} (hi : i ≤ 8) (k : Nat)
    (input : Input) :
    answers (readExpiredTokens d t data sendAck i k) input = readTimeoutAnswers data i k input := by
  rcases Nat.lt_or_eq_of_le hi with inData | rfl
  · rw [readExpiredTokens_data _ _ _ _ inData, answers_append, answers_readBeginning,
      answers_readExpiry (answers_readOpening d)]
    cases input <;> simp [take_bitsMsb_length data hi, inData, List.replicate_add]
  · rw [readExpiredTokens_ack, answers_append, answers_readBeginning,
      answers_readExpiry (answers_readAckOpening d sendAck)]
    cases input <;> simp [bitsMsb]

/-! ### The command -/

theorem respData_eq (data : Byte) : respData data = 0x00#8 ++ data :=
  BitVec.eq_of_toNat_eq (by rw [respData_toNat, BitVec.toNat_append]; simp)

theorem opRead_wires {sendAck : Bool} {s t : State} {r : Status} {byte : Byte}
    (h : opRead sendAck s = .ok (r, byte, t)) :
    t.wires = if r = .timedOut then ⟨.rel, .rel⟩ else ⟨latchOf (!sendAck), .low⟩ := by
  obtain ⟨bs, ts, shape, run, -⟩ := opRead_shape h
  exact run.wires.trans (shape.run s.wires)

/-- Settles O32: the environment grants the actions of the byte read. -/
theorem readCompletes : Obligations.ReadCompletes := by
  intro s data sendAck delays scl sda
  have grants : s.env.Grants (readTokens s.delay s.timeout data sendAck) := by
    intro i
    rw [readTokens_eq, answers_append, answers_readBeginning]
    cases i with
    | scl => simpa [readAckOpening, waitEnd, bitsMsb] using scl
    | sda => simpa [readAckOpening, waitEnd] using sda
    | delay => simpa [readAckOpening, waitEnd, bitsMsb] using delays
    | _ => simp [readAckOpening, waitEnd]
  obtain ⟨u, received, run⟩ := opRead_granted grants.append_nil
  obtain ⟨_, _, -, -, byte, kept⟩ := opRead_shape received
  have wires := opRead_wires received
  obtain ⟨-, bitcnt⟩ := kept rfl
  rw [← respData_eq]
  exact ⟨_, exec_read_next.mpr ⟨.ack, data, u, received, rfl⟩, run.ends _, run.off.respond _, byte.symm, bitcnt,
    wires⟩

/-- Settles O33: the environment grants the actions up to the clock wait that expires. -/
theorem readTimesOut : Obligations.ReadTimesOut := by
  intro s data sendAck i k hi delays scl gp sda
  have grants : s.env.Grants (readExpiredTokens s.delay s.timeout data sendAck i k) := by
    intro input
    rw [answers_readExpiredTokens _ _ _ _ hi]
    cases input with
    | scl => exact scl
    | sda => exact sda
    | gp => exact gp
    | go => exact begins_nil _
    | delay => exact delays
  obtain ⟨byte, u, received, run⟩ := opRead_granted_timeout hi grants.append_nil
  have released := opRead_wires received
  exact ⟨_, exec_read_next.mpr ⟨.timedOut, byte, u, received, rfl⟩, run.ends _, run.off.respond _, released⟩

end Sys2Proof.Machine

/-! ## What a byte read samples and leaves (R125) -/

namespace Sys2Proof.Machine

/-- The data samples of the pulses of a byte read are its bits. -/
theorem ReadPulses.sampled {d : Duration} {bs : List Bool} {ts : List Token} (h : ReadPulses d bs ts) :
    answers ts .sda = bs := by
  induction h with
  | none => rfl
  | pulse b low _ ih => simp [low.answers_sda, ih]

theorem ReadShape.sampled {d t : Duration} {sendAck : Bool} {bs : List Bool} {ts : List Token}
    (h : ReadShape d t sendAck .ack bs ts) : bs.length = 8 ∧ answers ts .sda = bs := by
  cases h with
  | complete length pulses low => exact ⟨length, by simp [pulses.sampled, low.answers_sda]⟩

/-- Actions that do not sample SDA leave the answers to come there. -/
theorem BusRun.sda_kept {s t : State} {ts : List Token} (run : BusRun s t ts) (unsampled : answers ts .sda = []) :
    t.env.sda = s.env.sda := by
  have left := foldl_consume_input s.env ts .sda
  rw [← run.env, unsampled] at left
  exact left

theorem waitSclHigh_sda {s t : State} {risen : Bool} (h : waitSclHigh .gp s = .ok (risen, t)) :
    t.env.sda = s.env.sda := by
  obtain ⟨low, hl, run, -⟩ := waitSclHigh_run h
  refine run.sda_kept ?_
  cases risen <;> simp [hl.answers_sda, waitEnd, stopTokens]

/-- The bits that are shifted in are the environment's next answers. -/
theorem readBits_sr {n : Nat} {s t : State} (h : readBits n s = .ok (true, t)) :
    t.sr = shiftAll s.sr (s.env.sda.take n) := by
  induction n generalizing s with
  | zero => cases h; rfl
  | succ n ih =>
    simp only [readBits_succ, bind_ok] at h
    obtain ⟨a, ha, b, hb, ⟨risen, c⟩, hc, h⟩ := h
    cases risen with
    | false => cases h
    | true =>
      obtain ⟨-, first, sr, -⟩ := bitDelay_run ha
      obtain ⟨-, second, sr', -⟩ := bitDelay_run hb
      obtain ⟨-, -, -, kept⟩ := waitSclHigh_run hc
      have sda : c.env.sda = s.env.sda := by
        rw [waitSclHigh_sda hc, second.sda_kept rfl, sclRelease_env, first.sda_kept rfl]
        rfl
      have old : c.sr = s.sr := by
        rw [(kept rfl).1, sr', sclRelease_sr, sr]
        rfl
      calc t.sr = shiftAll (shiftIn c.sr c.env.sda.head) (c.env.sda.tail.take n) := ih h
        _ = shiftAll s.sr (s.env.sda.take (n + 1)) := by rw [sda, old]; rfl

/-- The byte of a read that completes is the environment's next eight answers. -/
theorem opRead_byte {sendAck : Bool} {s t : State} {byte : Byte} (h : opRead sendAck s = .ok (.ack, byte, t)) :
    byte = shiftAll 0 (s.env.sda.take 8) := by
  rw [opRead_eq] at h
  obtain ⟨⟨received, a⟩, pulses, h⟩ := bind_ok.mp h
  cases received with
  | false => cases h
  | true =>
    obtain ⟨⟨r, b⟩, acknowledged, h⟩ := bind_ok.mp h
    cases h
    obtain ⟨-, -, ⟨-, kept, -⟩ | ⟨no, -⟩⟩ := readAck_run acknowledged
    · exact kept.trans (readBits_sr pulses)
    · cases no

/-- Settles O34: the shape of the actions of a byte read, with the byte of the answers it has sampled. -/
theorem byteReadPostcondition : Obligations.ByteReadPostcondition := by
  intro sendAck s t r byte h
  obtain ⟨bs, ts, shape, run, -, shifted⟩ := opRead_shape h
  have wires := opRead_wires h
  refine ⟨ts, run.trace, ?_, ?_⟩
  · rintro rfl
    obtain ⟨length, sampled⟩ := shape.sampled
    have bits : bitsMsb byte = bs := by rw [(shifted rfl).1, bitsMsb_shiftAll 0 length]
    have answered : bitsMsb byte = s.env.sda.take 8 := by
      rw [opRead_byte h, bitsMsb_shiftAll 0 (take_length _ 8)]
    refine ⟨congrArg Wires.scl wires, ?_, ?_, ?_, answered.symm, ?_⟩
    · refine (congrArg Wires.sda wires).trans ?_
      cases sendAck <;> rfl
    · rw [← clocked_length s.wires, shape.clocked]; rfl
    · rw [sampledBits_eq_answers, sampled, bits]
    · rw [wires]
      cases sendAck <;> exact ⟨rfl, rfl, rfl⟩
  · rintro rfl
    obtain ⟨before, stopped⟩ := shape.endsWithStop
    exact ⟨⟨before, stopped.symm⟩, congrArg Wires.scl wires, congrArg Wires.sda wires⟩

end Sys2Proof.Machine

/-! ## The transaction accessors (R141, R142, R147 to R149) -/

namespace Sys2Proof.Machine

/-- Settles O45: BEGIN_TX only writes registers and answers. -/
theorem beginTxCompletes : Obligations.BeginTxCompletes :=
  fun _ _ => rfl

theorem exec_txPut_room {s : State} (room : s.txlen.toNat < s.params.txCap) (data : Byte) :
    exec (.txPut data) s = .next (respond (respFlag true 0) (enqueueTx data s)) := by
  rw [exec, execTxPut, if_pos room]

/-- The byte that is enqueued is found at the cursor, and no other byte has changed (R142). -/
theorem txByte_enqueueTx (data : Byte) (s : State) (i : Nat) :
    (enqueueTx data s).txByte i = if i = s.txlen.toNat then data else s.txByte i := by
  unfold State.txByte
  rw [enqueueTx_txbuf]
  split
  next here => rw [here, lookup_write_same]; rfl
  next elsewhere => rw [lookup_write_other _ _ _ _ elsewhere]

/-- Settles O46: below capacity the byte goes to the cursor, at capacity nothing is written. -/
theorem txPutCompletes : Obligations.TxPutCompletes := by
  refine ⟨fun s data valid room => ?_, fun s data full => exec_txPut_full full data⟩
  obtain ⟨-, txMax, -, -⟩ := valid
  have stored := txByte_enqueueTx data s
  refine ⟨_, exec_txPut_room room data, rfl, cursor_succ (by omega), ?_, fun i other => ?_, rfl⟩
  · exact (stored _).trans (if_pos rfl)
  · exact (stored i).trans (if_neg other)

theorem exec_rxGet_left {s : State} (left : s.rxpos.toNat < s.rxlen.toNat) :
    exec .rxGet s = .next (respond (respFlag true (s.rxByte s.rxpos.toNat)) { s with rxpos := s.rxpos + 1 }) := by
  rw [exec, execRxGet, if_pos left]

theorem exec_rxPeek_left {s : State} (left : s.rxpos.toNat < s.rxlen.toNat) :
    exec .rxPeek s = .next (respond (respFlag true (s.rxByte s.rxpos.toNat)) s) := by
  rw [exec, execRxPeek, if_pos left]

theorem exec_rxGet_empty {s : State} (empty : s.rxlen.toNat ≤ s.rxpos.toNat) :
    exec .rxGet s = .next (respond (respFlag false 0) s) := by
  rw [exec, execRxGet, if_neg empty.not_gt]

theorem exec_rxPeek_empty {s : State} (empty : s.rxlen.toNat ≤ s.rxpos.toNat) :
    exec .rxPeek s = .next (respond (respFlag false 0) s) := by
  rw [exec, execRxPeek, if_neg empty.not_gt]

theorem respFlag_true_eq (data : Byte) : respFlag true data = 0x08#8 ++ data := by
  refine BitVec.eq_of_toNat_eq ?_
  rw [respFlag_true_toNat, BitVec.toNat_append, ← Nat.shiftLeft_add_eq_or_of_lt data.isLt]
  rfl

/-- A byte-wide count in a response (R64). -/
theorem respData_of_toNat {b : Byte} {n : Nat} (h : b.toNat = n) : respData b = BitVec.ofNat 16 n := by
  refine BitVec.eq_of_toNat_eq ?_
  rw [respData_toNat, BitVec.toNat_ofNat, h, Nat.mod_eq_of_lt (by omega)]

/-- Settles O56, by whether the read cursor has met the write cursor. -/
theorem receivedBytesAccessors : Obligations.ReceivedBytesAccessors := by
  refine ⟨fun s left => ?_, fun s empty => ⟨exec_rxGet_empty empty, exec_rxPeek_empty empty⟩, fun s ordered => ?_⟩
  · rw [← respFlag_true_eq]
    exact ⟨_, exec_rxGet_left left, cursor_succ (by omega), rfl, exec_rxPeek_left left⟩
  · have left : (s.rxlen - s.rxpos).toNat = s.rxlen.toNat - s.rxpos.toNat := BitVec.toNat_sub_of_le ordered
    rw [← respData_of_toNat left]
    rfl

end Sys2Proof.Machine

/-! ## What a transaction leaves, whatever happened on the bus (R144, R146) -/

namespace Sys2Proof.Machine

theorem exec_endTx_next {sendStop : Bool} {s t : State} :
    exec (.endTx sendStop) s = .next t ↔ ∃ code a b, transmit s = .ok (code, a) ∧
      endTransaction sendStop a = .ok b ∧ t = respond (respTx code) (releaseTxpos b) := by
  simp only [exec, execEndTx, finish_next, bind_ok, Except.ok.injEq, Prod.exists, eq_comm (b := t), exists_and_left]

theorem exec_reqFrom_next {addr : Addr} {count : BitVec 8} {sendStop : Bool} {s t : State} :
    exec (.reqFrom addr count sendStop) s = .next t ↔ ∃ a b, receive addr count (openRequest addr s) = .ok a ∧
      endTransaction sendStop a = .ok b ∧ t = respond (respData b.rxlen) b := by
  simp only [exec_reqFrom, serveRequest, finish_next, bind_ok, Except.ok.injEq, eq_comm (b := t), exists_and_left]

theorem SameConfiguration.trans {a b c : State} (h : SameConfiguration a b) (k : SameConfiguration b c) :
    SameConfiguration a c :=
  ⟨k.pullups.trans h.pullups, k.delay.trans h.delay, k.timeout.trans h.timeout, k.params.trans h.params,
    k.host.trans h.host⟩

/-- The end of a transaction writes `STOP_DEFERRED` and `PHASE`, and else only what a bus operation writes. -/
theorem endTransaction_off {sendStop : Bool} {s t : State} (h : endTransaction sendStop s = .ok t) :
    ∃ u, SameOffBus s u ∧ t = { u with stopDeferred := !sendStop, phase := .idle } := by
  obtain ⟨u, ts, written, run, -⟩ := endTransaction_run h
  exact ⟨u, run.off, written⟩

/-- The frame of END_TX: its address phase, its bytes and its end. -/
theorem endTx_frame {sendStop : Bool} {s t : State} (h : exec (.endTx sendStop) s = .next t) :
    AfterEndTx sendStop s t := by
  obtain ⟨code, a, b, sent, ended, rfl⟩ := exec_endTx_next.mp h
  obtain ⟨same, r, ts, us, -, run, -⟩ := transmit_run sent
  obtain ⟨u, off, rfl⟩ := endTransaction_off ended
  obtain ⟨pullups, delay, timeout, params, host⟩ := run.config.trans off.configuration
  have kept := same.trans off.transaction
  exact ⟨⟨pullups, delay, timeout, params, host⟩, kept.taddr, kept.dir, kept.txbuf, kept.txlen, kept.rxbuf,
    kept.rxlen, kept.rxpos, rfl, rfl⟩

/-- Settles O50, by the frames of the parts of END_TX. -/
theorem endTxFrame : Obligations.EndTxFrame :=
  fun _ _ _ h => endTx_frame h

/-- All that the address phase and the bytes of REQ_FROM can do (R143, R146): the address phase comes first. -/
theorem receive_run {addr : Addr} {count : BitVec 8} {s t : State} (h : receive addr count s = .ok t) :
    SameButReceived s t ∧ ∃ r ts us, WriteShape s.delay s.timeout (rawByte addr .read) r ts ∧
      TransRun s t (openTokens s.stopDeferred s.delay ++ ts ++ us) := by
  simp only [receive, bind_ok] at h
  obtain ⟨⟨r, a⟩, addressed, h⟩ := h
  obtain ⟨ts, shape, opened, -⟩ := opTstart_run addressed
  split at h
  next =>
    obtain ⟨same, ⟨us, run⟩, -⟩ := receiveBytes_run h
    exact ⟨opened.off.butReceived.trans same, r, ts, us, shape, opened.transRun.trans run⟩
  next =>
    cases h
    exact ⟨opened.off.butReceived, r, ts, [], shape, by simpa using opened.transRun⟩

/-- The bytes REQ_FROM has stored at its end: no more than it was asked for, and than the buffer holds (R146). -/
theorem receive_stores {addr : Addr} {count : BitVec 8} {s t : State}
    (h : receive addr count (openRequest addr s) = .ok t) :
    ∃ bytes : List Byte, bytes.length ≤ min count.toNat s.params.rxCap ∧ bytes.length < 256 ∧
      t.buffers = s.buffers.receive bytes := by
  obtain ⟨-, bytes, fits, stored⟩ := receive_buffers h
  have fits : bytes.length ≤ min count.toNat s.params.rxCap := fits
  exact ⟨bytes, fits, by omega, stored⟩

theorem rxlen_of_received {s t : State} {bytes : List Byte} (stored : t.buffers = s.buffers.receive bytes)
    (short : bytes.length < 256) : t.rxlen.toNat = bytes.length :=
  (congrArg (·.rxlen.toNat) stored).trans (receive_rxlen _ short)

/-- Elements beyond the received bytes read as before. -/
theorem rxByte_beyond_received {s t : State} {bytes : List Byte} (stored : t.buffers = s.buffers.receive bytes)
    (short : bytes.length < 256) {i : Nat} (beyond : bytes.length ≤ i) : t.rxByte i = s.rxByte i := by
  have listed : Memory.lookup t.rxbuf i = Memory.lookup s.rxbuf i :=
    (congrArg (Memory.lookup ·.rxbuf i) stored).trans (receive_lookup s.buffers short beyond)
  rw [State.rxByte, listed, ← State.rxByte]

/-- The frame of REQ_FROM: its address phase, its bytes and its end. -/
theorem reqFrom_frame {addr : Addr} {count : BitVec 8} {sendStop : Bool} {s t : State}
    (h : exec (.reqFrom addr count sendStop) s = .next t) : AfterReqFrom addr sendStop s t := by
  obtain ⟨a, b, received, ended, rfl⟩ := exec_reqFrom_next.mp h
  obtain ⟨same, r, ts, us, -, run⟩ := receive_run received
  obtain ⟨bytes, -, short, stored⟩ := receive_stores received
  obtain ⟨u, off, rfl⟩ := endTransaction_off ended
  obtain ⟨pullups, delay, timeout, params, host⟩ := run.config.trans off.configuration
  have kept := same.trans off.butReceived
  have buffers : u.buffers = s.buffers.receive bytes := off.buffers.trans stored
  have cursor := rxlen_of_received buffers short
  exact ⟨⟨pullups, delay, timeout, params, host⟩, kept.taddr, kept.dir, kept.txbuf, kept.txlen, kept.txpos,
    kept.rxpos, fun _ beyond => rxByte_beyond_received buffers short (cursor ▸ beyond), rfl, rfl⟩

/-- Settles O55, by the frame of REQ_FROM and the bytes it has stored. -/
theorem reqFromFrame : Obligations.ReqFromFrame := by
  intro s t addr count sendStop h
  refine ⟨reqFrom_frame h, ?_⟩
  obtain ⟨a, b, received, ended, rfl⟩ := exec_reqFrom_next.mp h
  obtain ⟨bytes, fits, short, stored⟩ := receive_stores received
  obtain ⟨-, kept, -⟩ := endTransaction_kept ended
  have cursor := rxlen_of_received (kept.trans stored) short
  exact ⟨cursor.trans_le fits, congrArg some (respData_eq b.rxlen)⟩

/-! ### The address byte (R143) -/

/-- A byte write starts with its eight data pulses, or it is the one whose guard expires after one of them. -/
theorem WriteShape.begins {d t : Duration} {data : Byte} {r : Status} {ts : List Token}
    (h : WriteShape d t data r ts) :
    (∃ us, ts = .tgStart .gp t :: (bitsMsb data).flatMap (writePulse d false) ++ us) ∨
      ∃ p, p < 8 ∧ ts = writeExpiredTokens d t data p := by
  cases h with
  | complete nack low => exact .inl ⟨_, rfl⟩
  | inAck low => exact .inl ⟨_, rfl⟩
  | @inData done rest b bits =>
    have length := congrArg List.length bits
    rw [bitsMsb_length, List.length_append, List.length_cons] at length
    exact .inr ⟨done.length, by omega, by simp [writeExpiredTokens, bits]⟩

/-- A transaction's trace up to the end of its address byte, for the rest of its actions. -/
theorem address_first {s t : State} {raw : Byte} {r : Status} {opening ts us : List Token}
    (shape : WriteShape s.delay s.timeout raw r ts) (trace : t.trace = s.trace ++ (opening ++ ts ++ us)) :
    ∃ ts, t.trace = s.trace ++ opening ++
        .tgStart .gp s.timeout :: (bitsMsb raw).flatMap (writePulse s.delay false) ++ ts ∨
      ∃ p, p < 8 ∧ t.trace = s.trace ++ opening ++ writeExpiredTokens s.delay s.timeout raw p ++ ts := by
  obtain ⟨vs, rfl⟩ | ⟨p, hp, rfl⟩ := shape.begins
  · exact ⟨vs ++ us, .inl (by simp [trace])⟩
  · exact ⟨us, .inr ⟨p, hp, by simp [trace]⟩⟩

theorem TransRun.appended {s a t : State} {ts : List Token} (run : TransRun s a ts) (rest : AppendsActions a t) :
    ∃ us, t.trace = s.trace ++ (ts ++ us) := by
  obtain ⟨us, trace, -, -⟩ := rest
  exact ⟨us, by rw [trace, run.trace, List.append_assoc]⟩

/-- Settles O51: both transactions begin with the address phase, whatever comes after it. -/
theorem deferredStopOpensWithRepeatedStart : Obligations.DeferredStopOpensWithRepeatedStart := by
  rintro i s t raw h (⟨sendStop, rfl, rfl⟩ | ⟨addr, count, sendStop, rfl, rfl⟩)
  · obtain ⟨code, a, b, sent, ended, rfl⟩ := exec_endTx_next.mp h
    obtain ⟨-, r, ts, us, shape, run, -⟩ := transmit_run sent
    obtain ⟨vs, trace⟩ := run.appended (endTransaction_appends ended)
    rw [List.append_assoc] at trace
    exact address_first shape trace
  · obtain ⟨a, b, received, ended, rfl⟩ := exec_reqFrom_next.mp h
    obtain ⟨-, r, ts, us, shape, run⟩ := receive_run received
    obtain ⟨vs, trace⟩ := run.appended (endTransaction_appends ended)
    rw [List.append_assoc] at trace
    exact address_first (s := s) shape trace

end Sys2Proof.Machine

/-! ## A transaction's address phase and end that are granted their answers (R143, R144, R146) -/

namespace Sys2Proof.Machine

/-- With the durations `d` and `t` an `op_write` that is granted the answers of `ts` performs `ts` and ends with `r`. -/
def WritesByte (d t : Duration) (data : Byte) (r : Status) (ts : List Token) : Prop :=
  ∀ {s : State} {us : List Token}, s.delay = d → s.timeout = t → s.env.Grants (ts ++ us) →
    ∃ u, opWrite data s = .ok (r, u) ∧ BusRun s u ts

theorem writesByte_answered (d t : Duration) (data : Byte) (nack : Bool) (k : Nat) :
    WritesByte d t data (if nack then .nack else .ack) (writeTokens d t data nack k) := by
  rintro s us rfl rfl h
  exact opWrite_granted h

theorem writesByte_timedOut (d t : Duration) (data : Byte) (i k : Nat) :
    WritesByte d t data .timedOut (writeTimeoutTokens d t data i k) := by
  rintro s us rfl rfl h
  exact opWrite_granted_timeout h

theorem TransRun.grants {s t : State} {xs ys : List Token} (run : TransRun s t xs) (h : s.env.Grants (xs ++ ys)) :
    t.env.Grants ys := by
  rw [run.env]
  exact ((grants_append _ _ _).mp h).2

/-- A step that writes only the sequencer's registers is no action. -/
theorem TransRun.of_same {s t : State} (config : SameConfiguration s t) (trace : t.trace = s.trace)
    (wires : t.wires = s.wires) (env : t.env = s.env) : TransRun s t [] :=
  ⟨config, by simpa using trace, wires, env⟩

/-- Answering, and drawing a value for `TXPOS`, add no action. -/
theorem TransRun.ends {s u v : State} {ts : List Token} (run : TransRun s u ts) (w : RespWord)
    (trace : v.trace = u.trace) (wires : v.wires = u.wires) (env : v.env = u.env) : Ends s (respond w v) ts w :=
  ⟨trace.trans run.trace, wires.trans run.wires, env.trans run.env, rfl, rfl⟩

/-! ### The address phase -/

/-- The opening of a transaction, after which its address phase is `op_write` (R143). -/
theorem opTstart_opens {s : State} {us : List Token} (h : s.env.Grants (openTokens s.stopDeferred s.delay ++ us)) :
    ∃ a, BusRun s a (openTokens s.stopDeferred s.delay) ∧ ∀ raw, opTstart raw s = opWrite raw a := by
  unfold opTstart
  cases hd : s.stopDeferred with
  | true =>
    rw [hd] at h
    exact opRstart_opens h
  | false =>
    rw [hd] at h
    exact opStart_opens h

theorem opTstart_granted {raw : Byte} {r : Status} {s : State} {ts us : List Token}
    (writes : WritesByte s.delay s.timeout raw r ts)
    (h : s.env.Grants (openTokens s.stopDeferred s.delay ++ ts ++ us)) :
    ∃ t, opTstart raw s = .ok (r, t) ∧ BusRun s t (openTokens s.stopDeferred s.delay ++ ts) := by
  rw [List.append_assoc] at h
  obtain ⟨a, opened, goes⟩ := opTstart_opens h
  obtain ⟨t, written, run⟩ := writes opened.off.delay opened.off.timeout (opened.grants h)
  exact ⟨t, (goes raw).trans written, opened.trans run⟩

theorem answers_openTokens (deferred : Bool) (d : Duration) (i : Input) :
    answers (openTokens deferred d) i = if i = .delay then List.replicate (if deferred then 3 else 2) true else [] := by
  cases deferred
  · exact answers_startTokens d i
  · exact answers_rstartTokens d i

/-! ### The end -/

theorem endTransaction_granted {sendStop : Bool} {s : State}
    (h : s.env.Grants (closeTokens sendStop s.delay s.timeout)) :
    ∃ t, endTransaction sendStop s = .ok t ∧ TransRun s t (closeTokens sendStop s.delay s.timeout) := by
  cases sendStop with
  | false => exact ⟨_, rfl, .of_same (by constructor <;> rfl) rfl rfl rfl⟩
  | true =>
    obtain ⟨u, stopped, run⟩ := opStop_granted h.append_nil
    have flagged : TransRun u { u with stopDeferred := false, phase := .idle } [] :=
      .of_same (by constructor <;> rfl) rfl rfl rfl
    refine ⟨_, ?_, run.transRun.trans flagged⟩
    rw [endTransaction, if_pos rfl, stopped]
    rfl

/-- The answers of the end of a transaction, at each input. -/
@[simp] def closeAnswers (sendStop : Bool) : Input → List Bool
  | .scl => if sendStop then [true] else []
  | .sda => []
  | .gp => []
  | .go => []
  | .delay => if sendStop then List.replicate 4 true else []

theorem answers_closeTokens (sendStop : Bool) (d t : Duration) (i : Input) :
    answers (closeTokens sendStop d t) i = closeAnswers sendStop i := by
  cases sendStop <;> cases i <;> rfl

/-- Every delay in a trace has been done. -/
theorem answers_delays_done (ts : List Token) : ∀ b ∈ answers ts .delay, b = true := by
  induction ts with
  | nil => simp
  | cons t ts ih =>
    cases t with
    | tgQuery g b => cases g <;> simpa using ih
    | _ => simpa using ih

/-- The answers of an address byte that times out in pulse `i`, and of the end of its transaction. -/
theorem grants_addressTimeout {e : Env} {sendStop : Bool} {i k : Nat} (delays : e.delayDone.AllAre true)
    (gp : e.gp.Begins (writeTimeoutGp i k))
    (scl : e.scl.Begins (writeTimeoutScl i k ++ if sendStop then [true] else []))
    (deferred : Bool) (raw : Byte) (d t : Duration) :
    e.Grants (openTokens deferred d ++ writeTimeoutTokens d t raw i k ++ closeTokens sendStop d t) := by
  intro input
  cases input with
  | delay => exact allAre_begins delays (answers_delays_done _)
  | scl => simpa [answers_openTokens, answers_writeTimeoutTokens, answers_closeTokens] using scl
  | gp => simpa [answers_openTokens, answers_writeTimeoutTokens, answers_closeTokens] using gp
  | sda => simp [answers_openTokens, answers_writeTimeoutTokens, answers_closeTokens]
  | go => simp [answers_openTokens, answers_writeTimeoutTokens, answers_closeTokens]

/-! ### A quiet environment (R234) -/

/-- The actions sample no low clock, see no guard expire and do not ask GO. -/
structure Calm (ts : List Token) : Prop where
  scl : ∀ b ∈ answers ts .scl, b = true
  gp : ∀ b ∈ answers ts .gp, b = false
  go : answers ts .go = []

/-- A quiet environment grants calm actions when it gives the data samples they record. -/
theorem Env.Quiet.grants {e : Env} {ts : List Token} (quiet : e.Quiet) (calm : Calm ts)
    (sda : e.sda.Begins (answers ts .sda)) : e.Grants ts
  | .scl => allAre_begins quiet.scl calm.scl
  | .sda => sda
  | .gp => allAre_begins quiet.gp calm.gp
  | .go => (congrArg e.go.Begins calm.go).mpr (begins_nil _)
  | .delay => allAre_begins quiet.delays (answers_delays_done ts)

theorem Calm.append {xs ys : List Token} (h : Calm xs) (k : Calm ys) : Calm (xs ++ ys) where
  scl := by
    rw [answers_append]
    exact List.forall_mem_append.mpr ⟨h.scl, k.scl⟩
  gp := by
    rw [answers_append]
    exact List.forall_mem_append.mpr ⟨h.gp, k.gp⟩
  go := by simp [h.go, k.go]

theorem calm_openTokens (deferred : Bool) (d : Duration) : Calm (openTokens deferred d) :=
  ⟨by simp [answers_openTokens], by simp [answers_openTokens], by simp [answers_openTokens]⟩

theorem calm_writeTokens (d t : Duration) (data : Byte) (nack : Bool) : Calm (writeTokens d t data nack 0) :=
  ⟨by simp [answers_writeTokens], by simp [answers_writeTokens], by simp [answers_writeTokens]⟩

theorem calm_closeTokens (sendStop : Bool) (d t : Duration) : Calm (closeTokens sendStop d t) := by
  refine ⟨?_, by simp [answers_closeTokens], by simp [answers_closeTokens]⟩
  cases sendStop <;> simp [answers_closeTokens]

end Sys2Proof.Machine

/-! ## END_TX that is granted its answers (R144, R145) -/

namespace Sys2Proof.Machine

/-! ### The data bytes -/

theorem sendBytes_succ (n k : Nat) (s : State) :
    sendBytes (n + 1) k s = (opWrite (s.txByte k) { s with txpos := BitVec.ofNat 8 k } >>= fun p =>
      if p.1 = .ack then sendBytes n (k + 1) p.2 else .ok (.ofData p.1, p.2)) := rfl

/-- One data byte, and whether it is the last. -/
theorem sendBytes_writes {n k : Nat} {r : Status} {s : State} {ts us : List Token}
    (writes : WritesByte s.delay s.timeout (s.txByte k) r ts) (h : s.env.Grants (ts ++ us)) :
    ∃ a, TransRun s a ts ∧ SameTransaction s a ∧
      sendBytes (n + 1) k s = if r = .ack then sendBytes n (k + 1) a else .ok (.ofData r, a) := by
  obtain ⟨a, written, run⟩ := writes (s := { s with txpos := BitVec.ofNat 8 k }) rfl rfl h
  have placed : TransRun s { s with txpos := BitVec.ofNat 8 k } [] := .of_same (by constructor <;> rfl) rfl rfl rfl
  have same : SameTransaction s { s with txpos := BitVec.ofNat 8 k } := by constructor <;> rfl
  exact ⟨a, placed.trans run.transRun, same.trans run.off.transaction, by rw [sendBytes_succ, written, ok_bind]⟩

theorem SameTransaction.txByte {s t : State} (h : SameTransaction s t) : t.txByte = s.txByte := by
  funext k
  rw [State.txByte, h.txbuf, ← State.txByte]

/-- `m` data bytes that are acknowledged, from index `k` on. -/
theorem sendBytes_acknowledged {n m k : Nat} {s : State} {us : List Token}
    (h : s.env.Grants (ackedTokens s.delay s.timeout ((List.range' k m).map s.txByte) ++ us)) :
    ∃ a, TransRun s a (ackedTokens s.delay s.timeout ((List.range' k m).map s.txByte)) ∧ SameTransaction s a ∧
      sendBytes (n + m) k s = sendBytes n (k + m) a := by
  induction m generalizing s k with
  | zero => exact ⟨s, .refl s, (SameOffBus.refl s).transaction, rfl⟩
  | succ m ih =>
    have bytes : ackedTokens s.delay s.timeout ((List.range' k (m + 1)).map s.txByte) =
        writeTokens s.delay s.timeout (s.txByte k) false 0 ++
          ackedTokens s.delay s.timeout ((List.range' (k + 1) m).map s.txByte) := rfl
    rw [bytes, List.append_assoc] at h
    obtain ⟨a, first, same, goes⟩ := sendBytes_writes (n := n + m) (writesByte_answered _ _ _ false 0) h
    have ga := first.grants h
    rw [← first.config.delay, ← first.config.timeout, ← same.txByte] at ga
    obtain ⟨b, rest, same', goes'⟩ := ih ga
    rw [first.config.delay, first.config.timeout, same.txByte] at rest
    refine ⟨b, bytes ▸ first.trans rest, same.trans same', ?_⟩
    calc sendBytes (n + m + 1) k s = sendBytes (n + m) (k + 1) a := goes
      _ = sendBytes n (k + (m + 1)) b := by rw [goes', Nat.add_right_comm, Nat.add_assoc]

/-! ### The address phase and the data bytes -/

theorem transmit_eq (s : State) :
    transmit s = (opTstart (rawByte s.taddr .write) s >>= fun p =>
      if p.1 = .ack then sendBytes p.2.txlen.toNat 0 p.2 else .ok (.ofAddress p.1, p.2)) := rfl

theorem transmit_addresses {r : Status} {s : State} {ts us : List Token}
    (writes : WritesByte s.delay s.timeout (rawByte s.taddr .write) r ts)
    (h : s.env.Grants (openTokens s.stopDeferred s.delay ++ ts ++ us)) :
    ∃ a, BusRun s a (openTokens s.stopDeferred s.delay ++ ts) ∧
      transmit s = if r = .ack then sendBytes s.txlen.toNat 0 a else .ok (.ofAddress r, a) := by
  obtain ⟨a, addressed, run⟩ := opTstart_granted writes h
  exact ⟨a, run, by rw [transmit_eq, addressed, ok_bind, run.off.txlen]⟩

/-- The address phase and the first `m` data bytes of END_TX, all acknowledged. -/
def sentTokens (s : State) (m : Nat) : List Token :=
  openTokens s.stopDeferred s.delay ++ writeTokens s.delay s.timeout (rawByte s.taddr .write) false 0 ++
    ackedTokens s.delay s.timeout (s.payload m)

theorem transmit_sends {n m : Nat} {s : State} {us : List Token} (all : n + m = s.txlen.toNat)
    (h : s.env.Grants (sentTokens s m ++ us)) :
    ∃ a, TransRun s a (sentTokens s m) ∧ SameTransaction s a ∧ transmit s = sendBytes n m a := by
  unfold sentTokens State.payload at h ⊢
  rw [List.range_eq_range'] at h ⊢
  rw [List.append_assoc] at h
  obtain ⟨a, opened, goes⟩ := transmit_addresses (writesByte_answered _ _ _ false 0) h
  have ga := opened.grants h
  have same := opened.off.transaction
  rw [← opened.off.delay, ← opened.off.timeout, ← same.txByte] at ga
  obtain ⟨b, sent, same', goes'⟩ := sendBytes_acknowledged (n := n) ga
  rw [opened.off.delay, opened.off.timeout, same.txByte] at sent
  refine ⟨b, opened.transRun.trans sent, same.trans same', ?_⟩
  calc transmit s = sendBytes s.txlen.toNat 0 a := goes
    _ = sendBytes n m b := by rw [← all, goes', Nat.zero_add]

/-! ### The command -/

/-- END_TX after its transmission: its STOP, unless it is deferred, and the transaction status. -/
theorem endTx_ends {sendStop : Bool} {code : TxStatus} {s a : State} {ts : List Token}
    (sent : transmit s = .ok (code, a)) (run : TransRun s a ts)
    (h : s.env.Grants (ts ++ closeTokens sendStop s.delay s.timeout)) :
    ∃ t, exec (.endTx sendStop) s = .next t ∧
      Ends s t (ts ++ closeTokens sendStop s.delay s.timeout) (respTx code) ∧ AfterEndTx sendStop s t := by
  have ga := run.grants h
  rw [← run.config.delay, ← run.config.timeout] at ga
  obtain ⟨b, ended, closed⟩ := endTransaction_granted ga
  rw [run.config.delay, run.config.timeout] at closed
  have next := exec_endTx_next.mpr ⟨code, a, b, sent, ended, rfl⟩
  exact ⟨_, next, (run.trans closed).ends _ rfl rfl rfl, endTx_frame next⟩

/-- END_TX whose address byte is not acknowledged, or times out. -/
theorem endTx_stops_at_address {sendStop : Bool} {r : Status} {s : State} {ts : List Token}
    (writes : WritesByte s.delay s.timeout (rawByte s.taddr .write) r ts) (failed : r ≠ .ack)
    (h : s.env.Grants (openTokens s.stopDeferred s.delay ++ ts ++ closeTokens sendStop s.delay s.timeout)) :
    ∃ t, exec (.endTx sendStop) s = .next t ∧
      Ends s t (openTokens s.stopDeferred s.delay ++ ts ++ closeTokens sendStop s.delay s.timeout)
        (respTx (.ofAddress r)) ∧ AfterEndTx sendStop s t := by
  obtain ⟨a, run, stops⟩ := transmit_addresses writes h
  rw [if_neg failed] at stops
  exact endTx_ends stops run.transRun h

/-- END_TX whose data byte `j` is not acknowledged, or times out. -/
theorem endTx_stops_at_byte {sendStop : Bool} {j : Nat} {r : Status} {s : State} {ts : List Token}
    (hj : j < s.txlen.toNat) (writes : WritesByte s.delay s.timeout (s.txByte j) r ts) (failed : r ≠ .ack)
    (h : s.env.Grants (sentTokens s j ++ ts ++ closeTokens sendStop s.delay s.timeout)) :
    ∃ t, exec (.endTx sendStop) s = .next t ∧
      Ends s t (sentTokens s j ++ ts ++ closeTokens sendStop s.delay s.timeout) (respTx (.ofData r)) ∧
      AfterEndTx sendStop s t := by
  obtain ⟨n, all⟩ : ∃ n, n + 1 + j = s.txlen.toNat := ⟨s.txlen.toNat - j - 1, by omega⟩
  have granted := h
  rw [List.append_assoc] at granted
  obtain ⟨a, run, same, goes⟩ := transmit_sends all granted
  rw [← run.config.delay, ← run.config.timeout, ← same.txByte] at writes
  obtain ⟨b, last, -, stops⟩ := sendBytes_writes (n := n) writes (run.grants granted)
  rw [if_neg failed] at stops
  exact endTx_ends (goes.trans stops) (run.trans last) h

/-! ### The answers of these actions -/

/-- The answers of `n` data bytes that are acknowledged at once, at each input. -/
@[simp] def ackedAnswers (n : Nat) : Input → List Bool
  | .scl => List.replicate n true
  | .sda => List.replicate n false
  | .gp => List.replicate (8 * n) false
  | .go => []
  | .delay => List.replicate (17 * n) true

theorem answers_ackedTokens (d t : Duration) (bytes : List Byte) (i : Input) :
    answers (ackedTokens d t bytes) i = ackedAnswers bytes.length i := by
  induction bytes with
  | nil => cases i <;> rfl
  | cons b bytes ih =>
    have first : ackedTokens d t (b :: bytes) = writeTokens d t b false 0 ++ ackedTokens d t bytes := rfl
    rw [first, answers_append, answers_writeTokens, ih, List.length_cons]
    cases i <;> simp [List.replicate_succ, Nat.mul_succ]

/-- The answers of the address phase and `m` data bytes, all acknowledged, at each input but the delays'. -/
theorem answers_sentTokens (s : State) (m : Nat) {i : Input} (hi : i ≠ .delay) :
    answers (sentTokens s m) i = ackedAnswers (m + 1) i := by
  rw [sentTokens, answers_append, answers_append, answers_openTokens, answers_writeTokens, answers_ackedTokens,
    if_neg hi, State.payload, List.length_map, List.length_range]
  cases i <;> simp [List.replicate_succ, Nat.mul_succ] at hi ⊢

theorem calm_ackedTokens (d t : Duration) (bytes : List Byte) : Calm (ackedTokens d t bytes) :=
  ⟨by simp [answers_ackedTokens], by simp [answers_ackedTokens], by simp [answers_ackedTokens]⟩

theorem calm_sentTokens (s : State) (m : Nat) : Calm (sentTokens s m) :=
  ((calm_openTokens _ _).append (calm_writeTokens _ _ _ _)).append (calm_ackedTokens _ _ _)

/-- Settles O47: the environment grants the address byte, every data byte and the end. -/
theorem endTxSendsEveryByte : Obligations.EndTxSendsEveryByte := by
  intro s sendStop quiet sda
  have grants : s.env.Grants (sentTokens s s.txlen.toNat ++ closeTokens sendStop s.delay s.timeout) := by
    refine quiet.grants ((calm_sentTokens _ _).append (calm_closeTokens _ _ _)) ?_
    simpa [answers_sentTokens, answers_closeTokens] using sda
  obtain ⟨a, run, -, sent⟩ := transmit_sends (Nat.zero_add _) grants
  exact endTx_ends sent run grants

/-- Settles O48: the first byte that is not acknowledged is the address, or data byte `j`. -/
theorem endTxStopsAtTheFirstNack : Obligations.EndTxStopsAtTheFirstNack := by
  constructor
  · intro s sendStop quiet sda
    refine endTx_stops_at_address (writesByte_answered _ _ _ true 0) (by decide) (quiet.grants ?_ ?_)
    · exact ((calm_openTokens _ _).append (calm_writeTokens _ _ _ _)).append (calm_closeTokens _ _ _)
    · simpa [answers_openTokens, answers_writeTokens, answers_closeTokens] using sda
  · intro s sendStop j quiet hj sda
    refine endTx_stops_at_byte hj (writesByte_answered _ _ _ true 0) (by decide) (quiet.grants ?_ ?_)
    · exact ((calm_sentTokens _ _).append (calm_writeTokens _ _ _ _)).append (calm_closeTokens _ _ _)
    · simpa [answers_sentTokens, answers_writeTokens, answers_closeTokens] using sda

/-- Settles O49: the first byte that times out is the address, or data byte `j`. -/
theorem endTxStopsAtTheFirstTimeout : Obligations.EndTxStopsAtTheFirstTimeout := by
  constructor
  · intro s sendStop i k hi delays gp scl
    exact endTx_stops_at_address (writesByte_timedOut _ _ _ i k) (by decide)
      (grants_addressTimeout delays gp scl _ _ _ _)
  · intro s sendStop j i k hi hj delays gp scl sda
    refine endTx_stops_at_byte hj (writesByte_timedOut _ _ _ i k) (by decide) fun input => ?_
    cases input with
    | delay => exact allAre_begins delays (answers_delays_done _)
    | scl => simpa [answers_sentTokens, answers_writeTimeoutTokens, answers_closeTokens] using scl
    | gp => simpa [answers_sentTokens, answers_writeTimeoutTokens, answers_closeTokens] using gp
    | sda => simpa [answers_sentTokens, answers_writeTimeoutTokens, answers_closeTokens] using sda
    | go => simp [answers_sentTokens, answers_writeTimeoutTokens, answers_closeTokens]

end Sys2Proof.Machine

/-! ## REQ_FROM that is granted its answers (R146) -/

namespace Sys2Proof.Machine

/-! ### The incoming buffer -/

/-- The stored bytes are found in order from the cursor on. -/
theorem foldl_store_stored {bytes : List Byte} {b : Buffers} (h : b.rxlen.toNat + bytes.length < 256) {i : Nat}
    (hi : i < bytes.length) :
    Memory.lookup (bytes.foldl Buffers.store b).rxbuf (b.rxlen.toNat + i) = some bytes[i] := by
  induction bytes using List.reverseRecOn with
  | nil => cases hi
  | append_singleton bytes last ih =>
    rw [List.length_append, List.length_singleton] at h hi
    have cursor := foldl_store_rxlen (bytes := bytes) (b := b) (by omega)
    have written : (List.foldl Buffers.store b (bytes ++ [last])).rxbuf =
        Memory.write (bytes.foldl Buffers.store b).rxbuf (b.rxlen.toNat + bytes.length) last := by
      rw [List.foldl_append, ← cursor]
      rfl
    rw [written]
    rcases Nat.lt_or_eq_of_le (Nat.le_of_lt_succ hi) with before | rfl
    · rw [lookup_write_other _ _ _ _ (by omega), ih (by omega) before, List.getElem_append_left before]
    · rw [lookup_write_same, List.getElem_concat_length rfl]

theorem receive_stored (b : Buffers) {bytes : List Byte} (short : bytes.length < 256) {i : Nat}
    (hi : i < bytes.length) : Memory.lookup (b.receive bytes).rxbuf i = some bytes[i] := by
  simpa [Buffers.receive] using
    foldl_store_stored (b := { b with rxlen := 0, rxpos := 0 }) (by simpa using short) hi

/-- The received bytes are read back in order. -/
theorem rxByte_of_received {s t : State} {bytes : List Byte} (stored : t.buffers = s.buffers.receive bytes)
    (short : bytes.length < 256) {i : Nat} (hi : i < bytes.length) : t.rxByte i = bytes[i] := by
  have listed : Memory.lookup t.rxbuf i = some bytes[i] :=
    (congrArg (Memory.lookup ·.rxbuf i) stored).trans (receive_stored s.buffers short hi)
  rw [State.rxByte, listed]
  rfl

/-! ### The bytes -/

theorem receiveBytes_succ (n : Nat) (s : State) :
    receiveBytes (n + 1) s = (opRead (decide (n ≠ 0)) s >>= fun p =>
      if p.1 = .ack then receiveBytes n (enqueueRx p.2.1 p.2.2) else .ok p.2.2) := rfl

/-- The reads of the bytes `bytes` when `n` more are to come: each is acknowledged unless it is the last of all. -/
def readsTokens (d t : Duration) (n : Nat) : List Byte → List Token
  | [] => []
  | b :: bs => readTokens d t b (decide (n + bs.length ≠ 0)) ++ readsTokens d t n bs

/-- With no more to come they are the reads of a whole request. -/
theorem readsTokens_zero (d t : Duration) (bytes : List Byte) : readsTokens d t 0 bytes = receiveTokens d t bytes := by
  induction bytes with
  | nil => rfl
  | cons b bytes ih =>
    have last : decide (0 + bytes.length ≠ 0) = !bytes.isEmpty := by cases bytes <;> simp
    rw [readsTokens, receiveTokens, ih, last]

/-- With more to come every byte is acknowledged. -/
theorem readsTokens_succ (d t : Duration) (n : Nat) (bytes : List Byte) :
    readsTokens d t (n + 1) bytes = bytes.flatMap fun b => readTokens d t b true := by
  induction bytes with
  | nil => rfl
  | cons b bytes ih => rw [readsTokens, List.flatMap_cons, ih, decide_eq_true (by omega)]

/-- The bytes that are read are stored in order. -/
theorem receiveBytes_reads {n : Nat} {bytes : List Byte} {s : State} {us : List Token}
    (h : s.env.Grants (readsTokens s.delay s.timeout n bytes ++ us)) :
    ∃ a, TransRun s a (readsTokens s.delay s.timeout n bytes) ∧ a.buffers = bytes.foldl Buffers.store s.buffers ∧
      receiveBytes (n + bytes.length) s = receiveBytes n a := by
  induction bytes generalizing s with
  | nil => exact ⟨s, .refl s, rfl, rfl⟩
  | cons b bytes ih =>
    rw [readsTokens, List.append_assoc] at h
    obtain ⟨a, read, run⟩ := opRead_granted h
    have stored : TransRun a (enqueueRx b a) [] := .of_same (by constructor <;> rfl) rfl rfl rfl
    have first := run.transRun.trans stored
    rw [List.append_nil] at first
    have ga := first.grants h
    rw [← first.config.delay, ← first.config.timeout] at ga
    obtain ⟨c, rest, buffers, goes⟩ := ih ga
    rw [first.config.delay, first.config.timeout] at rest
    refine ⟨c, first.trans rest, ?_, ?_⟩
    · rw [buffers, buffers_enqueueRx, run.off.buffers, List.foldl_cons]
    · calc receiveBytes (n + bytes.length + 1) s = receiveBytes (n + bytes.length) (enqueueRx b a) := by
            rw [receiveBytes_succ, read, ok_bind, if_pos rfl]
        _ = receiveBytes n c := goes

/-- A byte that times out ends the reads and is not stored (R146). -/
theorem receiveBytes_stops {n i k : Nat} {data : Byte} {s : State} {us : List Token} (hi : i ≤ 8)
    (h : s.env.Grants (readExpiredTokens s.delay s.timeout data (decide (n ≠ 0)) i k ++ us)) :
    ∃ a, receiveBytes (n + 1) s = .ok a ∧
      BusRun s a (readExpiredTokens s.delay s.timeout data (decide (n ≠ 0)) i k) := by
  obtain ⟨byte, a, read, run⟩ := opRead_granted_timeout hi h
  exact ⟨a, by rw [receiveBytes_succ, read]; rfl, run⟩

/-! ### The address phase and the bytes -/

theorem receive_eq (addr : Addr) (count : BitVec 8) (s : State) :
    receive addr count s = (opTstart (rawByte addr .read) s >>= fun p =>
      if p.1 = .ack then receiveBytes (readCount count s.params.rxCap) p.2 else .ok p.2) := rfl

/-- Writing the address, the direction and the cursors is no action. -/
theorem transRun_openRequest (addr : Addr) (s : State) : TransRun s (openRequest addr s) [] :=
  .of_same (by constructor <;> rfl) rfl rfl rfl

theorem receive_addresses {addr : Addr} {r : Status} {s : State} {ts us : List Token}
    (writes : WritesByte s.delay s.timeout (rawByte addr .read) r ts)
    (h : s.env.Grants (openTokens s.stopDeferred s.delay ++ ts ++ us)) :
    ∃ a, TransRun s a (openTokens s.stopDeferred s.delay ++ ts) ∧ a.buffers = s.buffers.receive [] ∧
      ∀ count, receive addr count (openRequest addr s) =
        if r = .ack then receiveBytes (min count.toNat s.params.rxCap) a else .ok a := by
  obtain ⟨a, addressed, run⟩ := opTstart_granted (s := openRequest addr s) writes h
  refine ⟨a, (transRun_openRequest addr s).trans run.transRun, run.off.buffers, fun count => ?_⟩
  rw [receive_eq, addressed, ok_bind]
  rfl

/-- The address phase of REQ_FROM and the reads of `bytes`, when `n` more are to come. -/
def requestTokens (addr : Addr) (s : State) (n : Nat) (bytes : List Byte) : List Token :=
  openTokens s.stopDeferred s.delay ++ writeTokens s.delay s.timeout (rawByte addr .read) false 0 ++
    readsTokens s.delay s.timeout n bytes

theorem receive_reads {addr : Addr} {count : BitVec 8} {n : Nat} {bytes : List Byte} {s : State} {us : List Token}
    (all : n + bytes.length = min count.toNat s.params.rxCap) (h : s.env.Grants (requestTokens addr s n bytes ++ us)) :
    ∃ a, TransRun s a (requestTokens addr s n bytes) ∧ a.buffers = s.buffers.receive bytes ∧
      receive addr count (openRequest addr s) = receiveBytes n a := by
  unfold requestTokens at h ⊢
  rw [List.append_assoc] at h
  obtain ⟨a, opened, emptied, goes⟩ := receive_addresses (writesByte_answered _ _ _ false 0) h
  have ga := opened.grants h
  rw [← opened.config.delay, ← opened.config.timeout] at ga
  obtain ⟨b, read, stored, goes'⟩ := receiveBytes_reads ga
  rw [opened.config.delay, opened.config.timeout] at read
  refine ⟨b, opened.trans read, by rw [stored, emptied]; rfl, ?_⟩
  calc receive addr count (openRequest addr s) = receiveBytes (min count.toNat s.params.rxCap) a := goes count
    _ = receiveBytes n b := by rw [← all, goes']

/-! ### The command -/

/-- REQ_FROM after its reads: its STOP, unless it is deferred, and the count of the bytes that were stored. -/
theorem reqFrom_ends {addr : Addr} {count : BitVec 8} {sendStop : Bool} {bytes : List Byte} {s a : State}
    {ts : List Token} (received : receive addr count (openRequest addr s) = .ok a) (run : TransRun s a ts)
    (short : bytes.length < 256) (stored : a.buffers = s.buffers.receive bytes)
    (h : s.env.Grants (ts ++ closeTokens sendStop s.delay s.timeout)) :
    ∃ t, exec (.reqFrom addr count sendStop) s = .next t ∧
      Ends s t (ts ++ closeTokens sendStop s.delay s.timeout) (BitVec.ofNat 16 bytes.length) ∧
      AfterReqFrom addr sendStop s t ∧ t.rxlen.toNat = bytes.length ∧
      ∀ (i : Nat) (h : i < bytes.length), t.rxByte i = bytes[i] := by
  have ga := run.grants h
  rw [← run.config.delay, ← run.config.timeout] at ga
  obtain ⟨b, ended, closed⟩ := endTransaction_granted ga
  rw [run.config.delay, run.config.timeout] at closed
  obtain ⟨-, kept, -⟩ := endTransaction_kept ended
  have buffers : b.buffers = s.buffers.receive bytes := kept.trans stored
  have cursor := rxlen_of_received buffers short
  have next := exec_reqFrom_next.mpr ⟨a, b, received, ended, rfl⟩
  rw [← respData_of_toNat cursor]
  exact ⟨_, next, (run.trans closed).ends _ rfl rfl rfl, reqFrom_frame next, cursor,
    fun _ hi => rxByte_of_received buffers short hi⟩

/-- REQ_FROM whose address byte is not acknowledged, or times out. -/
theorem reqFrom_stops_at_address {addr : Addr} {count : BitVec 8} {sendStop : Bool} {r : Status} {s : State}
    {ts : List Token} (writes : WritesByte s.delay s.timeout (rawByte addr .read) r ts) (failed : r ≠ .ack)
    (h : s.env.Grants (openTokens s.stopDeferred s.delay ++ ts ++ closeTokens sendStop s.delay s.timeout)) :
    ∃ t, exec (.reqFrom addr count sendStop) s = .next t ∧
      Ends s t (openTokens s.stopDeferred s.delay ++ ts ++ closeTokens sendStop s.delay s.timeout) 0x0000 ∧
      AfterReqFrom addr sendStop s t ∧ t.rxlen = 0 := by
  obtain ⟨a, run, emptied, stops⟩ := receive_addresses writes h
  have received := stops count
  rw [if_neg failed] at received
  obtain ⟨t, next, ends, frame, cursor, -⟩ := reqFrom_ends received run (by decide) emptied h
  exact ⟨t, next, ends, frame, BitVec.eq_of_toNat_eq cursor⟩

/-! ### The answers of these actions -/

/-- The answers of byte reads whose clock is not stretched, at each input. -/
@[simp] def readsAnswers (bytes : List Byte) : Input → List Bool
  | .scl => List.replicate (9 * bytes.length) true
  | .sda => bytes.flatMap bitsMsb
  | .gp => []
  | .go => []
  | .delay => List.replicate (17 * bytes.length) true

theorem answers_readTokens (d t : Duration) (data : Byte) (sendAck : Bool) (i : Input) :
    answers (readTokens d t data sendAck) i = readsAnswers [data] i := by
  rw [readTokens_eq, answers_append, answers_readBeginning]
  cases i <;> simp [readAckOpening, waitEnd, bitsMsb]

theorem answers_readsTokens (d t : Duration) (n : Nat) (bytes : List Byte) (i : Input) :
    answers (readsTokens d t n bytes) i = readsAnswers bytes i := by
  induction bytes with
  | nil => cases i <;> rfl
  | cons b bytes ih =>
    rw [readsTokens, answers_append, answers_readTokens, ih]
    cases i <;> simp [List.replicate_succ, Nat.mul_succ]

theorem answers_requestTokens (addr : Addr) (s : State) (n : Nat) (bytes : List Byte) {i : Input} (hi : i ≠ .delay) :
    answers (requestTokens addr s n bytes) i = writeAnswers false 0 i ++ readsAnswers bytes i := by
  rw [requestTokens, answers_append, answers_append, answers_openTokens, answers_writeTokens, answers_readsTokens,
    if_neg hi, List.nil_append]

theorem calm_requestTokens (addr : Addr) (s : State) (n : Nat) (bytes : List Byte) :
    Calm (requestTokens addr s n bytes) := by
  have reads : Calm (readsTokens s.delay s.timeout n bytes) :=
    ⟨by simp [answers_readsTokens], by simp [answers_readsTokens], by simp [answers_readsTokens]⟩
  exact ((calm_openTokens _ _).append (calm_writeTokens _ _ _ _)).append reads

/-- Settles O52: the environment grants the address byte, every read and the end. -/
theorem reqFromStoresEveryByte : Obligations.ReqFromStoresEveryByte := by
  intro s addr count sendStop bytes quiet length sda
  have grants : s.env.Grants (requestTokens addr s 0 bytes ++ closeTokens sendStop s.delay s.timeout) := by
    refine quiet.grants ((calm_requestTokens _ _ _ _).append (calm_closeTokens _ _ _)) ?_
    simpa [answers_requestTokens, answers_closeTokens] using sda
  obtain ⟨a, run, stored, received⟩ := receive_reads (count := count) ((Nat.zero_add _).trans length) grants
  rw [← readsTokens_zero]
  exact reqFrom_ends received run (by omega) stored grants

/-- Settles O53: the environment grants the address byte, not acknowledged, and the end. -/
theorem reqFromReadsNothingWithoutAcknowledge : Obligations.ReqFromReadsNothingWithoutAcknowledge := by
  intro s addr count sendStop quiet sda
  refine reqFrom_stops_at_address (writesByte_answered _ _ _ true 0) (by decide) (quiet.grants ?_ ?_)
  · exact ((calm_openTokens _ _).append (calm_writeTokens _ _ _ _)).append (calm_closeTokens _ _ _)
  · simpa [answers_openTokens, answers_writeTokens, answers_closeTokens] using sda

/-- REQ_FROM whose read after the bytes `bytes` times out in pulse `i`, when `n` more would follow it. -/
theorem reqFrom_stops_at_byte {addr : Addr} {count : BitVec 8} {sendStop : Bool} {n i k : Nat} {bytes : List Byte}
    {data : Byte} {s : State} (hi : i ≤ 8) (all : n + 1 + bytes.length = min count.toNat s.params.rxCap)
    (h : s.env.Grants (requestTokens addr s (n + 1) bytes ++
      readExpiredTokens s.delay s.timeout data (decide (n ≠ 0)) i k ++ closeTokens sendStop s.delay s.timeout)) :
    ∃ t, exec (.reqFrom addr count sendStop) s = .next t ∧
      Ends s t (requestTokens addr s (n + 1) bytes ++
        readExpiredTokens s.delay s.timeout data (decide (n ≠ 0)) i k ++ closeTokens sendStop s.delay s.timeout)
        (BitVec.ofNat 16 bytes.length) ∧
      AfterReqFrom addr sendStop s t ∧ t.rxlen.toNat = bytes.length ∧
      ∀ (b : Nat) (h : b < bytes.length), t.rxByte b = bytes[b] := by
  have granted := h
  rw [List.append_assoc] at granted
  obtain ⟨a, run, stored, goes⟩ := receive_reads all granted
  have ga := run.grants granted
  rw [← run.config.delay, ← run.config.timeout] at ga
  obtain ⟨b, stops, last⟩ := receiveBytes_stops hi ga
  rw [run.config.delay, run.config.timeout] at last
  exact reqFrom_ends (goes.trans stops) (run.trans last.transRun) (by omega) (last.off.buffers.trans stored) h

/-- Settles O54: the first byte that times out is the address, or the one after the bytes `bytes`. -/
theorem reqFromStopsAtTheFirstTimeout : Obligations.ReqFromStopsAtTheFirstTimeout := by
  constructor
  · intro s addr count sendStop i k hi delays gp scl
    exact reqFrom_stops_at_address (writesByte_timedOut _ _ _ i k) (by decide)
      (grants_addressTimeout delays gp scl _ _ _ _)
  · intro s addr count sendStop bytes data i k hi more delays scl gp sda
    obtain ⟨n, all⟩ : ∃ n, n + 1 + bytes.length = min count.toNat s.params.rxCap :=
      ⟨min count.toNat s.params.rxCap - bytes.length - 1, by omega⟩
    have place : decide (bytes.length + 1 ≠ min count.toNat s.params.rxCap) = decide (n ≠ 0) :=
      decide_eq_decide.mpr (by omega)
    rw [place, ← readsTokens_succ _ _ n]
    refine reqFrom_stops_at_byte hi all fun input => ?_
    cases input with
    | delay => exact allAre_begins delays (answers_delays_done _)
    | scl =>
      rw [answers_append, answers_append, answers_requestTokens _ _ _ _ (by decide),
        answers_readExpiredTokens _ _ _ _ hi, answers_closeTokens]
      rwa [List.replicate_add, List.replicate_add, List.append_assoc _ (List.replicate i true)] at scl
    | gp =>
      rw [List.replicate_add] at gp
      simpa [answers_requestTokens, answers_readExpiredTokens _ _ _ _ hi, answers_closeTokens] using gp
    | sda => simpa [answers_requestTokens, answers_readExpiredTokens _ _ _ _ hi, answers_closeTokens] using sda
    | go => simp [answers_requestTokens, answers_readExpiredTokens _ _ _ _ hi, answers_closeTokens]

end Sys2Proof.Machine

/-! ## Configuration and initialisation (R170 to R173) -/

namespace Sys2Proof.Machine

/-- The clock released, then the data line, from any latches (R173): two actions, in this order. -/
theorem sdaRelease_sclRelease (s : State) :
    sdaRelease (sclRelease s) =
      { s with sclOut := .rel, sdaOut := .rel, trace := s.trace ++ [.sclRelease, .sdaRelease] } := by
  simp [sdaRelease, sclRelease, emit]

/-- Settles O57: a configuration command is one register write and the answer; INIT begins with the two releases. -/
theorem configurationAndInitComplete : Obligations.ConfigurationAndInitComplete := by
  refine fun s => ⟨fun _ => rfl, fun _ => rfl, fun _ => rfl, ?_⟩
  rw [exec, execInit, sdaRelease_sclRelease]
  rfl

end Sys2Proof.Machine

/-! ## The PEC utility (R180, R181) -/

namespace Sys2Proof.Machine

/-- The accumulator 0 is a fixed point of the bit step: no bit leaves at the top, so no XOR (R180). -/
@[simp] theorem crc8Step_zero : crc8Step 0 = 0 := rfl

@[simp] theorem crc8Steps_zero (n : Nat) : crc8Steps n 0 = 0 := by
  induction n with
  | zero => rfl
  | succ n ih => rw [crc8Steps, crc8Step_zero, ih]

/-- An accumulator cancels against an equal byte before the first bit step. -/
@[simp] theorem crc8Update_self (acc : Byte) : crc8Update acc acc = 0 := by
  rw [crc8Update, BitVec.xor_self]
  exact crc8Steps_zero 8

theorem crc8_concat (init data : Byte) (bytes : List Byte) :
    crc8 init (bytes ++ [data]) = crc8Update (crc8 init bytes) data :=
  List.foldl_concat ..

/-- The check value of R181: the digits "1" to "9" in ASCII. -/
theorem crc8_check : crc8 0 [0x31, 0x32, 0x33, 0x34, 0x35, 0x36, 0x37, 0x38, 0x39] = 0xF4 := by
  simp [crc8, crc8Update, crc8Steps, crc8Step]

/-- Settles O58: the worked values are computed; the appended CRC is the accumulator it meets, which cancels. -/
theorem pecUtilityValues : Obligations.PecUtilityValues := by
  refine ⟨by decide, by decide, by decide, crc8_check, fun init bytes => ?_⟩
  rw [crc8_concat, crc8Update_self]

end Sys2Proof.Machine

/-! ## Samples and queries (R206, R207, R209) -/

namespace Sys2Proof.Machine

/-! ### Actions while guard GP runs -/

/-- The actions are allowed while GP runs, whatever the latches. -/
def Guarded (ts : List Token) : Prop := ∀ m : Monitor, m.gpRuns = true → m.accepts ts = true

/-- The actions are allowed while GP runs, and GP runs after them. -/
def KeepsGuard (ts : List Token) : Prop :=
  ∀ m : Monitor, m.gpRuns = true → m.accepts ts = true ∧ (m.run ts).gpRuns = true

theorem Guarded.started {ts : List Token} (h : Guarded ts) (t : Duration) (m : Monitor) :
    m.accepts (.tgStart .gp t :: ts) = true :=
  h _ rfl

theorem KeepsGuard.guarded_append {xs ys : List Token} (h : KeepsGuard xs) (k : Guarded ys) : Guarded (xs ++ ys) := by
  intro m runs
  obtain ⟨accepted, runs'⟩ := h m runs
  rw [accepts_append, accepted, k _ runs']
  rfl

theorem KeepsGuard.append {xs ys : List Token} (h : KeepsGuard xs) (k : KeepsGuard ys) : KeepsGuard (xs ++ ys) := by
  intro m runs
  refine ⟨h.guarded_append (fun m runs => (k m runs).1) m runs, ?_⟩
  rw [monitor_run_append]
  exact (k _ (h m runs).2).2

/-- Low samples, with the clock released and GP running: each is allowed, and the monitor stays as it is. -/
theorem LowSamples.monitored {ks : List Token} (h : LowSamples ks) {m : Monitor} (released : m.wires.scl = .rel)
    (runs : m.gpRuns = true) : m.accepts ks = true ∧ m.run ks = m := by
  obtain ⟨w, gp, go⟩ := m
  cases runs
  have released : w.scl = .rel := released
  induction ks with
  | nil => exact ⟨rfl, rfl⟩
  | cons k ks ih =>
    obtain ⟨hk, hks⟩ := List.forall_mem_cons.mp h
    rcases hk with rfl | rfl
    · simpa [Monitor.accepts, Monitor.allows, Monitor.after, Wires.after, released] using ih hks
    · simpa [Monitor.accepts, Monitor.allows, Monitor.after, Wires.after] using ih hks

theorem LowSamples.accepts_append {low ts : List Token} (h : LowSamples low) {m : Monitor}
    (released : m.wires.scl = .rel) (runs : m.gpRuns = true) : m.accepts (low ++ ts) = m.accepts ts := by
  obtain ⟨accepted, kept⟩ := h.monitored released runs
  rw [Machine.accepts_append, accepted, kept, Bool.true_and]

/-- The eight actions of a forced STOP sample nothing and ask nothing. -/
@[simp] theorem accepts_stopTokens (m : Monitor) (d : Duration) : m.accepts (stopTokens d) = true := rfl

/-- A clock wait that expires, with the clock released and GP running. -/
theorem LowSamples.accepts_expiry {low : List Token} (h : LowSamples low) {m : Monitor} (released : m.wires.scl = .rel)
    (runs : m.gpRuns = true) (d : Duration) : m.accepts (low ++ waitEnd false d) = true := by
  rw [h.accepts_append released runs]
  simp [waitEnd, Monitor.accepts, Monitor.allows, Monitor.after, Wires.after, released, runs]

/-! ### The shapes -/

/-- A data pulse of a byte write asks GP once, at its end. -/
theorem guarded_writePulse (d : Duration) (expired bit : Bool) : Guarded (writePulse d expired bit) := by
  intro m runs
  cases bit <;> simp [writePulse, dataToken, Monitor.accepts, Monitor.allows, Monitor.after, runs]

theorem keepsGuard_writePulse (d : Duration) (bit : Bool) : KeepsGuard (writePulse d false bit) := by
  refine fun m runs => ⟨guarded_writePulse d false bit m runs, ?_⟩
  cases bit <;> simp [writePulse, dataToken, Monitor.after, runs]

theorem keepsGuard_writePulses (d : Duration) (bits : List Bool) :
    KeepsGuard (bits.flatMap (writePulse d false)) := by
  induction bits with
  | nil => exact fun _ runs => ⟨rfl, runs⟩
  | cons bit bits ih => exact (keepsGuard_writePulse d bit).append ih

/-- The acknowledge sample of a byte write follows a high clock sample, over a released data line (R120, R209). -/
theorem WriteShape.accepted {d t : Duration} {data : Byte} {r : Status} {ts : List Token}
    (h : WriteShape d t data r ts) : ∀ m : Monitor, m.accepts ts = true := by
  cases h with
  | complete nack hl =>
    refine ((keepsGuard_writePulses d _).guarded_append fun m runs => ?_).started t
    simp [Monitor.accepts, Monitor.allows, Monitor.after, Wires.after, hl.accepts_append, runs]
  | @inData done rest b hx =>
    have last : Guarded (writePulse d true b ++ stopTokens d) := fun m runs => by
      rw [accepts_append, guarded_writePulse d true b m runs, accepts_stopTokens]
      rfl
    rw [List.append_assoc]
    exact ((keepsGuard_writePulses d done).guarded_append last).started t
  | inAck hl =>
    refine ((keepsGuard_writePulses d _).guarded_append fun m runs => ?_).started t
    simp [Monitor.accepts, Monitor.allows, Monitor.after, Wires.after, hl.accepts_expiry, runs]

theorem StopShape.accepted {d t : Duration} {r : Status} {ts : List Token} (h : StopShape d t r ts) :
    ∀ m : Monitor, m.accepts ts = true := by
  cases h with
  | complete hl =>
    refine Guarded.started (fun m runs => ?_) t
    simp [Monitor.accepts, Monitor.allows, Monitor.after, Wires.after, hl.accepts_append, runs]
  | expired hl =>
    refine Guarded.started (fun m runs => ?_) t
    simp [Monitor.accepts, Monitor.allows, Monitor.after, Wires.after, hl.accepts_expiry, runs]

/-- Each data sample of a byte read follows a high clock sample, over a released data line (R123, R209). -/
theorem ReadPulses.keepsGuard {d : Duration} {bs : List Bool} {ts : List Token} (h : ReadPulses d bs ts) :
    KeepsGuard ts := by
  induction h with
  | none => exact fun _ runs => ⟨rfl, runs⟩
  | pulse b hl _ ih =>
    intro m runs
    obtain ⟨accepted, kept⟩ := hl.monitored (m := ⟨⟨.rel, .rel⟩, true, m.goRuns⟩) rfl rfl
    simpa [Monitor.accepts, Monitor.allows, Monitor.after, Wires.after, accepts_append, monitor_run_append, runs,
      accepted, kept] using ih _ rfl

theorem ReadShape.accepted {d t : Duration} {sendAck : Bool} {r : Status} {bs : List Bool} {ts : List Token}
    (h : ReadShape d t sendAck r bs ts) : ∀ m : Monitor, m.accepts ts = true := by
  cases h with
  | complete _ hp hl =>
    refine (hp.keepsGuard.guarded_append fun m runs => ?_).started t
    cases sendAck <;>
      simp [dataToken, Monitor.accepts, Monitor.allows, Monitor.after, Wires.after, hl.accepts_append, runs]
  | inData _ hp hl =>
    refine (hp.keepsGuard.guarded_append fun m runs => ?_).started t
    simp [Monitor.accepts, Monitor.allows, Monitor.after, Wires.after, hl.accepts_expiry, runs]
  | inAck _ hp hl =>
    refine (hp.keepsGuard.guarded_append fun m runs => ?_).started t
    cases sendAck <;>
      simp [dataToken, Monitor.accepts, Monitor.allows, Monitor.after, Wires.after, hl.accepts_expiry, runs]

/-! ### START-with-wait: guard GO -/

/-- GO runs on while it is not answered "expired". -/
theorem run_goRuns {ts : List Token} (unexpired : Token.tgQuery .go true ∉ ts) {m : Monitor} (runs : m.goRuns = true) :
    (m.run ts).goRuns = true := by
  induction ts generalizing m with
  | nil => exact runs
  | cons k ts ih =>
    obtain ⟨hk, hts⟩ := not_or.mp (List.mem_cons.not.mp unexpired)
    refine ih hts ?_
    cases k with
    | tgStart g _ => cases g <;> simp [Monitor.after, runs]
    | tgQuery g expired =>
      cases g with
      | gp => exact runs
      | go =>
        cases expired with
        | false => simp [Monitor.after, runs]
        | true => exact absurd rfl hk
    | _ => exact runs

/-- An attempt, begun while GO runs: its query is allowed, and GO runs after it. -/
theorem WriteShape.attempt_accepted {d t : Duration} {raw : Byte} {r : Status} {ts : List Token}
    (h : WriteShape d t raw r ts) {m : Monitor} (runs : m.goRuns = true) :
    m.accepts (.tgQuery .go false :: (startTokens d ++ ts)) = true ∧
      (m.run (.tgQuery .go false :: (startTokens d ++ ts))).goRuns = true := by
  constructor
  · simp [Monitor.accepts, Monitor.allows, startTokens, h.accepted, runs]
  · exact run_goRuns (by simp [startTokens, h.asks_no_go]) runs

theorem StartWaitShape.accepted {d t : Duration} {raw : Byte} {r : Status} {ts : List Token}
    (h : StartWaitShape d t raw r ts) {m : Monitor} (runs : m.goRuns = true) : m.accepts ts = true := by
  induction h generalizing m with
  | expired => simp [Monitor.accepts, Monitor.allows, runs]
  | acked hw => exact (hw.attempt_accepted runs).1
  | retried hw hs _ ih =>
    obtain ⟨accepted, runs'⟩ := hw.attempt_accepted (m := m) runs
    rw [List.append_assoc, ← List.cons_append, accepts_append, accepts_append, accepted, hs.accepted]
    exact ih (run_goRuns (hs.asks_no_go true) runs')
  | fatal hw hs =>
    rw [← List.cons_append, accepts_append, (hw.attempt_accepted runs).1, hs.accepted]
    rfl

/-! ### Every command -/

/-- `t` is `s` after some actions that are allowed whatever the latches and the guards were: each operation starts its
guards itself and releases the lines it samples. -/
def Disciplined (s t : State) : Prop := ∃ ts, t.trace = s.trace ++ ts ∧ ∀ m : Monitor, m.accepts ts = true

/-- A step that writes only registers is no action. -/
theorem Disciplined.of_same {s t : State} (trace : t.trace = s.trace) : Disciplined s t :=
  ⟨[], by simpa using trace, fun _ => rfl⟩

theorem Disciplined.trans {a b c : State} (h : Disciplined a b) (k : Disciplined b c) : Disciplined a c := by
  obtain ⟨xs, trace, accepted⟩ := h
  obtain ⟨ys, trace', accepted'⟩ := k
  refine ⟨xs ++ ys, by rw [trace', trace, List.append_assoc], fun m => ?_⟩
  rw [accepts_append, accepted, accepted']
  rfl

theorem Disciplined.respond {s u : State} (h : Disciplined s u) (w : RespWord) : Disciplined s (respond w u) :=
  h.trans (.of_same rfl)

theorem opStop_disciplined {stretch : Bool} {s t : State} {r : Status} (h : opStop stretch s = .ok (r, t)) :
    Disciplined s t := by
  cases stretch with
  | false =>
    obtain ⟨-, run, -⟩ := opStop_forced_run h
    exact ⟨_, run.trace, fun m => accepts_stopTokens m _⟩
  | true =>
    obtain ⟨_, shape, run⟩ := opStop_shape h
    exact ⟨_, run.trace, shape.accepted⟩

theorem opWrite_disciplined {data : Byte} {s t : State} {r : Status} (h : opWrite data s = .ok (r, t)) :
    Disciplined s t := by
  obtain ⟨_, shape, run, -⟩ := opWrite_shape h
  exact ⟨_, run.trace, shape.accepted⟩

theorem opRead_disciplined {sendAck : Bool} {s t : State} {r : Status} {byte : Byte}
    (h : opRead sendAck s = .ok (r, byte, t)) : Disciplined s t := by
  obtain ⟨_, _, shape, run, -⟩ := opRead_shape h
  exact ⟨_, run.trace, shape.accepted⟩

/-- The opening of an address byte drives the lines and waits, no more. -/
theorem opStart_disciplined {raw : Byte} {s t : State} {r : Status} (h : opStart raw s = .ok (r, t)) :
    Disciplined s t := by
  obtain ⟨_, shape, run, -⟩ := opStart_run h
  exact ⟨_, run.trace, fun _ => shape.accepted _⟩

theorem opRstart_disciplined {raw : Byte} {s t : State} {r : Status} (h : opRstart raw s = .ok (r, t)) :
    Disciplined s t := by
  obtain ⟨_, shape, run, -⟩ := opRstart_run h
  exact ⟨_, run.trace, fun _ => shape.accepted _⟩

theorem opTstart_disciplined {raw : Byte} {s t : State} {r : Status} (h : opTstart raw s = .ok (r, t)) :
    Disciplined s t := by
  unfold opTstart at h
  split at h
  · exact opRstart_disciplined h
  · exact opStart_disciplined h

theorem opStartWait_disciplined {raw : Byte} {s t : State} {r : Status} (h : opStartWait raw s = .ok (r, t)) :
    Disciplined s t := by
  obtain ⟨_, shape, run, -⟩ := opStartWait_run h
  exact ⟨_, run.trace, fun _ => shape.accepted rfl⟩

theorem sendBytes_disciplined {n k : Nat} {s t : State} {c : TxStatus} (h : sendBytes n k s = .ok (c, t)) :
    Disciplined s t := by
  induction n generalizing k s with
  | zero =>
    cases h
    exact .of_same rfl
  | succ n ih =>
    rw [sendBytes_succ] at h
    obtain ⟨⟨r, a⟩, written, h⟩ := bind_ok.mp h
    have moved : Disciplined s { s with txpos := BitVec.ofNat 8 k } := .of_same rfl
    have byte := moved.trans (opWrite_disciplined written)
    split at h
    · exact byte.trans (ih h)
    · cases h
      exact byte

theorem transmit_disciplined {s t : State} {c : TxStatus} (h : transmit s = .ok (c, t)) : Disciplined s t := by
  rw [transmit_eq] at h
  obtain ⟨⟨r, a⟩, addressed, h⟩ := bind_ok.mp h
  split at h
  · exact (opTstart_disciplined addressed).trans (sendBytes_disciplined h)
  · cases h
    exact opTstart_disciplined addressed

theorem receiveBytes_disciplined {n : Nat} {s t : State} (h : receiveBytes n s = .ok t) : Disciplined s t := by
  induction n generalizing s with
  | zero =>
    cases h
    exact .of_same rfl
  | succ n ih =>
    rw [receiveBytes_succ] at h
    obtain ⟨⟨r, b, a⟩, read, h⟩ := bind_ok.mp h
    split at h
    · have stored : Disciplined a (enqueueRx b a) := .of_same rfl
      exact ((opRead_disciplined read).trans stored).trans (ih h)
    · cases h
      exact opRead_disciplined read

theorem receive_disciplined {addr : Addr} {count : BitVec 8} {s t : State} (h : receive addr count s = .ok t) :
    Disciplined s t := by
  rw [receive_eq] at h
  obtain ⟨⟨r, a⟩, addressed, h⟩ := bind_ok.mp h
  split at h
  · exact (opTstart_disciplined addressed).trans (receiveBytes_disciplined h)
  · cases h
    exact opTstart_disciplined addressed

theorem endTransaction_disciplined {sendStop : Bool} {s t : State} (h : endTransaction sendStop s = .ok t) :
    Disciplined s t := by
  obtain ⟨u, ts, rfl, run, closed⟩ := endTransaction_run h
  refine ⟨ts, run.trace, ?_⟩
  cases sendStop with
  | false =>
    obtain ⟨-, rfl⟩ := closed
    exact fun _ => rfl
  | true =>
    obtain ⟨_, shape⟩ := closed
    exact shape.accepted

theorem finish_status_disciplined {op : State → Except Fault (Status × State)} {s t : State}
    (disciplined : ∀ {r u}, op s = .ok (r, u) → Disciplined s u)
    (h : finish (op s >>= fun p => .ok (respond (respStatus p.1) p.2)) = .next t) : Disciplined s t := by
  obtain ⟨r, u, hop, rfl⟩ := finish_status_next.mp h
  exact (disciplined hop).respond _

theorem exec_disciplined {i : Instr} {s t : State} (h : exec i s = .next t) : Disciplined s t := by
  cases i with
  | stop stretch => exact finish_status_disciplined opStop_disciplined h
  | startRaw raw => exact finish_status_disciplined opStart_disciplined h
  | rstartRaw raw => exact finish_status_disciplined opRstart_disciplined h
  | startwRaw raw => exact finish_status_disciplined opStartWait_disciplined h
  | start addr mode => exact finish_status_disciplined opStart_disciplined h
  | rstart addr mode => exact finish_status_disciplined opRstart_disciplined h
  | startw addr mode => exact finish_status_disciplined opStartWait_disciplined h
  | write data => exact finish_status_disciplined opWrite_disciplined h
  | read sendAck =>
    obtain ⟨r, byte, u, hread, rfl⟩ := exec_read_next.mp h
    exact (opRead_disciplined hread).respond _
  | endTx sendStop =>
    obtain ⟨code, a, b, sent, ended, rfl⟩ := exec_endTx_next.mp h
    have released : Disciplined b (releaseTxpos b) := .of_same rfl
    exact (((transmit_disciplined sent).trans (endTransaction_disciplined ended)).trans released).respond _
  | reqFrom addr count sendStop =>
    obtain ⟨a, b, received, ended, rfl⟩ := exec_reqFrom_next.mp h
    have opened : Disciplined s (openRequest addr s) := .of_same rfl
    exact ((opened.trans (receive_disciplined received)).trans (endTransaction_disciplined ended)).respond _
  | init =>
    cases h
    exact ⟨[.sclRelease, .sdaRelease], by simp, fun _ => rfl⟩
  | txPut data | rxGet | rxPeek =>
    simp only [exec, execTxPut, execRxGet, execRxPeek] at h
    split at h <;> cases h <;> exact .of_same rfl
  | beginTx _ | rxAvail | cfgPullups _ | cfgDelay _ | cfgTimeout _ =>
    cases h
    exact .of_same rfl

/-- Settles O18: the monitor accepts the actions of a command from any latches and guards, so from those it begins
with. -/
theorem samplesAndQueriesAreDisciplined : Obligations.SamplesAndQueriesAreDisciplined := by
  intro i s t h
  obtain ⟨ts, trace, accepted⟩ := exec_disciplined h
  exact ⟨ts, trace, accepted _⟩

end Sys2Proof.Machine

/-! ## The durations (R205, U4) -/

namespace Sys2Proof.Machine

@[simp] theorem bare_bare (k : Token) : k.bare.bare = k.bare := by
  cases k <;> rfl

theorem withoutDurations_idem (s : State) : s.withoutDurations.withoutDurations = s.withoutDurations := by
  simp [State.withoutDurations]

/-- An action from a state without its durations: the trace gets it without its own. -/
theorem emit_withoutDurations {k k' : Token} {s u : State} (bare : k' = k.bare) (same : u = s.withoutDurations) :
    emit k' u = (emit k s).withoutDurations := by
  simp [State.withoutDurations, emit, bare, same]

theorem withoutDurations_mask : TransactionMask State.withoutDurations where
  env _ := rfl
  sr _ := rfl
  bitcnt _ := rfl
  draws _ := rfl
  dataPath _ _ _ _ := rfl
  sdaLow _ := emit_withoutDurations rfl rfl
  sdaRelease _ := emit_withoutDurations rfl rfl
  sclLow _ := emit_withoutDurations rfl rfl
  sclRelease _ := emit_withoutDurations rfl rfl
  bitDelay s := by
    rw [bitDelay, bitDelay, apply_ite (Except.map State.withoutDurations)]
    exact if_congr Iff.rfl (congrArg Except.ok (emit_withoutDurations rfl rfl)) rfl
  readSda _ := emit_withoutDurations rfl rfl
  readScl _ := emit_withoutDurations rfl rfl
  tgStart _ _ := emit_withoutDurations rfl rfl
  tgExpired _ _ := emit_withoutDurations rfl rfl
  respond _ _ := rfl
  taddr _ := rfl
  stopDeferred _ := rfl
  txlen _ := rfl
  rxlen _ := rfl
  params _ := rfl
  txByte _ _ := rfl
  setTxpos _ _ := rfl
  releaseTxpos _ := rfl
  enqueueRx _ _ := rfl
  close _ _ := rfl

/-- Every command but the two that write a duration does the same without them. -/
theorem exec_commutes_withoutDurations {i : Instr} (hd : ∀ dur, i ≠ .cfgDelay dur) (ht : ∀ dur, i ≠ .cfgTimeout dur)
    (s : State) : exec i s.withoutDurations = mapNext State.withoutDurations (exec i s) := by
  by_cases hi : i.isBusPrimitive = true
  · exact withoutDurations_mask.exec_busPrimitive hi s
  cases i with
  | endTx sendStop => exact withoutDurations_mask.exec_endTx sendStop s
  | reqFrom addr count sendStop =>
    have opened : openRequest addr s.withoutDurations = (openRequest addr s).withoutDurations := rfl
    rw [exec_reqFrom, exec_reqFrom, opened, withoutDurations_mask.serveRequest, finish_map]
  | txPut data =>
    rw [exec, exec, execTxPut, execTxPut, apply_ite (mapNext State.withoutDurations)]
    rfl
  | rxGet =>
    rw [exec, exec, execRxGet, execRxGet, apply_ite (mapNext State.withoutDurations)]
    rfl
  | rxPeek =>
    rw [exec, exec, execRxPeek, execRxPeek, apply_ite (mapNext State.withoutDurations)]
    rfl
  | init =>
    rw [exec, execInit, withoutDurations_mask.sclRelease, withoutDurations_mask.sdaRelease]
    rfl
  | cfgDelay dur => exact absurd rfl (hd dur)
  | cfgTimeout dur => exact absurd rfl (ht dur)
  | beginTx _ | rxAvail | cfgPullups _ => rfl
  | _ => exact absurd rfl hi

theorem exec_withoutDurations (i : Instr) (s : State) :
    mapNext State.withoutDurations (exec i s.withoutDurations) = mapNext State.withoutDurations (exec i s) := by
  have configures : mapNext State.withoutDurations (.next (respond respDone s.withoutDurations)) =
      mapNext State.withoutDurations (.next (respond respDone s)) :=
    congrArg (fun u => Host.Outcome.next (respond respDone u)) (withoutDurations_idem s)
  cases i with
  | cfgDelay dur => exact configures
  | cfgTimeout dur => exact configures
  | _ =>
    rw [exec_commutes_withoutDurations (by simp) (by simp)]
    exact mapNext_idem withoutDurations_idem _

/-- Settles O21: both sides are the command from the state without its durations. -/
theorem durationsAreOnlyPresented : Obligations.DurationsAreOnlyPresented := by
  intro i s d t
  calc mapNext State.withoutDurations (exec i { s with delay := d, timeout := t })
      = mapNext State.withoutDurations (exec i s.withoutDurations) := (exec_withoutDurations i _).symm
    _ = mapNext State.withoutDurations (exec i s) := exec_withoutDurations i s

end Sys2Proof.Machine

/-! ## Every command ends where guards expire and delays are done (R208) -/

namespace Sys2Proof.Machine

theorem AppendsActions.live {s t : State} (h : AppendsActions s t) (live : s.env.Live) : t.env.Live := by
  obtain ⟨ts, -, -, env⟩ := h
  rw [env]
  exact live_actions live ts

theorem finish_status_completes {op : State → Except Fault (Status × State)} {s : State}
    (h : ∃ r t, op s = .ok (r, t)) :
    ∃ t, finish (op s >>= fun p => .ok (respond (respStatus p.1) p.2)) = .next t := by
  obtain ⟨r, t, hop⟩ := h
  exact ⟨_, finish_status_ok hop⟩

theorem receive_completes (addr : Addr) (count : BitVec 8) {s : State} (live : s.env.Live) :
    ∃ t, receive addr count s = .ok t := by
  obtain ⟨r, a, addressed⟩ := opTstart_completes (rawByte addr .read) live
  obtain ⟨ts, -, opened, -⟩ := opTstart_run addressed
  rw [receive_eq, addressed, ok_bind]
  split
  · exact receiveBytes_completes _ (opened.live live)
  · exact ⟨a, rfl⟩

theorem exec_endTx_completes (sendStop : Bool) {s : State} (live : s.env.Live) :
    ∃ t, exec (.endTx sendStop) s = .next t := by
  obtain ⟨code, a, sent⟩ := transmit_completes live
  obtain ⟨-, _, _, _, -, run, -⟩ := transmit_run sent
  obtain ⟨b, ended⟩ := endTransaction_completes sendStop (run.live live)
  exact ⟨_, exec_endTx_next.mpr ⟨code, a, b, sent, ended, rfl⟩⟩

theorem exec_reqFrom_completes (addr : Addr) (count : BitVec 8) (sendStop : Bool) {s : State} (live : s.env.Live) :
    ∃ t, exec (.reqFrom addr count sendStop) s = .next t := by
  have opened : (openRequest addr s).env.Live := live
  obtain ⟨a, received⟩ := receive_completes addr count opened
  obtain ⟨b, ended⟩ := endTransaction_completes sendStop ((receive_appends received).live opened)
  exact ⟨_, exec_reqFrom_next.mpr ⟨a, b, received, ended, rfl⟩⟩

theorem exec_completes (i : Instr) {s : State} (live : s.env.Live) : ∃ t, exec i s = .next t := by
  cases i with
  | stop stretch => exact finish_status_completes (opStop_completes stretch live)
  | startRaw raw => exact finish_status_completes (opStart_completes raw live)
  | rstartRaw raw => exact finish_status_completes (opRstart_completes raw live)
  | startwRaw raw => exact finish_status_completes (opStartWait_completes raw live)
  | start addr mode => exact finish_status_completes (opStart_completes _ live)
  | rstart addr mode => exact finish_status_completes (opRstart_completes _ live)
  | startw addr mode => exact finish_status_completes (opStartWait_completes _ live)
  | write data => exact finish_status_completes (opWrite_completes data live)
  | read sendAck =>
    obtain ⟨r, byte, t, read⟩ := opRead_completes sendAck live
    exact ⟨_, exec_read_next.mpr ⟨r, byte, t, read, rfl⟩⟩
  | endTx sendStop => exact exec_endTx_completes sendStop live
  | reqFrom addr count sendStop => exact exec_reqFrom_completes addr count sendStop live
  | txPut data | rxGet | rxPeek =>
    simp only [exec, execTxPut, execRxGet, execRxPeek]
    split <;> exact ⟨_, rfl⟩
  | beginTx _ | rxAvail | cfgPullups _ | cfgDelay _ | cfgTimeout _ | init => exact ⟨_, rfl⟩

/-- Settles O22: every operation ends, and the answers it took leave the premise. -/
theorem everyCommandEndsWhenGuardsExpire : Obligations.EveryCommandEndsWhenGuardsExpire := by
  intro i s live
  obtain ⟨t, ends⟩ := exec_completes i live
  exact ⟨t, ends, (exec_appends ends).live live⟩

/-- A presented word ends too, a command or not (R67). -/
theorem runCommand_live (w : CmdWord) {s : State} (live : s.env.Live) :
    ∃ t, runCommand w s = .next t ∧ t.env.Live := by
  cases hd : decode w with
  | ok i =>
    rw [runCommand_decoded hd]
    exact everyCommandEndsWhenGuardsExpire i s live
  | error e => exact ⟨_, runCommand_illegal hd s, live⟩

/-- A reset during a command leaves the environment after the actions that were performed (R221). -/
theorem presentResetDuring_live (w : CmdWord) (n : Nat) (rest : List HostEvent) {s : State} (live : s.env.Live) :
    (presentResetDuring w n rest s).env.Live := by
  cases hb : s.busy with
  | true =>
    rw [presentResetDuring, if_pos hb]
    exact live
  | false =>
    rw [presentResetDuring_ready hb]
    exact live_actions (e := s.env) live _

/-- Every event at the port keeps the liveness premise. -/
theorem step_live {s : State} (live : s.env.Live) : ∃ t, step s = .next t ∧ t.env.Live := by
  match hh : s.host with
  | [] => exact ⟨s, step_idle hh, live⟩
  | .command w :: rest =>
    rw [step_command hh]
    cases hb : s.busy with
    | true => exact ⟨s, presentCommand_busy hb w rest, live⟩
    | false =>
      rw [presentCommand_ready hb]
      exact runCommand_live w live
  | .reset :: rest => exact ⟨_, step_reset hh, live⟩
  | .resetDuring w n :: rest => exact ⟨_, step_resetDuring hh, presentResetDuring_live w n rest live⟩

/-- Settles O23, by induction on the number of steps: each keeps the premise. -/
theorem runsAreSafeWhenGuardsExpire : Obligations.RunsAreSafeWhenGuardsExpire := by
  intro k
  induction k with
  | zero => exact fun _ _ => trivial
  | succ k ih =>
    intro s live
    obtain ⟨t, stepped, live'⟩ := step_live live
    exact ⟨t, stepped, ih t live'⟩

end Sys2Proof.Machine

/-! ## The three ways a command is stuck (U9, R208) -/

namespace Sys2Proof.Machine

/-- Where the environment satisfies `P`, every bus operation that waits for the clock is stuck with the fault `f`. -/
structure Halts (P : Env → Prop) (f : Fault) : Prop where
  stop {s : State} : P s.env → opStop true s = .error f
  write {s : State} (data : Byte) : P s.env → opWrite data s = .error f
  read {s : State} (sendAck : Bool) : P s.env → opRead sendAck s = .error f
  start {s : State} (raw : Byte) : P s.env → opStart raw s = .error f
  rstart {s : State} (raw : Byte) : P s.env → opRstart raw s = .error f
  /-- A query of GO leaves the environment so. -/
  asked {e : Env} : P e → P (e.afterQuery .go)

theorem finish_status_stuck {op : State → Except Fault (Status × State)} {s : State} {f : Fault}
    (h : op s = .error f) :
    finish (op s >>= fun p => .ok (respond (respStatus p.1) p.2)) = .fault f := by
  rw [h]
  rfl

namespace Halts

variable {P : Env → Prop} {f : Fault} (halts : Halts P f)
include halts

theorem startWait {s : State} (h : P s.env) (running : s.env.go.head = false) (raw : Byte) :
    opStartWait raw s = .error f := by
  have stuck : opStart raw (tgExpired .go (tgStart .go s)).2 = .error f := halts.start raw (halts.asked h)
  rw [opStartWait, retryFuel, startWaitLoop_attempt (s := tgStart .go s) running, stuck, error_bind]

theorem tstart {s : State} (h : P s.env) (raw : Byte) : opTstart raw s = .error f := by
  unfold opTstart
  split
  · exact halts.rstart raw h
  · exact halts.start raw h

/-- Every command that waits for the clock is stuck in its first operation. -/
theorem exec {s : State} (h : P s.env) {i : Instr} (waits : i.waitsForClock = true)
    (running : i.asksOuterGuard = true → s.env.go.head = false) : exec i s = .fault f := by
  cases i with
  | stop stretch =>
    obtain rfl : stretch = true := waits
    exact finish_status_stuck (halts.stop h)
  | startRaw raw => exact finish_status_stuck (halts.start raw h)
  | rstartRaw raw => exact finish_status_stuck (halts.rstart raw h)
  | startwRaw raw => exact finish_status_stuck (halts.startWait h (running rfl) raw)
  | start addr mode => exact finish_status_stuck (halts.start _ h)
  | rstart addr mode => exact finish_status_stuck (halts.rstart _ h)
  | startw addr mode => exact finish_status_stuck (halts.startWait h (running rfl) _)
  | write data => exact finish_status_stuck (halts.write data h)
  | read sendAck =>
    rw [Machine.exec, execRead, halts.read sendAck h]
    rfl
  | endTx sendStop =>
    rw [Machine.exec, execEndTx, transmit, halts.tstart h]
    rfl
  | reqFrom addr count sendStop =>
    have addressed := halts.tstart (s := openRequest addr s) h (rawByte addr .read)
    rw [exec_reqFrom, serveRequest, receive, addressed]
    rfl
  | _ => cases waits

end Halts

/-! ### A clock that never rises -/

/-- The clock never rises and the guard never expires, but every delay is done. -/
structure Env.ClockHeld (e : Env) : Prop where
  scl : e.scl.AllAre false
  gp : e.gp.AllAre false
  delays : e.delayDone.AllAre true

theorem BusRun.clockHeld {s t : State} {ts : List Token} (run : BusRun s t ts) (h : s.env.ClockHeld) :
    t.env.ClockHeld :=
  ⟨run.allAre (i := .scl) h.scl, run.allAre (i := .gp) h.gp, run.allAre (i := .delay) h.delays⟩

theorem waitSclHigh_held {s : State} (h : s.env.ClockHeld) : waitSclHigh .gp s = .error .clockNeverRises :=
  waitSclHigh_stuck h.scl h.gp

/-- Actions that only wait are granted where every delay is done. -/
theorem grants_delays {e : Env} (delays : e.delayDone.AllAre true) {ts : List Token}
    (only : ∀ i, i ≠ .delay → answers ts i = []) : e.Grants ts := by
  intro i
  by_cases hi : i = .delay
  · subst hi
    exact allAre_begins delays (answers_delays_done ts)
  · rw [only i hi]
    exact begins_nil _

theorem opStop_held {s : State} (h : s.env.ClockHeld) : opStop true s = .error .clockNeverRises := by
  obtain ⟨a, opened, run⟩ := stopOpen_granted (s := tgStart .gp s) (ts := [])
    (grants_delays h.delays fun i hi => by simp [hi])
  rw [opStop_stretch_eq, opened, ok_bind, waitSclHigh_held (run.clockHeld h), error_bind]

theorem readBits_held (n : Nat) {s : State} (h : s.env.ClockHeld) :
    readBits (n + 1) s = .error .clockNeverRises := by
  obtain ⟨a, ha⟩ : ∃ a, bitDelay (sdaRelease (sclLow { s with bitcnt := BitVec.ofNat 4 (n + 1) })) = .ok a :=
    ⟨_, bitDelay_done (allAre_head h.delays)⟩
  have first := (bitDelay_run ha).2.1.clockHeld h
  obtain ⟨b, hb⟩ : ∃ b, bitDelay (sclRelease a) = .ok b := ⟨_, bitDelay_done (allAre_head first.delays)⟩
  have second := (bitDelay_run hb).2.1.clockHeld first
  rw [readBits_succ, ha, ok_bind, hb, ok_bind, waitSclHigh_held second, error_bind]

theorem opRead_held (sendAck : Bool) {s : State} (h : s.env.ClockHeld) :
    opRead sendAck s = .error .clockNeverRises := by
  rw [opRead_eq, readBits_held 7 (s := { tgStart .gp s with sr := 0 }) h, error_bind]

theorem opWrite_held (data : Byte) {s : State} (h : s.env.ClockHeld) : opWrite data s = .error .clockNeverRises :=
  opWrite_stuck h.delays h.gp h.scl data

theorem opRstart_held (raw : Byte) {s : State} (h : s.env.ClockHeld) : opRstart raw s = .error .clockNeverRises := by
  obtain ⟨a, opened, goes⟩ := opRstart_opens (ts := [])
    (grants_delays (ts := rstartTokens s.delay ++ []) h.delays fun i hi => by simp [answers_rstartTokens, hi])
  rw [goes, opWrite_held raw (opened.clockHeld h)]

theorem halts_clockHeld : Halts Env.ClockHeld .clockNeverRises where
  stop := opStop_held
  write data h := opWrite_held data h
  read sendAck h := opRead_held sendAck h
  start raw h := opStart_stuck h.delays h.gp h.scl raw
  rstart raw h := opRstart_held raw h
  asked h := ⟨h.scl, h.gp, h.delays⟩

/-! ### A delay that is never done -/

theorem bitDelay_stuck {s : State} (h : s.env.delayDone.head = false) : bitDelay s = .error .delayNeverDone := by
  simp [bitDelay, h]

theorem stopOpen_stuck {s : State} (h : s.env.delayDone.head = false) : stopOpen s = .error .delayNeverDone := by
  rw [stopOpen, bitDelay_stuck (s := sclLow s) h, error_bind]

@[simp] theorem sdaBit_env (b : Bool) (s : State) : (sdaBit b s).env = s.env := by
  cases b <;> rfl

theorem writeBits_stuck (n : Nat) {s : State} (h : s.env.delayDone.head = false) :
    writeBits (n + 1) s = .error .delayNeverDone := by
  rw [writeBits_succ, bitDelay_stuck, error_bind]
  rw [sdaBit_env]
  exact h

theorem readBits_stuck (n : Nat) {s : State} (h : s.env.delayDone.head = false) :
    readBits (n + 1) s = .error .delayNeverDone := by
  rw [readBits_succ, bitDelay_stuck (s := sdaRelease (sclLow { s with bitcnt := BitVec.ofNat 4 (n + 1) })) h,
    error_bind]

/-- Every operation reaches a delay before anything the environment decides. -/
theorem halts_delay : Halts (fun e => e.delayDone.head = false) .delayNeverDone where
  stop {s} h := by rw [opStop_stretch_eq, stopOpen_stuck (s := tgStart .gp s) h]; rfl
  write {s} data h := by rw [opWrite_eq, writeBits_stuck 7 (s := { tgStart .gp s with sr := data }) h, error_bind]
  read {s} sendAck h := by rw [opRead_eq, readBits_stuck 7 (s := { tgStart .gp s with sr := 0 }) h, error_bind]
  start {s} raw h := by rw [opStart, bitDelay_stuck (s := sdaLow s) h, error_bind]
  rstart {s} raw h := by rw [opRstart, bitDelay_stuck (s := sdaRelease s) h, error_bind]
  asked h := h

theorem opStop_forced_stuck {s : State} (h : s.env.delayDone.head = false) :
    opStop false s = .error .delayNeverDone := by
  simp [opStop, opStopForced, stopOpen_stuck h]

/-! ### Every attempt refused -/

theorem opStartWait_stuck {s : State} (quiet : s.env.Quiet) (sda : s.env.sda.AllAre true)
    (go : s.env.go.AllAre false) (raw : Byte) : opStartWait raw s = .error .retryNeverEnds :=
  startWaitLoop_stuck (s := tgStart .go s) quiet sda go raw _

/-- Settles O26: in the first two environments every operation that waits for the clock is stuck, so every command made
of them is; in the third every attempt of START-with-wait is refused. -/
theorem stuckWithoutLiveness : Obligations.StuckWithoutLiveness := by
  refine ⟨fun s i scl gp delays waits running => ?_, fun s i undone waits running => ?_,
    fun s i quiet sda go outer => ?_⟩
  · exact halts_clockHeld.exec ⟨scl, gp, delays⟩ waits running
  · rcases waits with waits | rfl
    · exact halts_delay.exec undone waits running
    · exact finish_status_stuck (opStop_forced_stuck undone)
  · cases i with
    | startwRaw raw => exact finish_status_stuck (opStartWait_stuck quiet sda go raw)
    | startw addr mode => exact finish_status_stuck (opStartWait_stuck quiet sda go _)
    | _ => cases outer

end Sys2Proof.Machine

/-! ## A clock that is stuck low: the timeout, and the STOP at the end (R192, R199, R208) -/

namespace Sys2Proof.Machine

/-! ### The result of each operation -/

/-- A clock that never reads high is not seen high. -/
theorem waitLoop_low {g : Guard} {n : Nat} {s t : State} {risen : Bool} (low : s.env.scl.AllAre false)
    (h : waitLoop g n s = .ok (risen, t)) : risen = false := by
  induction n generalizing s with
  | zero => cases h
  | succ n ih =>
    cases asked : (s.env.guard g).head with
    | false =>
      rw [waitLoop_goes_on (allAre_head low) asked] at h
      exact ih (by simpa using allAre_tail low) h
    | true =>
      rw [waitLoop_succ, readScl_guard, allAre_head low, asked] at h
      obtain ⟨u, -, he⟩ := bind_ok.mp h
      cases he
      rfl

theorem waitSclHigh_low {s t : State} {risen : Bool} (low : s.env.scl.AllAre false)
    (h : waitSclHigh .gp s = .ok (risen, t)) : risen = false :=
  waitLoop_low low h

theorem BusRun.scl_low {s t : State} {ts : List Token} (run : BusRun s t ts) (low : s.env.scl.AllAre false) :
    t.env.scl.AllAre false :=
  run.allAre (i := .scl) low

theorem opStop_low {s t : State} {r : Status} (low : s.env.scl.AllAre false) (h : opStop true s = .ok (r, t)) :
    r = .timedOut := by
  simp only [opStop_stretch_eq, bind_ok] at h
  obtain ⟨⟨risen, b⟩, ⟨a, opened, waited⟩, h⟩ := h
  obtain rfl := waitSclHigh_low ((stopOpen_run opened).1.scl_low low) waited
  cases h
  rfl

theorem writeAck_low {s t : State} {r : Status} (low : s.env.scl.AllAre false) (h : writeAck s = .ok (r, t)) :
    r = .timedOut := by
  simp only [writeAck_eq, bind_ok] at h
  obtain ⟨a, delayed, ⟨risen, b⟩, waited, h⟩ := h
  obtain rfl := waitSclHigh_low (s := sclRelease a) ((bitDelay_run delayed).2.1.scl_low low) waited
  cases h
  rfl

theorem opWrite_low {data : Byte} {s t : State} {r : Status} (low : s.env.scl.AllAre false)
    (h : opWrite data s = .ok (r, t)) : r = .timedOut := by
  rw [opWrite_eq] at h
  obtain ⟨⟨sent, a⟩, bits, h⟩ := bind_ok.mp h
  cases sent with
  | false =>
    cases h
    rfl
  | true =>
    rcases writeBits_run bits with ⟨-, run, -⟩ | ⟨cut, -⟩
    · exact writeAck_low (run.scl_low low) h
    · cases cut

theorem readBits_low {n : Nat} {s t : State} {received : Bool} (low : s.env.scl.AllAre false)
    (h : readBits (n + 1) s = .ok (received, t)) : received = false := by
  simp only [readBits_succ, bind_ok] at h
  obtain ⟨a, first, b, second, ⟨risen, c⟩, waited, h⟩ := h
  have low' := (bitDelay_run second).2.1.scl_low ((bitDelay_run first).2.1.scl_low low)
  obtain rfl := waitSclHigh_low low' waited
  cases h
  rfl

theorem opRead_low {sendAck : Bool} {s t : State} {r : Status} {byte : Byte} (low : s.env.scl.AllAre false)
    (h : opRead sendAck s = .ok (r, byte, t)) : r = .timedOut := by
  rw [opRead_eq] at h
  obtain ⟨⟨received, a⟩, bits, h⟩ := bind_ok.mp h
  obtain rfl := readBits_low (s := { tgStart .gp s with sr := 0 }) low bits
  cases h
  rfl

/-! ### The STOP at the end -/

/-- `t` is `s` after a bus operation that ended with the forced STOP. -/
def ForcesStop (s t : State) : Prop := ∃ ts, BusRun s t ts ∧ stopTokens s.delay <:+ ts

theorem ForcesStop.after {s a t : State} {ts : List Token} (run : BusRun s a ts) (h : ForcesStop a t) :
    ForcesStop s t := by
  obtain ⟨us, rest, suffix⟩ := h
  rw [run.off.delay] at suffix
  exact ⟨_, run.trans rest, suffix.trans (List.suffix_append ts us)⟩

theorem ForcesStop.wires {s t : State} (h : ForcesStop s t) : t.wires = ⟨.rel, .rel⟩ := by
  obtain ⟨_, run, before, rfl⟩ := h
  rw [run.wires, run_append, run_stopTokens]

theorem StopShape.stop_suffix {d t : Duration} {ts : List Token} (h : StopShape d t .timedOut ts) :
    stopTokens d <:+ ts := by
  cases h with
  | @expired low hl =>
    exact ⟨.tgStart .gp t :: .sclLow :: .delay d :: .sdaLow :: .delay d :: .sclRelease ::
      (low ++ [.readScl false, .tgQuery .gp true]), by simp [waitEnd]⟩

theorem opStop_timesOut {s t : State} {r : Status} (low : s.env.scl.AllAre false)
    (h : opStop true s = .ok (r, t)) : r = .timedOut ∧ ForcesStop s t := by
  obtain rfl := opStop_low low h
  obtain ⟨_, shape, run⟩ := opStop_shape h
  exact ⟨rfl, _, run, shape.stop_suffix⟩

theorem opWrite_timesOut {data : Byte} {s t : State} {r : Status} (low : s.env.scl.AllAre false)
    (h : opWrite data s = .ok (r, t)) : r = .timedOut ∧ ForcesStop s t := by
  obtain rfl := opWrite_low low h
  obtain ⟨_, shape, run, -⟩ := opWrite_shape h
  obtain ⟨before, rfl⟩ := shape.endsWithStop
  exact ⟨rfl, _, run, List.suffix_append before _⟩

theorem opRead_timesOut {sendAck : Bool} {s t : State} {r : Status} {byte : Byte} (low : s.env.scl.AllAre false)
    (h : opRead sendAck s = .ok (r, byte, t)) : r = .timedOut ∧ ForcesStop s t := by
  obtain rfl := opRead_low low h
  obtain ⟨_, _, shape, run, -⟩ := opRead_shape h
  obtain ⟨before, rfl⟩ := shape.endsWithStop
  exact ⟨rfl, _, run, List.suffix_append before _⟩

/-- A byte write that times out, after the opening of an address phase. -/
theorem opWrite_timesOut_after {raw : Byte} {s a t : State} {r : Status} {ts : List Token} (run : BusRun s a ts)
    (low : s.env.scl.AllAre false) (h : opWrite raw a = .ok (r, t)) : r = .timedOut ∧ ForcesStop s t :=
  (opWrite_timesOut (run.scl_low low) h).imp_right (.after run)

theorem opStart_timesOut {raw : Byte} {s t : State} {r : Status} (low : s.env.scl.AllAre false)
    (h : opStart raw s = .ok (r, t)) : r = .timedOut ∧ ForcesStop s t := by
  simp only [opStart, bind_ok] at h
  obtain ⟨a, ha, b, hb, written⟩ := h
  have fallen := (busRun_sdaLow s).trans (bitDelay_run ha).2.1
  exact opWrite_timesOut_after (fallen.trans ((busRun_sclLow a).trans (bitDelay_run hb).2.1)) low written

theorem opRstart_timesOut {raw : Byte} {s t : State} {r : Status} (low : s.env.scl.AllAre false)
    (h : opRstart raw s = .ok (r, t)) : r = .timedOut ∧ ForcesStop s t := by
  simp only [opRstart, bind_ok] at h
  obtain ⟨a, ha, b, hb, c, hc, written⟩ := h
  have released := (busRun_sdaRelease s).trans (bitDelay_run ha).2.1
  have risen := released.trans ((busRun_sclRelease a).trans (bitDelay_run hb).2.1)
  exact opWrite_timesOut_after (risen.trans ((busRun_sdaLow b).trans (bitDelay_run hc).2.1)) low written

theorem opTstart_timesOut {raw : Byte} {s t : State} {r : Status} (low : s.env.scl.AllAre false)
    (h : opTstart raw s = .ok (r, t)) : r = .timedOut ∧ ForcesStop s t := by
  unfold opTstart at h
  split at h
  · exact opRstart_timesOut low h
  · exact opStart_timesOut low h

/-- The first attempt of START-with-wait times out, and its ordinary STOP does too (R99, R201). -/
theorem opStartWait_timesOut {raw : Byte} {s t : State} {r : Status} (low : s.env.scl.AllAre false)
    (running : s.env.go.head = false) (h : opStartWait raw s = .ok (r, t)) : r = .timedOut ∧ ForcesStop s t := by
  rw [opStartWait, retryFuel, startWaitLoop_attempt (s := tgStart .go s) running] at h
  obtain ⟨⟨status, a⟩, started, h⟩ := bind_ok.mp h
  have asked := (busRun_tgStart .go s).trans (busRun_tgExpired .go _)
  obtain ⟨rfl, forced⟩ := opStart_timesOut (asked.scl_low low) started
  obtain ⟨ts, run, -⟩ := forced.after asked
  obtain ⟨⟨_, b⟩, stopped, h⟩ := bind_ok.mp h
  cases h
  exact ⟨rfl, (opStop_timesOut (run.scl_low low) stopped).2.after run⟩

/-! ### Transactions -/

theorem transmit_timesOut {s t : State} {code : TxStatus} (low : s.env.scl.AllAre false)
    (h : transmit s = .ok (code, t)) : code = .other ∧ ForcesStop s t := by
  rw [transmit_eq] at h
  obtain ⟨⟨r, a⟩, addressed, h⟩ := bind_ok.mp h
  obtain ⟨rfl, forced⟩ := opTstart_timesOut low addressed
  cases h
  exact ⟨rfl, forced⟩

theorem receive_timesOut {addr : Addr} {count : BitVec 8} {s t : State} (low : s.env.scl.AllAre false)
    (h : receive addr count s = .ok t) : ForcesStop s t := by
  rw [receive_eq] at h
  obtain ⟨⟨r, a⟩, addressed, h⟩ := bind_ok.mp h
  obtain ⟨rfl, forced⟩ := opTstart_timesOut low addressed
  cases h
  exact forced

/-- The end of a transaction adds a STOP of its own, which times out too, or nothing. -/
theorem ForcesStop.endTransaction {sendStop : Bool} {s a t : State} (h : ForcesStop s a)
    (low : s.env.scl.AllAre false) (ended : endTransaction sendStop a = .ok t) :
    ∃ u, ForcesStop s u ∧ t = { u with stopDeferred := !sendStop, phase := .idle } := by
  cases sendStop with
  | false =>
    cases ended
    exact ⟨a, h, rfl⟩
  | true =>
    simp only [Machine.endTransaction, if_true, bind_ok, Except.ok.injEq] at ended
    obtain ⟨u, ⟨⟨r, b⟩, stopped, rfl⟩, rfl⟩ := ended
    obtain ⟨ts, run, -⟩ := h
    exact ⟨b, (opStop_timesOut (run.scl_low low) stopped).2.after run, rfl⟩

/-! ### Every command that waits for the clock -/

/-- The command has reported `w`, and its actions end with the forced STOP. -/
def ReportsTimeout (w : RespWord) (s t : State) : Prop :=
  t.resp = some w ∧ ∃ ts, t.trace = s.trace ++ ts ∧ stopTokens s.delay <:+ ts ∧ t.wires = ⟨.rel, .rel⟩

theorem ForcesStop.reports {s u t : State} {w : RespWord} (h : ForcesStop s u) (resp : t.resp = some w)
    (trace : t.trace = u.trace) (wires : t.wires = u.wires) : ReportsTimeout w s t := by
  have released := h.wires
  obtain ⟨ts, run, suffix⟩ := h
  exact ⟨resp, ts, trace.trans run.trace, suffix, wires.trans released⟩

theorem finish_status_reports {op : State → Except Fault (Status × State)} {s t : State}
    (timesOut : ∀ {r u}, op s = .ok (r, u) → r = .timedOut ∧ ForcesStop s u)
    (h : finish (op s >>= fun p => .ok (respond (respStatus p.1) p.2)) = .next t) : ReportsTimeout 0x0200 s t := by
  obtain ⟨r, u, hop, rfl⟩ := finish_status_next.mp h
  obtain ⟨rfl, forced⟩ := timesOut hop
  exact forced.reports rfl rfl rfl

theorem exec_reports_timeout {i : Instr} {s t : State} (low : s.env.scl.AllAre false) (waits : i.waitsForClock = true)
    (running : i.asksOuterGuard = true → s.env.go.head = false) (h : exec i s = .next t) :
    ReportsTimeout i.timeoutReport s t := by
  cases i with
  | stop stretch =>
    obtain rfl : stretch = true := waits
    exact finish_status_reports (opStop_timesOut low) h
  | startRaw raw => exact finish_status_reports (opStart_timesOut low) h
  | rstartRaw raw => exact finish_status_reports (opRstart_timesOut low) h
  | startwRaw raw => exact finish_status_reports (opStartWait_timesOut low (running rfl)) h
  | start addr mode => exact finish_status_reports (opStart_timesOut low) h
  | rstart addr mode => exact finish_status_reports (opRstart_timesOut low) h
  | startw addr mode => exact finish_status_reports (opStartWait_timesOut low (running rfl)) h
  | write data => exact finish_status_reports (opWrite_timesOut low) h
  | read sendAck =>
    obtain ⟨r, byte, u, read, rfl⟩ := exec_read_next.mp h
    obtain ⟨rfl, forced⟩ := opRead_timesOut low read
    exact forced.reports rfl rfl rfl
  | endTx sendStop =>
    obtain ⟨code, a, b, sent, ended, rfl⟩ := exec_endTx_next.mp h
    obtain ⟨rfl, forced⟩ := transmit_timesOut low sent
    obtain ⟨u, forced', rfl⟩ := forced.endTransaction low ended
    exact forced'.reports rfl rfl rfl
  | reqFrom addr count sendStop =>
    obtain ⟨a, b, received, ended, rfl⟩ := exec_reqFrom_next.mp h
    have opened : (openRequest addr s).env.scl.AllAre false := low
    obtain ⟨u, forced, rfl⟩ := (receive_timesOut opened received).endTransaction opened ended
    have none : u.rxlen = 0 := by
      obtain ⟨ts, run, -⟩ := forced
      exact run.off.rxlen
    exact forced.reports (congrArg (fun n => some (respData n)) none) rfl rfl
  | _ => cases waits

/-- Settles O44: a live environment lets the command end (O22), and on the stuck clock it ends with the timeout. -/
theorem stuckClockTimesOutWithStop : Obligations.StuckClockTimesOutWithStop := by
  intro i s live low waits running
  obtain ⟨t, ends⟩ := exec_completes i live
  obtain ⟨resp, ts, trace, suffix, wires⟩ := exec_reports_timeout low waits running ends
  exact ⟨t, ts, ends, trace, resp, suffix, wires⟩

end Sys2Proof.Machine

/-! ## Reset between two commands (R220) -/

namespace Sys2Proof.Machine

/-- Settles O10: reset writes the table of R34 and leaves the trace alone. -/
theorem resetSetsTheTable : Obligations.ResetSetsTheTable := fun _ _ hh =>
  ⟨_, step_reset hh, rfl, rfl, rfl, rfl, rfl, rfl, rfl, rfl, rfl, rfl, rfl, rfl, rfl, rfl, rfl, rfl, rfl, rfl⟩

end Sys2Proof.Machine

/-! ## Commands do not look ahead: two runs of one command part only at an answer (R49) -/

namespace Sys2Proof.Machine

/-! ### Lists of actions that part at an answer -/

/-- Two lists of actions that are alike up to a question that has been answered differently. -/
inductive Parts : List Token → List Token → Prop where
  | now {x y : Token} {xs ys : List Token} {i : Input} {b : Bool} (asks : x.answers i = [b])
      (asks' : y.answers i = [!b]) : Parts (x :: xs) (y :: ys)
  | later (k : Token) {xs ys : List Token} (h : Parts xs ys) : Parts (k :: xs) (k :: ys)

theorem Parts.append {xs ys : List Token} (h : Parts xs ys) (us vs : List Token) : Parts (xs ++ us) (ys ++ vs) := by
  induction h with
  | now asks asks' => exact .now asks asks'
  | later k _ ih => exact .later k ih

theorem Parts.prepend {xs ys : List Token} (h : Parts xs ys) (ts : List Token) : Parts (ts ++ xs) (ts ++ ys) := by
  induction ts with
  | nil => exact h
  | cons k ts ih => exact .later k ih

/-! ### Runs whose answers are the environment's -/

/-- `t` is `s` after the actions `ts`, which record the answers the environment gave (R47, R49). -/
structure Recorded (s t : State) (ts : List Token) : Prop where
  trace : t.trace = s.trace ++ ts
  env : t.env = ts.foldl Env.consume s.env
  granted : s.env.Grants ts

theorem Recorded.trans {a b c : State} {xs ys : List Token} (h : Recorded a b xs) (k : Recorded b c ys) :
    Recorded a c (xs ++ ys) where
  trace := by rw [k.trace, h.trace, List.append_assoc]
  env := by rw [k.env, h.env, List.foldl_append]
  granted := (grants_append _ _ _).mpr ⟨h.granted, h.env ▸ k.granted⟩

theorem BusRun.recorded {s t : State} {ts : List Token} (run : BusRun s t ts) (granted : s.env.Grants ts) :
    Recorded s t ts :=
  ⟨run.trace, run.env, granted⟩

/-- The state in another environment. -/
def State.under (s : State) (e : Env) : State := { s with env := e }

@[simp] theorem under_trace (s : State) (e : Env) : (s.under e).trace = s.trace := rfl
@[simp] theorem under_env (s : State) (e : Env) : (s.under e).env = e := rfl

/-- How two runs, from `s` and from `s'`, have ended: they parted at an answer, or they performed the same actions with
the same result, in states alike but for the environment. A result is a value and a state, put together by `mk`. -/
inductive Twins {α β : Type} (mk : α → State → β) (s s' : State) : β → β → Prop where
  | parted {a a' : α} {t t' : State} {ts ts' : List Token} (run : Recorded s t ts) (run' : Recorded s' t' ts')
      (parts : Parts ts ts') : Twins mk s s' (mk a t) (mk a' t')
  | together {a : α} {t : State} {e : Env} {ts : List Token} (run : Recorded s t ts)
      (run' : Recorded s' (t.under e) ts) : Twins mk s s' (mk a t) (mk a (t.under e))

theorem Twins.recorded {α β : Type} {mk : α → State → β} {s s' : State} {r r' : β} (h : Twins mk s s' r r') :
    ∃ a t ts, r = mk a t ∧ Recorded s t ts := by
  cases h with
  | parted run _ _ => exact ⟨_, _, _, rfl, run⟩
  | together run _ => exact ⟨_, _, _, rfl, run⟩

/-! ### Operations that do not look ahead -/

/-- Two runs of the operation that end, from states alike but for the environment, are twins. -/
def Causal {α β : Type} (mk : α → State → β) (op : State → Except Fault β) : Prop :=
  ∀ (s : State) (e : Env) ⦃r r' : β⦄, op s = .ok r → op (s.under e) = .ok r' → Twins mk s (s.under e) r r'

/-- The result of an operation that answers with a state alone. -/
def justState (_ : Unit) (s : State) : State := s

/-- One operation after another: runs that part in the first have parted, whatever the second does. -/
theorem Causal.bind {α β γ δ : Type} {mk : α → State → β} {mk' : γ → State → δ}
    {f : State → Except Fault β} {g : β → Except Fault δ} (hf : Causal mk f) (hg : ∀ a, Causal mk' fun s => g (mk a s)) :
    Causal mk' fun s => f s >>= g := by
  intro s e q q' hq hq'
  obtain ⟨r, first, second⟩ := bind_ok.mp hq
  obtain ⟨r', first', second'⟩ := bind_ok.mp hq'
  cases hf s e first first' with
  | @parted a a' t t' _ _ run run' parts =>
    obtain ⟨_, _, us, rfl, rest⟩ := (hg a t t.env second second).recorded
    obtain ⟨_, _, us', rfl, rest'⟩ := (hg a' t' t'.env second' second').recorded
    exact .parted (run.trans rest) (run'.trans rest') (parts.append us us')
  | @together a t e _ run run' =>
    cases hg a t e second second' with
    | parted rest rest' parts => exact .parted (run.trans rest) (run'.trans rest') (parts.prepend _)
    | together rest rest' => exact .together (run.trans rest) (run'.trans rest')

/-- An operation after a step that always goes on. -/
theorem Causal.comp {α β : Type} {mk : α → State → β} {g : State → Except Fault β} {act : State → State}
    (hg : Causal mk g) (hact : Causal justState fun s => .ok (act s)) : Causal mk fun s => g (act s) :=
  hact.bind (g := g) fun _ => hg

/-- A step that always goes on and does not look at the environment: it performs actions that ask nothing, or none. -/
theorem Causal.act {act : State → State} (ts : State → List Token) (run : ∀ s, Recorded s (act s) (ts s))
    (masked : ∀ s e, act (s.under e) = (act s).under e) (same : ∀ s e, ts (s.under e) = ts s) :
    Causal justState fun s => .ok (act s) := by
  intro s e r r' h h'
  cases h
  cases h'
  have run' := run (s.under e)
  rw [masked, same] at run'
  rw [masked]
  exact .together (mk := justState) (a := ()) (run s) run'

/-- Writing registers is no action. -/
theorem Recorded.of_same {s t : State} (trace : t.trace = s.trace) (env : t.env = s.env) : Recorded s t [] :=
  ⟨by rw [trace, List.append_nil], env, fun _ => rfl⟩

theorem Twins.of_same {s t : State} {e : Env} (trace : t.trace = s.trace) (env : t.env = s.env) :
    Twins justState s (s.under e) t (t.under e) :=
  .together (mk := justState) (a := ()) (.of_same trace env) (.of_same trace rfl)

/-- A step that writes only registers. -/
theorem Causal.writes {act : State → State} (masked : ∀ s e, act (s.under e) = (act s).under e)
    (trace : ∀ s, (act s).trace = s.trace) : Causal justState fun s => .ok (act s) := by
  intro s e r r' h h'
  cases h
  cases h'
  rw [masked]
  exact .of_same (trace s) (congrArg State.env (masked s s.env) :)

/-- An operation that only answers with a value. -/
theorem Causal.pure {α β : Type} (mk : α → State → β) (a : α) : Causal mk fun s => .ok (mk a s) := by
  intro s e r r' h h'
  cases h
  cases h'
  exact .together (.of_same rfl rfl) (.of_same rfl rfl)

theorem causal_sdaLow : Causal justState fun s => .ok (sdaLow s) :=
  .act (fun _ => [.sdaLow]) (fun s => (busRun_sdaLow s).recorded fun _ => rfl) (fun _ _ => rfl) fun _ _ => rfl
theorem causal_sdaRelease : Causal justState fun s => .ok (sdaRelease s) :=
  .act (fun _ => [.sdaRelease]) (fun s => (busRun_sdaRelease s).recorded fun _ => rfl) (fun _ _ => rfl) fun _ _ => rfl
theorem causal_sclLow : Causal justState fun s => .ok (sclLow s) :=
  .act (fun _ => [.sclLow]) (fun s => (busRun_sclLow s).recorded fun _ => rfl) (fun _ _ => rfl) fun _ _ => rfl
theorem causal_sclRelease : Causal justState fun s => .ok (sclRelease s) :=
  .act (fun _ => [.sclRelease]) (fun s => (busRun_sclRelease s).recorded fun _ => rfl) (fun _ _ => rfl) fun _ _ => rfl
theorem causal_tgStart (g : Guard) : Causal justState fun s => .ok (tgStart g s) :=
  .act (fun s => [.tgStart g s.timeout]) (fun s => (busRun_tgStart g s).recorded fun _ => rfl) (fun _ _ => rfl)
    fun _ _ => rfl

theorem causal_sdaBit (b : Bool) : Causal justState fun s => .ok (sdaBit b s) := by
  cases b
  · exact causal_sdaLow
  · exact causal_sdaRelease

theorem causal_bitDelay : Causal justState bitDelay := by
  intro s e r r' h h'
  have granted {u v : State} (h : bitDelay u = .ok v) : u.env.Grants [.delay u.delay] := fun i => by
    cases i <;> simp [(bitDelay_run h).1]
  have run := (bitDelay_run h).2.1.recorded (granted h)
  have run' := (bitDelay_run h').2.1.recorded (granted h')
  rw [bitDelay_done (bitDelay_run h).1] at h
  rw [bitDelay_done (bitDelay_run h').1] at h'
  cases h
  cases h'
  exact .together (mk := justState) (a := ()) run run'

/-- A question at the input `i`, whose answer the action `k` records. -/
def question (i : Input) (k : Bool → Token) (s : State) : Bool × State :=
  ((s.env.input i).head, emit (k (s.env.input i).head) (s.under (s.env.consume (k (s.env.input i).head))))

/-- Two runs part at a question that is answered differently. -/
theorem causal_question {i : Input} {k : Bool → Token} (asks : ∀ b j, (k b).answers j = if j = i then [b] else []) :
    Causal Prod.mk fun s => .ok (question i k s) := by
  have run (s : State) : Recorded s (question i k s).2 [k (s.env.input i).head] := by
    refine ⟨rfl, rfl, fun j => ?_⟩
    by_cases hj : j = i <;> simp [asks, hj]
  intro s e r r' h h'
  cases h
  cases h'
  have run' := run (s.under e)
  by_cases same : (e.input i).head = (s.env.input i).head
  · simp only [question, under_env, same] at run run' ⊢
    exact .together (run s) run'
  · exact .parted (run s) run' (.now (i := i) (b := (s.env.input i).head) (by simp [asks])
      (by rw [under_env, asks, if_pos rfl, Bool.eq_not_of_ne same]))

theorem causal_readScl : Causal Prod.mk fun s => .ok (readScl s) :=
  causal_question (i := .scl) (k := .readScl) answers_readScl

theorem causal_readSda : Causal Prod.mk fun s => .ok (readSda s) :=
  causal_question (i := .sda) (k := .readSda) answers_readSda

theorem causal_tgExpired (g : Guard) : Causal Prod.mk fun s => .ok (tgExpired g s) := by
  cases g
  · exact causal_question (i := .gp) (k := .tgQuery .gp) answers_tgQuery_gp
  · exact causal_question (i := .go) (k := .tgQuery .go) answers_tgQuery_go

/-! ### The bus operations -/

theorem causal_stopOpen : Causal justState stopOpen :=
  (causal_bitDelay.comp causal_sclLow).bind fun _ =>
    (causal_bitDelay.comp causal_sdaLow).bind fun _ => causal_sclRelease

theorem causal_stopClose : Causal justState stopClose :=
  causal_bitDelay.bind fun _ => causal_bitDelay.comp causal_sdaRelease

theorem causal_opStopForced : Causal justState opStopForced :=
  causal_stopOpen.bind fun _ => causal_stopClose

theorem causal_abort : Causal justState abort :=
  causal_opStopForced.bind fun _ => .writes (fun _ _ => rfl) fun _ => rfl

/-- A guard is asked; if it has expired the operation is aborted, else it goes on with `k` (R92, R120, R199). -/
def unlessExpired (g : Guard) (k : State → Except Fault (Bool × State)) (s : State) : Except Fault (Bool × State) :=
  if (tgExpired g s).1 then abort (tgExpired g s).2 >>= fun u => .ok (false, u) else k (tgExpired g s).2

theorem Causal.unlessExpired {k : State → Except Fault (Bool × State)} (hk : Causal Prod.mk k) (g : Guard) :
    Causal Prod.mk (unlessExpired g k) := by
  refine (causal_tgExpired g).bind
    (g := fun q => if q.1 then abort q.2 >>= fun u => .ok (false, u) else k q.2) fun expired => ?_
  cases expired with
  | true => exact causal_abort.bind fun _ => .pure Prod.mk false
  | false => exact hk

theorem causal_waitLoop (g : Guard) (n : Nat) : Causal Prod.mk (waitLoop g n) := by
  induction n with
  | zero =>
    intro s e r r' h
    cases h
  | succ n ih =>
    refine causal_readScl.bind
      (g := fun p => if p.1 then .ok (true, p.2) else unlessExpired g (waitLoop g n) p.2) fun high => ?_
    cases high with
    | true => exact .pure Prod.mk true
    | false => exact ih.unlessExpired g

/-- Each of two waits that end does so as well within the longer of their fuels. -/
theorem causal_waitSclHigh (g : Guard) : Causal Prod.mk (waitSclHigh g) := fun s e _ _ h h' =>
  causal_waitLoop g _ s e (waitLoop_mono h (le_max_left _ _)) (waitLoop_mono h' (le_max_right _ _))

theorem causal_opStop (stretch : Bool) : Causal Prod.mk (opStop stretch) := by
  cases stretch with
  | false => exact causal_opStopForced.bind fun _ => .pure Prod.mk Status.ack
  | true =>
    refine (causal_stopOpen.comp (causal_tgStart .gp)).bind fun _ => (causal_waitSclHigh .gp).bind fun risen => ?_
    cases risen with
    | true => exact causal_stopClose.bind fun _ => .pure Prod.mk Status.ack
    | false => exact .pure Prod.mk Status.timedOut

theorem causal_setBitcnt (c : BitVec 4) : Causal justState fun s => .ok { s with bitcnt := c } :=
  .writes (act := fun s => { s with bitcnt := c }) (fun _ _ => rfl) fun _ => rfl

theorem causal_setSr (sr : Byte) : Causal justState fun s => .ok { s with sr := sr } :=
  .writes (act := fun s => { s with sr := sr }) (fun _ _ => rfl) fun _ => rfl

theorem causal_writeBits (n : Nat) : Causal Prod.mk (writeBits n) := by
  induction n with
  | zero => exact (Causal.pure Prod.mk true).comp (causal_setBitcnt 0)
  | succ n ih =>
    have driven : Causal justState fun s =>
        bitDelay (sdaBit (s.sr.getLsbD n) (sclLow { s with bitcnt := BitVec.ofNat 4 (n + 1) })) := fun s =>
      ((causal_bitDelay.comp (causal_sdaBit (s.sr.getLsbD n))).comp causal_sclLow).comp (causal_setBitcnt _) s
    exact driven.bind fun _ => (causal_bitDelay.comp causal_sclRelease).bind fun _ => ih.unlessExpired .gp

theorem causal_writeAck : Causal Prod.mk writeAck := by
  refine ((causal_bitDelay.comp causal_sdaRelease).comp causal_sclLow).bind fun _ =>
    ((causal_waitSclHigh .gp).comp causal_sclRelease).bind fun risen => ?_
  cases risen with
  | true =>
    exact causal_readSda.bind (g := fun p => .ok (if p.1 then Status.nack else .ack, sclLow p.2)) fun level =>
      (Causal.pure Prod.mk (if level then Status.nack else .ack)).comp causal_sclLow
  | false => exact .pure Prod.mk Status.timedOut

theorem causal_opWrite (data : Byte) : Causal Prod.mk (opWrite data) := by
  refine (((causal_writeBits 8).comp (causal_setSr data)).comp (causal_tgStart .gp)).bind fun sent => ?_
  cases sent with
  | true => exact causal_writeAck
  | false => exact .pure Prod.mk Status.timedOut

theorem causal_readBits (n : Nat) : Causal Prod.mk (readBits n) := by
  induction n with
  | zero => exact (Causal.pure Prod.mk true).comp (causal_setBitcnt 0)
  | succ n ih =>
    refine (((causal_bitDelay.comp causal_sdaRelease).comp causal_sclLow).comp (causal_setBitcnt _)).bind fun _ =>
      (causal_bitDelay.comp causal_sclRelease).bind fun _ => (causal_waitSclHigh .gp).bind fun risen => ?_
    cases risen with
    | true =>
      exact causal_readSda.bind (g := fun p => readBits n { p.2 with sr := shiftIn p.2.sr p.1 }) fun level s =>
        ih.comp (causal_setSr (shiftIn s.sr level)) s
    | false => exact .pure Prod.mk false

theorem causal_readAck (sendAck : Bool) : Causal Prod.mk (readAck sendAck) := by
  refine ((causal_bitDelay.comp (causal_sdaBit (!sendAck))).comp causal_sclLow).bind fun _ =>
    ((causal_waitSclHigh .gp).comp causal_sclRelease).bind fun risen => ?_
  cases risen with
  | true => exact (Causal.pure Prod.mk Status.ack).comp causal_sclLow
  | false => exact .pure Prod.mk Status.timedOut

/-- The result of a byte read: the status, the byte and the state. -/
def readResult (r : Status × Byte) (s : State) : Status × Byte × State := (r.1, r.2, s)

theorem causal_opRead (sendAck : Bool) : Causal readResult (opRead sendAck) := by
  have answered (r : Status) : Causal readResult fun s => .ok (r, s.sr, s) := fun s =>
    Causal.pure readResult (r, s.sr) s
  refine (((causal_readBits 8).comp (causal_setSr 0)).comp (causal_tgStart .gp)).bind fun received => ?_
  cases received with
  | true => exact (causal_readAck sendAck).bind answered
  | false => exact answered .timedOut

theorem causal_opStart (raw : Byte) : Causal Prod.mk (opStart raw) :=
  (causal_bitDelay.comp causal_sdaLow).bind fun _ =>
    (causal_bitDelay.comp causal_sclLow).bind fun _ => causal_opWrite raw

theorem causal_opRstart (raw : Byte) : Causal Prod.mk (opRstart raw) :=
  (causal_bitDelay.comp causal_sdaRelease).bind fun _ => (causal_bitDelay.comp causal_sclRelease).bind fun _ =>
    (causal_bitDelay.comp causal_sdaLow).bind fun _ => causal_opWrite raw

theorem causal_startWaitLoop (raw : Byte) (n : Nat) : Causal Prod.mk (startWaitLoop raw n) := by
  induction n with
  | zero =>
    intro s e r r' h
    cases h
  | succ n ih =>
    refine (causal_tgExpired .go).bind (g := fun p => if p.1 then .ok (.timedOut, p.2) else
      opStart raw p.2 >>= fun q => match q.1 with
        | .ack => .ok (.ack, q.2)
        | .nack => opStop true q.2 >>= fun u => startWaitLoop raw n u.2
        | .timedOut => opStop true q.2 >>= fun u => .ok (.timedOut, u.2)) fun expired => ?_
    cases expired with
    | true => exact .pure Prod.mk Status.timedOut
    | false =>
      refine (causal_opStart raw).bind fun r => ?_
      cases r with
      | ack => exact .pure Prod.mk Status.ack
      | nack => exact (causal_opStop true).bind fun _ => ih
      | timedOut => exact (causal_opStop true).bind fun _ => .pure Prod.mk Status.timedOut

/-- Each of two START-with-waits that end does so as well with the larger of their numbers of attempts. -/
theorem causal_opStartWait (raw : Byte) : Causal Prod.mk (opStartWait raw) := fun s e _ _ h h' =>
  (causal_startWaitLoop raw _).comp (causal_tgStart .go) s e (startWaitLoop_mono h (le_max_left _ _))
    (startWaitLoop_mono h' (le_max_right _ _))

/-! ### The transaction sequencer -/

theorem causal_opTstart (raw : Byte) : Causal Prod.mk (opTstart raw) := by
  have opens (deferred : Bool) : Causal Prod.mk fun s => if deferred then opRstart raw s else opStart raw s := by
    cases deferred
    · exact causal_opStart raw
    · exact causal_opRstart raw
  exact fun s => opens s.stopDeferred s

theorem causal_sendBytes (n k : Nat) : Causal Prod.mk (sendBytes n k) := by
  induction n generalizing k with
  | zero => exact .pure Prod.mk TxStatus.ok
  | succ n ih =>
    have written : Causal Prod.mk fun s => opWrite (s.txByte k) { s with txpos := BitVec.ofNat 8 k } := fun s =>
      (causal_opWrite (s.txByte k)).comp (.writes (act := fun s => { s with txpos := BitVec.ofNat 8 k })
        (fun _ _ => rfl) fun _ => rfl) s
    refine written.bind fun r => ?_
    cases r with
    | ack => exact ih (k + 1)
    | nack => exact .pure Prod.mk (TxStatus.ofData .nack)
    | timedOut => exact .pure Prod.mk (TxStatus.ofData .timedOut)

theorem causal_transmit : Causal Prod.mk transmit := by
  have addressed : Causal Prod.mk fun s => opTstart (rawByte s.taddr .write) s := fun s =>
    causal_opTstart (rawByte s.taddr .write) s
  refine addressed.bind fun r => ?_
  cases r with
  | ack => exact fun s => causal_sendBytes s.txlen.toNat 0 s
  | nack => exact .pure Prod.mk (TxStatus.ofAddress .nack)
  | timedOut => exact .pure Prod.mk (TxStatus.ofAddress .timedOut)

theorem causal_endTransaction (sendStop : Bool) : Causal justState (endTransaction sendStop) := by
  have closed : Causal justState fun s => .ok { s with stopDeferred := !sendStop, phase := .idle } :=
    .writes (act := fun s => { s with stopDeferred := !sendStop, phase := .idle }) (fun _ _ => rfl) fun _ => rfl
  cases sendStop with
  | true => exact ((causal_opStop true).bind fun _ => .pure justState ()).bind fun _ => closed
  | false => exact closed

theorem causal_receiveBytes (n : Nat) : Causal justState (receiveBytes n) := by
  induction n with
  | zero => exact .pure justState ()
  | succ n ih =>
    refine (causal_opRead (decide (n ≠ 0))).bind fun ⟨r, b⟩ => ?_
    cases r with
    | ack => exact ih.comp (.writes (act := enqueueRx b) (fun _ _ => rfl) fun _ => rfl)
    | nack => exact .pure justState ()
    | timedOut => exact .pure justState ()

theorem causal_receive (addr : Addr) (count : BitVec 8) : Causal justState (receive addr count) := by
  have opened (n : Nat) : Causal justState fun s => opTstart (rawByte addr .read) s >>= fun p =>
      if p.1 = .ack then receiveBytes n p.2 else .ok p.2 := by
    refine (causal_opTstart (rawByte addr .read)).bind fun r => ?_
    cases r with
    | ack => exact causal_receiveBytes n
    | nack => exact .pure justState ()
    | timedOut => exact .pure justState ()
  exact fun s => opened (readCount count s.params.rxCap) s

/-! ### Every command -/

theorem causal_respond (w : RespWord) : Causal justState fun s => .ok (respond w s) :=
  .writes (fun _ _ => rfl) fun _ => rfl

theorem Causal.finish {op : State → Except Fault State} (h : Causal justState op) {s t t' : State} {e : Env}
    (ends : finish (op s) = .next t) (ends' : finish (op (s.under e)) = .next t') :
    Twins justState s (s.under e) t t' :=
  h s e (finish_next.mp ends) (finish_next.mp ends')

/-- A bus primitive that reports its status. -/
theorem Causal.reported {op : State → Except Fault (Status × State)} (h : Causal Prod.mk op) :
    Causal justState fun s => op s >>= fun p => .ok (respond (respStatus p.1) p.2) :=
  h.bind fun r => causal_respond (respStatus r)

theorem causal_read (sendAck : Bool) : Causal justState fun s => opRead sendAck s >>= fun p =>
    .ok (respond (if p.1 = .ack then respData p.2.1 else respStatus .timedOut) p.2.2) :=
  (causal_opRead sendAck).bind fun r => causal_respond (if r.1 = .ack then respData r.2 else respStatus .timedOut)

theorem causal_endTx (sendStop : Bool) : Causal justState fun s => transmit s >>= fun (code, u) =>
    endTransaction sendStop u >>= fun u => .ok (respond (respTx code) (releaseTxpos u)) :=
  causal_transmit.bind fun code => (causal_endTransaction sendStop).bind fun _ =>
    (causal_respond (respTx code)).comp (.writes (act := releaseTxpos) (fun _ _ => rfl) fun _ => rfl)

theorem causal_serveRequest (addr : Addr) (count : BitVec 8) (sendStop : Bool) :
    Causal justState (serveRequest addr count sendStop) :=
  (causal_receive addr count).bind fun _ => (causal_endTransaction sendStop).bind fun _ s =>
    causal_respond (respData s.rxlen) s

theorem causal_init : Causal justState fun s =>
    .ok (respond respDone { sdaRelease (sclRelease s) with
      phase := .idle, stopDeferred := false, txlen := 0, rxlen := 0, rxpos := 0 }) :=
  ((Causal.writes (act := fun s => respond respDone { s with
      phase := .idle, stopDeferred := false, txlen := 0, rxlen := 0, rxpos := 0 })
    (fun _ _ => rfl) fun _ => rfl).comp causal_sdaRelease).comp causal_sclRelease

/-- A command that chooses between two writes by the same test in both runs. -/
theorem twins_of_ite {c : Prop} [Decidable c] {s a b t t' : State} {e : Env}
    (ends : (if c then .next a else .next b : Host.Outcome State Fault Refusal) = .next t)
    (ends' : (if c then .next (a.under e) else .next (b.under e) : Host.Outcome State Fault Refusal) = .next t')
    (twins : Twins justState s (s.under e) a (a.under e)) (twins' : Twins justState s (s.under e) b (b.under e)) :
    Twins justState s (s.under e) t t' := by
  by_cases hc : c
  · rw [if_pos hc] at ends ends'
    cases ends
    cases ends'
    exact twins
  · rw [if_neg hc] at ends ends'
    cases ends
    cases ends'
    exact twins'

/-- Two runs of a command that end part only at an answer (R49). -/
theorem exec_twins {i : Instr} {s t t' : State} {e : Env} (ends : exec i s = .next t)
    (ends' : exec i (s.under e) = .next t') : Twins justState s (s.under e) t t' := by
  cases i with
  | stop stretch => exact (causal_opStop stretch).reported.finish ends ends'
  | startRaw raw => exact (causal_opStart raw).reported.finish ends ends'
  | rstartRaw raw => exact (causal_opRstart raw).reported.finish ends ends'
  | startwRaw raw => exact (causal_opStartWait raw).reported.finish ends ends'
  | start addr mode => exact (causal_opStart _).reported.finish ends ends'
  | rstart addr mode => exact (causal_opRstart _).reported.finish ends ends'
  | startw addr mode => exact (causal_opStartWait _).reported.finish ends ends'
  | write data => exact (causal_opWrite data).reported.finish ends ends'
  | read sendAck => exact (causal_read sendAck).finish ends ends'
  | endTx sendStop => exact (causal_endTx sendStop).finish ends ends'
  | reqFrom addr count sendStop =>
    exact ((causal_serveRequest addr count sendStop).comp
      (.writes (act := openRequest addr) (fun _ _ => rfl) fun _ => rfl)).finish ends ends'
  | init => exact causal_init.finish ends ends'
  | txPut data => exact twins_of_ite ends ends' (.of_same rfl rfl) (.of_same rfl rfl)
  | rxGet => exact twins_of_ite ends ends' (.of_same rfl rfl) (.of_same rfl rfl)
  | rxPeek => exact twins_of_ite ends ends' (.of_same rfl rfl) (.of_same rfl rfl)
  | beginTx _ | rxAvail | cfgPullups _ | cfgDelay _ | cfgTimeout _ =>
    cases ends
    cases ends'
    exact .of_same rfl rfl

theorem runCommand_twins {w : CmdWord} {s t t' : State} {e : Env} (ends : runCommand w s = .next t)
    (ends' : runCommand w (s.under e) = .next t') : Twins justState s (s.under e) t t' := by
  cases hd : decode w with
  | ok i =>
    rw [runCommand_decoded hd] at ends ends'
    exact exec_twins ends ends'
  | error _ =>
    rw [runCommand_illegal hd] at ends ends'
    cases ends
    cases ends'
    exact .of_same rfl rfl

end Sys2Proof.Machine

/-! ## Reset during a command (R221, U10) -/

namespace Sys2Proof.Machine

/-! ### Environments that answer alike -/

theorem take_of_le {a b : Answers} {m n : Nat} (h : a.take n = b.take n) (le : m ≤ n) : a.take m = b.take m := by
  obtain ⟨k, rfl⟩ := Nat.exists_eq_add_of_le le
  rw [take_add, take_add] at h
  exact (List.append_inj h (by simp [take_length])).1

theorem take_drop_of_le {a b : Answers} {m n k : Nat} (h : a.take k = b.take k) (le : m + n ≤ k) :
    (a.drop m).take n = (b.drop m).take n := by
  have h := take_of_le h le
  rw [take_add, take_add] at h
  exact (List.append_inj h (by simp [take_length])).2

theorem sameAnswers_iff {n : Nat} {e f : Env} :
    e.SameAnswers n f ↔ ∀ i, i ≠ .delay → (e.input i).take n = (f.input i).take n := by
  constructor
  · rintro ⟨scl, sda, gp, go⟩ (_ | _ | _ | _ | _) hi
    exacts [scl, sda, gp, go, absurd rfl hi]
  · exact fun h => ⟨h .scl nofun, h .sda nofun, h .gp nofun, h .go nofun⟩

theorem answers_length_le (k : Token) (i : Input) : (k.answers i).length ≤ 1 := by
  cases k with
  | tgQuery g b => cases g <;> cases i <;> simp
  | _ => cases i <;> simp

theorem Env.SameAnswers.consume {n : Nat} {e f : Env} (h : e.SameAnswers (n + 1) f) (k : Token) :
    (e.consume k).SameAnswers n (f.consume k) := by
  refine sameAnswers_iff.mpr fun i hi => ?_
  have one := answers_length_le k i
  rw [consume_input, consume_input]
  exact take_drop_of_le (sameAnswers_iff.mp h i hi) (by omega)

/-- An answer that an action records is the environment's. -/
theorem Env.Grants.answer {e : Env} {k : Token} {ts : List Token} {i : Input} {b : Bool} (h : e.Grants (k :: ts))
    (asks : k.answers i = [b]) : (e.input i).head = b := by
  have first := h i
  rw [answers_cons, asks, List.singleton_append, begins_cons] at first
  exact first.1

theorem Env.Grants.consume {e : Env} {k : Token} {ts : List Token} (h : e.Grants (k :: ts)) : (e.consume k).Grants ts :=
  ((grants_append e [k] ts).mp h).2

/-- A delay is only ever answered "done". -/
theorem answers_delay_ne_false (k : Token) : k.answers .delay ≠ [false] := by
  cases k with
  | tgQuery g b => cases g <;> simp
  | _ => simp

/-- Environments that answer alike for `n` answers see the runs part after `n` actions at the earliest: each action asks
at most once. -/
theorem Parts.take_eq {xs ys : List Token} (h : Parts xs ys) {n : Nat} {e f : Env} (same : e.SameAnswers n f)
    (granted : e.Grants xs) (granted' : f.Grants ys) : xs.take n = ys.take n := by
  induction h generalizing n e f with
  | @now x y xs ys i b asks asks' =>
    cases n with
    | zero => rfl
    | succ n =>
      have input : i ≠ .delay := by
        rintro rfl
        cases b
        · exact answers_delay_ne_false x asks
        · exact answers_delay_ne_false y asks'
      have heads := (List.cons.inj (sameAnswers_iff.mp same i input)).1
      rw [granted.answer asks, granted'.answer asks'] at heads
      cases b <;> cases heads
  | later k _ ih =>
    cases n with
    | zero => rfl
    | succ n => exact congrArg (k :: ·) (ih (same.consume k) granted.consume granted'.consume)

/-- The first `n` actions of two runs are alike when the environments answer alike for `n` answers. -/
theorem Twins.take_eq {s s' t t' : State} (h : Twins justState s s' t t') {n : Nat}
    (same : s.env.SameAnswers n s'.env) :
    ∃ ts ts', Recorded s t ts ∧ Recorded s' t' ts' ∧ ts.take n = ts'.take n := by
  cases h with
  | parted run run' parts => exact ⟨_, _, run, run', parts.take_eq same run.granted run'.granted⟩
  | together run run' => exact ⟨_, _, run, run', rfl⟩

/-! ### The environment that `performed` runs the command in -/

theorem take_pending (bs : List Bool) (rest : Bool) : (⟨bs, rest⟩ : Answers).take bs.length = bs := by
  induction bs with
  | nil => rfl
  | cons b bs ih => exact congrArg (b :: ·) ih

theorem take_cut (n : Nat) (a : Answers) : (a.cut n).take n = a.take n := by
  have cut := take_pending (a.take n) true
  rwa [take_length] at cut

theorem sameAnswers_cut (n : Nat) (e : Env) : (e.cut n).SameAnswers n e :=
  ⟨take_cut n _, take_cut n _, take_cut n _, take_cut n _⟩

theorem live_cut (n : Nat) (e : Env) : (e.cut n).Live :=
  ⟨rfl, rfl, nofun, rfl⟩

/-! ### The actions that a reset lets a command perform -/

/-- Actions whose delays have been done are not cut at a delay. -/
theorem upToStall_take {n : Nat} {a done : Answers} {ts : List Token} (granted : a.Begins (answers ts .delay))
    (same : a.take n = done.take n) : upToStall done (ts.take n) = ts.take n := by
  induction ts generalizing n a done with
  | nil => simp [upToStall]
  | cons k ts ih =>
    cases n with
    | zero => rfl
    | succ n =>
      have same' : a.take n = done.take n := take_of_le same n.le_succ
      cases k with
      | delay d =>
        obtain ⟨head, tail⟩ := (begins_cons _ _ _).mp granted
        obtain ⟨heads, tails⟩ := List.cons.inj same
        simp [upToStall, ← heads, head, ih tail tails]
      | tgQuery g b => cases g <;> simpa [upToStall] using ih granted same'
      | _ => simpa [upToStall] using ih granted same'

/-- A command that ends in an environment that answers alike for `n` answers has performed there, in its first `n`
actions, what the reset after `n` actions lets it perform, but for a delay that is never done. -/
theorem performed_eq {w : CmdWord} {n : Nat} {s u : State} {e : Env} (same : e.SameAnswers n s.env)
    (ends : runCommand w (s.under e) = .next u) :
    ∃ ts, Recorded (s.under e) u ts ∧ performed w n s = upToStall s.env.delayDone (ts.take n) := by
  obtain ⟨v, cut, -⟩ := runCommand_live w (s := s.under (s.env.cut n)) (live_cut n _)
  have cutSame := sameAnswers_cut n s.env
  have alike : e.SameAnswers n (s.env.cut n) :=
    ⟨same.scl.trans cutSame.scl.symm, same.sda.trans cutSame.sda.symm, same.gp.trans cutSame.gp.symm,
      same.go.trans cutSame.go.symm⟩
  obtain ⟨ts, ts', run, run', eq⟩ := (runCommand_twins (e := s.env.cut n) ends cut).take_eq alike
  refine ⟨ts, run, ?_⟩
  have trace : v.trace = s.trace ++ ts' := run'.trace
  rw [performed, show runCommand w { s with env := s.env.cut n } = .next v from cut, eq]
  simp [trace]

/-- As `performed_eq`, where the delays are answered alike too. -/
theorem performed_eq_take {w : CmdWord} {n : Nat} {s u : State} {e : Env} (same : e.SameAnswers n s.env)
    (delays : e.delayDone.take n = s.env.delayDone.take n) (ends : runCommand w (s.under e) = .next u) :
    ∃ ts, Recorded (s.under e) u ts ∧ performed w n s = ts.take n := by
  obtain ⟨ts, run, eq⟩ := performed_eq same ends
  exact ⟨ts, run, eq.trans (upToStall_take (run.granted .delay) delays)⟩

/-- A step that cuts a command: the reset state, after the actions performed. -/
theorem step_cuts {s : State} {w : CmdWord} {n : Nat} {rest : List HostEvent} (ready : s.busy = false)
    (host : s.host = .resetDuring w n :: rest) :
    step s = .next (abandonCommand w n (acceptCommand rest s)) := by
  rw [step_resetDuring host, presentResetDuring_ready ready]

/-- Settles O12: the command ends in `Env.cut`, and by `performed_eq` every environment that answers alike for `n`
answers shows the same first `n` actions, in particular its own environment when it ends there. -/
theorem resetDuringCommandCutsItsTrace : Obligations.ResetDuringCommandCutsItsTrace := by
  intro s w n rest ready host
  have cuts := step_cuts ready host
  refine ⟨?_, fun e u same ends => ?_, fun u ends => ?_⟩
  · obtain ⟨v, ends, -⟩ := runCommand_live w (s := (acceptCommand rest s).under (s.env.cut n)) (live_cut n _)
    exact ⟨_, v, sameAnswers_cut n s.env, ends⟩
  · obtain ⟨ts, run, eq⟩ := performed_eq (s := acceptCommand rest s) same ends
    exact ⟨_, ts, cuts, run.trace, congrArg (s.trace ++ ·) eq⟩
  · obtain ⟨ts, run, eq⟩ := performed_eq_take (s := acceptCommand rest s) ⟨rfl, rfl, rfl, rfl⟩ rfl ends
    exact ⟨_, ts, cuts, run.trace, congrArg (s.trace ++ ·) eq⟩

/-- Settles O11: the registers by the reset table, the trace and the answers taken by `performed_eq_take`. -/
theorem resetDuringCommandGivesResetState : Obligations.ResetDuringCommandGivesResetState := by
  intro s w n rest ready host
  refine ⟨_, step_cuts ready host, rfl, rfl, rfl, rfl, rfl, rfl, rfl, rfl, rfl, rfl, rfl, rfl, rfl, rfl, rfl, rfl,
    rfl, fun e u same delays ends => ?_⟩
  obtain ⟨ts, run, eq⟩ := performed_eq_take (s := acceptCommand rest s) same delays ends
  exact ⟨ts, run.trace, congrArg (s.trace ++ ·) eq, congrArg (·.foldl Env.consume s.env) eq⟩

end Sys2Proof.Machine
